-- ==== Sys2Proof/Word.lean ====
section
/-! DEFINITION. The word types of the block: registers, commands, frames and capture words are 32 bits wide
(00_scope R4), memory cells are bytes. -/

namespace Sys2Proof

/-- A register, a command word, a frame or a capture word (00_scope R4). -/
abbrev Word := BitVec 32

/-- One byte of a buffer, the unit of the memory cells. -/
abbrev Byte := BitVec 8

end Sys2Proof
end

