-- ==== Sys2Proof/Machine/Binary32.lean ====
section
/-! DEFINITION. IEEE-754 binary32 as the divider rules use it: the exact value of a pattern, the comparison of
41_capture R142, and the rounding RNE32 of 00_scope R7. Finite values are whole multiples of 2^-149. -/

namespace Sys2Proof.Machine

/-- The value of a binary32 pattern. A finite value is given exactly, as a number of units of 2^-149. -/
inductive F32 where
  | nan
  | inf (neg : Bool)
  | finite (units : Int)
  deriving DecidableEq, Repr

/-- The exact value of a pattern: sign bit 31, exponent field [30:23], fraction [22:0]. -/
def f32Value (w : Word) : F32 :=
  let e : Nat := w.toNat / 2 ^ 23 % 256
  let f : Nat := w.toNat % 2 ^ 23
  let neg := w.getLsbD 31
  if e = 255 then (if f = 0 then .inf neg else .nan)
  else
    let mag : Nat := if e = 0 then f else (2 ^ 23 + f) * 2 ^ (e - 1)
    .finite (if neg then -(mag : Int) else (mag : Int))

/-- Less-than on values; false where either is NaN. -/
def F32.lt : F32 → F32 → Bool
  | .nan, _ => false
  | _, .nan => false
  | .inf a, .inf b => a && !b
  | .inf a, .finite _ => a
  | .finite _, .inf b => !b
  | .finite a, .finite b => a < b

/-- The pattern of 1.0. -/
def f32One : Word := 0x3F800000

/-- `num / den` rounded to the nearest whole number, ties to even. -/
def roundHalfEven (num den : Nat) : Nat :=
  let q := num / den
  let r := num % den
  if 2 * r < den then q
  else if den < 2 * r then q + 1
  else q + q % 2

/-- RNE32 of the exact rational `num / den`: the binary32 pattern nearest to it, ties to even (00_scope R7). With the
value counted in units of 2^-149, the result keeps 24 significant bits: `k` is the exponent of its last kept bit. A value
that rounds past the largest finite pattern gives +inf (PRESUMED from IEEE 754; log 14). -/
def rne32 (num den : Nat) : Word :=
  let k := Nat.log2 (num * 2 ^ 149 / den) - 23
  let q := roundHalfEven (num * 2 ^ 149) (den * 2 ^ k)
  BitVec.ofNat 32 (min (k * 2 ^ 23 + q) 0x7F800000)

end Sys2Proof.Machine
end

