-- ==== Sys2Proof/Syntax.lean ====
section
/-! DEFINITION. The instructions of NECCAP: the eleven host commands (30_encoding R101) and the two words of the
capture lane's microcode (30_encoding R108). -/

namespace Sys2Proof

/-- One constructor per row of spec/opcode_table.json. Operands that a field holds as an unsigned number are `Nat`
(30_encoding R103); one-bit operands are `Bool`. The 32-bit operand of a command travels in ARG0 (R104) and is no
part of the instruction. -/
inductive Instr where
  /-- CALC_DIV; `us` is UNIT: false nanoseconds, true microseconds (40_divider R130). -/
  | calcDiv (us : Bool)
  /-- CFG_CAPTURE with PIN_BASE and PIN_COUNT (41_capture R140). -/
  | cfgCapture (base count : Nat)
  /-- RUN_CAPTURE with TRIG_PIN and TRIG_POL, true high (41_capture R150). -/
  | runCapture (pin : Nat) (pol : Bool)
  /-- RELEASE_CAPTURE (41_capture R155). -/
  | releaseCapture
  /-- RECONSTRUCT with PIN_COUNT (42_reconstruct R192). -/
  | reconstruct (count : Nat)
  /-- INIT_DECODER with PIN (43_decoder R210). -/
  | initDecoder (pin : Nat)
  /-- DEINIT_DECODER (43_decoder R212). -/
  | deinitDecoder
  /-- POLL_FRAME (43_decoder R217). -/
  | pollFrame
  /-- DECODE (43_decoder R216). -/
  | decode
  /-- SET_NOTIFY with EN (44_notification R240). -/
  | setNotify (en : Bool)
  /-- POP_REPORT (44_notification R245). -/
  | popReport
  /-- WAIT_GPIO, the lane's wait-for-trigger word, with polarity and GPIO index (30_encoding R108). -/
  | waitGpio (pol : Bool) (gpio : Nat)
  /-- IN_PINS, the lane's sample word, with its bit count, 0 standing for 32 (30_encoding R108). -/
  | inPins (bitCount : Nat)
  deriving DecidableEq, Repr, Inhabited

end Sys2Proof
end

