-- ==== Sys2Proof/WellFormed.lean ====
section
/-! DEFINITION. An instruction is well formed when every operand fits its field. "An operand that does not fit its field
is an assembly error, never truncated" (30_encoding R109). -/

namespace Sys2Proof

/-- Every operand fits the field that 30_encoding R102 (the commands) and R108 (the lane words) give it. -/
def Instr.wellFormed : Instr → Bool
  | .calcDiv _ => true
  | .cfgCapture base count => base < 32 && count < 64
  | .runCapture pin _ => pin < 32
  | .releaseCapture => true
  | .reconstruct count => count < 64
  | .initDecoder pin => pin < 32
  | .deinitDecoder => true
  | .pollFrame => true
  | .decode => true
  | .setNotify _ => true
  | .popReport => true
  | .waitGpio _ gpio => gpio < 32
  | .inPins bitCount => bitCount < 32

end Sys2Proof
end

