-- ==== Sys2Proof/Decode.lean ====
section
/-! DEFINITION. The decoder of the command words (30_encoding R100 to R105) and of the lane's microcode words
(30_encoding R108), total on any word, rejecting by name; after it the encoder and the table interface. -/

namespace Sys2Proof

/-- The opcodes of 30_encoding R101. -/
def opcCalcDiv : BitVec 8 := 0x01
def opcCfgCapture : BitVec 8 := 0x02
def opcRunCapture : BitVec 8 := 0x03
def opcReleaseCapture : BitVec 8 := 0x04
def opcReconstruct : BitVec 8 := 0x05
def opcInitDecoder : BitVec 8 := 0x06
def opcDeinitDecoder : BitVec 8 := 0x07
def opcPollFrame : BitVec 8 := 0x08
def opcDecode : BitVec 8 := 0x09
def opcSetNotify : BitVec 8 := 0x0A
def opcPopReport : BitVec 8 := 0x0B

/-- Why a word is no instruction. -/
inductive DecodeError where
  /-- The opcode is reserved: 0x00 or 0x0C to 0xFF (30_encoding R101, R105). -/
  | reservedOpcode
  /-- A reserved bit of the opcode's format is 1 (30_encoding R102, R105). -/
  | reservedBits
  /-- A 16-bit word that is neither WAIT_GPIO nor IN_PINS (30_encoding R108). -/
  | notLaneWord
  deriving DecidableEq, Repr

/-- The command formats of 30_encoding R102. -/
inductive Format where
  | fN | fDiv | fCfg | fRun | fRec | fPin | fEn
  deriving DecidableEq, Repr

/-- FIELDMASK of 30_encoding R102: the operand bits of a format. -/
def Format.fieldMask : Format → Word
  | .fN => 0x000000
  | .fDiv => 0x000001
  | .fCfg => 0x0007FF
  | .fRun => 0x00003F
  | .fRec => 0x0007E0
  | .fPin => 0x00001F
  | .fEn => 0x000001

/-- Field extraction, `zext(w[hi:lo])` as a number (30_encoding R103), with `width = hi - lo + 1`. -/
def field (w : Word) (lo width : Nat) : Nat := (w.extractLsb' lo width).toNat

/-- The row of 30_encoding R101 for an opcode: its format, and the instruction whose operands are the word's fields. -/
def opcodeRow (w : Word) : Option (Format × Instr) :=
  match (w.extractLsb' 24 8).toNat with
  | 0x01 => some (.fDiv, .calcDiv (w.getLsbD 0))
  | 0x02 => some (.fCfg, .cfgCapture (field w 0 5) (field w 5 6))
  | 0x03 => some (.fRun, .runCapture (field w 0 5) (w.getLsbD 5))
  | 0x04 => some (.fN, .releaseCapture)
  | 0x05 => some (.fRec, .reconstruct (field w 5 6))
  | 0x06 => some (.fPin, .initDecoder (field w 0 5))
  | 0x07 => some (.fN, .deinitDecoder)
  | 0x08 => some (.fN, .pollFrame)
  | 0x09 => some (.fN, .decode)
  | 0x0A => some (.fEn, .setNotify (w.getLsbD 0))
  | 0x0B => some (.fN, .popReport)
  | _ => none

/-- Decoding a word written to CMD, in the order of 30_encoding R100: the opcode, then the reserved bits. -/
def decodeCommand (w : Word) : Except DecodeError Instr :=
  match opcodeRow w with
  | none => .error .reservedOpcode
  | some (fmt, i) =>
    if (w &&& 0x00FFFFFF) &&& ~~~fmt.fieldMask = 0 then .ok i else .error .reservedBits

/-- Decoding a word of the capture lane's microcode (30_encoding R108, where the encoding is PRESUMED
from general knowledge; log 15). -/
def decodeLane (w : BitVec 16) : Except DecodeError Instr :=
  if w &&& 0xFF60 = 0x2000 then .ok (.waitGpio (w.getLsbD 7) (w.extractLsb' 0 5).toNat)
  else if w &&& 0xFFE0 = 0x4000 then .ok (.inPins (w.extractLsb' 0 5).toNat)
  else .error .notLaneWord

/-- An instruction word in the place it stands: the CMD port, or the capture lane's instruction stream. -/
inductive InstrWord where
  | command (w : Word)
  | lane (w : BitVec 16)
  deriving DecidableEq, Repr

/-- Decoding is total: every word of either kind is an instruction or is rejected by name (30_encoding R105). -/
def decode : InstrWord → Except DecodeError Instr
  | .command w => decodeCommand w
  | .lane w => decodeLane w

/-- A bit as a number. -/
def bit (b : Bool) : Nat := if b then 1 else 0

/-- The word of an instruction, from the expansions of 30_encoding R109 and the lane words of R108. -/
def encode : Instr → InstrWord
  | .calcDiv us => .command (0x01000000 ||| BitVec.ofNat 32 (bit us))
  | .cfgCapture base count => .command (0x02000000 ||| BitVec.ofNat 32 count <<< 5 ||| BitVec.ofNat 32 base)
  | .runCapture pin pol => .command (0x03000000 ||| BitVec.ofNat 32 (bit pol) <<< 5 ||| BitVec.ofNat 32 pin)
  | .releaseCapture => .command 0x04000000
  | .reconstruct count => .command (0x05000000 ||| BitVec.ofNat 32 count <<< 5)
  | .initDecoder pin => .command (0x06000000 ||| BitVec.ofNat 32 pin)
  | .deinitDecoder => .command 0x07000000
  | .pollFrame => .command 0x08000000
  | .decode => .command 0x09000000
  | .setNotify en => .command (0x0A000000 ||| BitVec.ofNat 32 (bit en))
  | .popReport => .command 0x0B000000
  | .waitGpio pol gpio => .lane (0x2000 ||| BitVec.ofNat 16 (bit pol) <<< 7 ||| BitVec.ofNat 16 gpio)
  | .inPins bitCount => .lane (0x4000 ||| BitVec.ofNat 16 bitCount)

/-- The instruction the decoder reads from a word of the opcode table: rows of 32 bits are command words, rows of
16 bits are lane words, and the block has no other instruction. -/
def decodeTableWord (nbits w : Nat) : Option Instr :=
  if 2 ^ nbits ≤ w then none
  else if nbits = 32 then (decodeCommand (BitVec.ofNat 32 w)).toOption
  else if nbits = 16 then (decodeLane (BitVec.ofNat 16 w)).toOption
  else none

end Sys2Proof
end

