-- ==== Sys2Proof/Machine/Input.lean ====
section
/-! DEFINITION. What the agents bring to the block: the host's access record (30_encoding R111) and the events of the
six agents (00_scope R8), with the environment's draws as their data. -/

namespace Sys2Proof.Machine

/-- The two kinds of a host access (30_encoding R111). -/
inductive AccessKind where
  | read | write
  deriving DecidableEq, Repr, Inhabited

/-- A host access: kind, offset relative to BLOCK_BASE, size in bytes, and the data of a write (30_encoding R111). -/
structure Access where
  kind   : AccessKind
  offset : Word
  size   : Nat
  data   : Word
  deriving DecidableEq, Repr, Inhabited

/-- One step of one agent (00_scope R8), with what the environment draws for it. -/
inductive Event where
  /-- HOST: one access of the host port. -/
  | host (a : Access)
  /-- LANE_C: the lane executes its current instruction while the pins stand at `levels` (bit p is pin p). With
  WAIT_GPIO pending this is the TRIGGER step, in the sample loop it is a SAMPLE step (41_capture R160, R161). -/
  | lane (levels : Word)
  /-- XFER: the bulk mover (41_capture R170). -/
  | xfer
  /-- LANE_D: the FRAME step, with the drawn frame (43_decoder R218). -/
  | frame (f : Word)
  /-- NOTIFY: the LATCH step (44_notification R243). -/
  | latch
  /-- NOTIFY: the HANDLE step (44_notification R244). -/
  | handle
  /-- RESET: with the draws the buffers take, as (offset, byte) pairs (70_reset_and_hazards R300). -/
  | reset (draws : List Host.Cell)
  deriving DecidableEq, Repr, Inhabited

end Sys2Proof.Machine
end

