-- ==== Sys2Proof/Config.lean ====
section
/-! DEFINITION. What an implementation fixes: the parameters of 00_scope R4 as plain data, and the free values of the
model, opaque constants without a body. -/

namespace Sys2Proof

/-- A pad pull setting, the range of DEC_PULL (00_scope R4). -/
inductive Pull where
  | none | up | down | unchanged
  deriving DecidableEq, Repr, Inhabited

/-- What REPEAT_FN answers for a frame (43_decoder R215). -/
inductive RepeatField where
  | absent
  | present (x : Byte)
  | invalid
  deriving DecidableEq, Repr, Inhabited

/-- The parameter REPEAT_FN as plain data (43_decoder R215, 92_eei_decisions D3): what it answers at the frames listed, the
first entry of a frame counting, and absent at every other. A frame has 32 bits, so every function is some list; the
spec's default, constant absent, is the empty one. DESIGN CHOICE (log 11). -/
abbrev RepeatFn := List (Word × RepeatField)

/-- The parameters of the block (00_scope R4), constant during a run (70_reset_and_hazards R303). `baseClockHz = 0`
stands for a platform that has not fixed the base clock. DIV_QUANT is `Config.divQuant`. -/
structure Params where
  /-- BLOCK_BASE -/
  blockBase : Word
  /-- BASE_CLOCK_HZ -/
  baseClockHz : Nat
  /-- N_PINS -/
  nPins : Nat
  /-- N_LANES -/
  nLanes : Nat
  /-- N_PROG_SLOTS -/
  nProgSlots : Nat
  /-- N_XFER -/
  nXfer : Nat
  /-- N_IRQ -/
  nIrq : Nat
  /-- EXT_HELD_LANE -/
  extHeldLane : List Nat
  /-- EXT_HELD_PROG -/
  extHeldProg : List Nat
  /-- EXT_HELD_XFER -/
  extHeldXfer : List Nat
  /-- EXT_HELD_IRQ -/
  extHeldIrq : List Nat
  /-- CAPBUF_WORDS -/
  capbufWords : Nat
  /-- RXC_DEPTH -/
  rxcDepth : Nat
  /-- RXD_DEPTH -/
  rxdDepth : Nat
  /-- REPORT_DEPTH -/
  reportDepth : Nat
  /-- DIV_MAX, a binary32 pattern -/
  divMax : Word
  /-- REPEAT_FN -/
  repeatFn : RepeatFn
  /-- DEC_PULL -/
  decPull : Pull
  deriving DecidableEq, Repr

/-- Every parameter lies in the range that 00_scope R4 gives it. DIV_MAX is a finite binary32 value of at least 1.0
(DEDUCED: 41_capture R142 says both infinities are rejected; log 13). A premise, enforced by no step (log 20). -/
def Params.wf (p : Params) : Bool :=
  p.blockBase.toNat % 4096 == 0 && 1 ≤ p.baseClockHz && 1 ≤ p.nPins && p.nPins ≤ 32 &&
  1 ≤ p.nLanes && 1 ≤ p.nProgSlots && 1 ≤ p.nXfer && 1 ≤ p.nIrq &&
  1 ≤ p.capbufWords && p.capbufWords ≤ 1024 && 1 ≤ p.rxcDepth && p.rxcDepth ≤ 15 &&
  1 ≤ p.rxdDepth && p.rxdDepth ≤ 15 && 1 ≤ p.reportDepth && p.reportDepth ≤ 15 &&
  0x3F800000 ≤ p.divMax.toNat && p.divMax.toNat < 0x7F800000

/-- The free values from which `Config.launch` is made: each is an OPEN parameter of 00_scope R4, without a body. -/
opaque Config.blockPage : BitVec 20
opaque Config.baseClockPred : Nat
opaque Config.nPinsPred : Fin 32
opaque Config.nLanesPred : Nat
opaque Config.nProgSlotsPred : Nat
opaque Config.nXferPred : Nat
opaque Config.nIrqPred : Nat
opaque Config.extHeldLane : List Nat
opaque Config.extHeldProg : List Nat
opaque Config.extHeldXfer : List Nat
opaque Config.extHeldIrq : List Nat
opaque Config.capbufWordsPred : Fin 1024
opaque Config.rxcDepthPred : Fin 15
opaque Config.rxdDepthPred : Fin 15
opaque Config.reportDepthPred : Fin 15
opaque Config.divMaxAboveOne : Fin 0x40000000
opaque Config.decPull : Pull

/-- The parameters of the machine that `State.reset` launches: every OPEN parameter is a free value within its range,
and REPEAT_FN has the value the spec gives as its default (00_scope R4; log 3). -/
def Config.launch : Params where
  blockBase := Config.blockPage ++ 0#12
  baseClockHz := Config.baseClockPred + 1
  nPins := Config.nPinsPred.val + 1
  nLanes := Config.nLanesPred + 1
  nProgSlots := Config.nProgSlotsPred + 1
  nXfer := Config.nXferPred + 1
  nIrq := Config.nIrqPred + 1
  extHeldLane := Config.extHeldLane
  extHeldProg := Config.extHeldProg
  extHeldXfer := Config.extHeldXfer
  extHeldIrq := Config.extHeldIrq
  capbufWords := Config.capbufWordsPred.val + 1
  rxcDepth := Config.rxcDepthPred.val + 1
  rxdDepth := Config.rxdDepthPred.val + 1
  reportDepth := Config.reportDepthPred.val + 1
  divMax := BitVec.ofNat 32 (0x3F800000 + Config.divMaxAboveOne.val)
  repeatFn := []
  decPull := Config.decPull

/-- The draws the buffers hold in `State.reset`: free, one byte per offset listed (10_state R44). -/
opaque Config.launchDraws : List Host.Cell

/-- The event an agent takes when no event is scheduled, one for each value of the state's draw counter: which agent
steps, and with which draws, is free (20_memory R80). -/
opaque Config.freeEvent : Nat → Machine.Event

/-- DIV_QUANT: the lane setting for a divider; free, and read by no rule (00_scope R4, 92_eei_decisions D43;
log 12). -/
opaque Config.divQuant : Word → Nat

end Sys2Proof
end

