-- ==== Sys2Proof/Machine/Memory.lean ====
section
/-! DEFINITION. The two buffers of the block as (offset, byte) cells in one canonical form: offsets strictly rising, no
listed byte zero. An offset that is not listed reads as zero: this is how cells are written down, not what an unwritten
word holds, which is the draw a state's cells list (10_state R44; log 4). -/

namespace Sys2Proof.Machine

/-- The bytes of CAPBUF and PLANEBUF, keyed by their offset from BLOCK_BASE. -/
abbrev Mem := List Host.Cell

/-- What an offset that no cell lists reads as. -/
def Mem.unlisted : Byte := 0

/-- The byte at offset `a`. -/
def Mem.byte : Mem → Nat → Byte
  | [], _ => Mem.unlisted
  | (k, b) :: m, a => if a = k then b else Mem.byte m a

/-- The cells without the one at offset `a`. -/
def Mem.erase (m : Mem) (a : Nat) : Mem := m.filter (fun c => c.1 != a)

/-- A cell put before the first one with a higher offset. -/
def Mem.insert : Mem → Nat → Byte → Mem
  | [], a, b => [(a, b)]
  | (k, c) :: m, a, b => if a < k then (a, b) :: (k, c) :: m else (k, c) :: Mem.insert m a b

/-- Writing a byte; writing what an unlisted offset reads as removes the cell. -/
def Mem.setByte (m : Mem) (a : Nat) (b : Byte) : Mem :=
  if b = Mem.unlisted then Mem.erase m a else Mem.insert (Mem.erase m a) a b

/-- The 32-bit word whose lowest byte stands at offset `a`. The order of its bytes never shows: every access is a whole
word (20_memory R71). DESIGN CHOICE (log 5): lowest byte first. -/
def Mem.word (m : Mem) (a : Nat) : Word :=
  Mem.byte m (a + 3) ++ Mem.byte m (a + 2) ++ Mem.byte m (a + 1) ++ Mem.byte m a

/-- Writing a 32-bit word at offset `a`. -/
def Mem.setWord (m : Mem) (a : Nat) (w : Word) : Mem :=
  Mem.setByte (Mem.setByte (Mem.setByte (Mem.setByte m a (w.extractLsb' 0 8)) (a + 1) (w.extractLsb' 8 8))
    (a + 2) (w.extractLsb' 16 8)) (a + 3) (w.extractLsb' 24 8)

/-- The offset of CAPBUF word `i` (10_state R22). -/
def capOffset (i : Nat) : Nat := 0x1000 + 4 * i

/-- The offset of PLANEBUF word `i` (10_state R22). -/
def planeOffset (i : Nat) : Nat := 0x2000 + 4 * i

/-- An offset that some word of the buffers covers, for buffers of `n` words (20_memory R70, R73). -/
def isBufferOffset (n a : Nat) : Bool :=
  (capOffset 0 ≤ a && a < capOffset n) || (planeOffset 0 ≤ a && a < planeOffset n)

/-- Offsets strictly rising. -/
def Mem.rising : Mem → Bool
  | [] => true
  | [_] => true
  | (a, _) :: (b, c) :: m => a < b && Mem.rising ((b, c) :: m)

/-- The canonical form, for buffers of `n` words: offsets strictly rising, every listed byte differs from what an
unlisted offset reads as, and only bytes that exist are listed. -/
def Mem.wf (n : Nat) (m : Mem) : Bool :=
  Mem.rising m && m.all (fun c => c.2 != Mem.unlisted && isBufferOffset n c.1)

/-- The buffers holding the draws listed (10_state R44: one draw per word, stable until written); a draw for an offset
outside the buffers has no place. -/
def Mem.ofDraws (n : Nat) : List Host.Cell → Mem
  | [] => []
  | (a, b) :: ds => if isBufferOffset n a then Mem.setByte (Mem.ofDraws n ds) a b else Mem.ofDraws n ds

end Sys2Proof.Machine
end

