-- ==== Sys2Proof/Machine/State.lean ====
section
/-! DEFINITION. The state of the block (10_state), the reasons a step can stop, and the state after reset
(70_reset_and_hazards R300). -/

namespace Sys2Proof.Machine

/-- The sequencer's states (10_state R36). -/
inductive CsState where
  | idle | configuring | armed | transferring | complete | released
  deriving DecidableEq, Repr

/-- The capture lane's phases (10_state R38). -/
inductive LcPhase where
  | off | wait | run
  deriving DecidableEq, Repr

/-- Who has claimed a pin (10_state R41). -/
inductive PinOwner where
  | none | capture | decoder
  deriving DecidableEq, Repr

/-- How a pin's pad is configured (10_state R42); `default` is a name only (log 21). -/
inductive PadConfig where
  | default | captureInput | decoderInput
  deriving DecidableEq, Repr

/-- The outcome of decoding a frame (43_decoder R215), and the code of a report (10_state R43). -/
inductive FrameCode where
  | ok | malformed
  deriving DecidableEq, Repr

/-- A report of the notification handler (10_state R43); `fields` has the DATA1 layout of 10_state R29. -/
structure Report where
  raw    : Word
  code   : FrameCode
  fields : Word
  deriving DecidableEq, Repr

/-- The capture session: the sequencer's state (10_state R36) and the session record (R37). -/
structure CaptureSession where
  /-- st.cs_state -/
  state : CsState
  /-- st.cs_pin_base -/
  pinBase : BitVec 5
  /-- st.cs_pin_count -/
  pinCount : BitVec 6
  /-- st.cs_div -/
  div : Word
  /-- st.cs_trig_pin -/
  trigPin : BitVec 5
  /-- st.cs_trig_pol, true high -/
  trigPol : Bool
  /-- st.cs_lane -/
  lane : Option Nat
  /-- st.cs_prog -/
  prog : Option Nat
  /-- st.cs_xfer -/
  xfer : Option Nat
  /-- st.cs_cap -/
  cap : Nat
  /-- st.cs_idx -/
  idx : Nat
  /-- st.trig_seen -/
  trigSeen : Bool
  deriving DecidableEq, Repr

/-- The capture lane's micro-state (10_state R38). -/
structure CaptureLane where
  /-- st.lc_phase -/
  phase : LcPhase
  /-- st.lc_isr -/
  isr : Word
  /-- st.lc_cnt -/
  cnt : Nat
  /-- st.rxc, head first -/
  rxc : List Word
  deriving DecidableEq, Repr

/-- The decoder's state (10_state R39). -/
structure DecoderSession where
  /-- st.dec_active -/
  active : Bool
  /-- st.dec_pin -/
  pin : BitVec 5
  /-- st.dec_lane -/
  lane : Option Nat
  /-- st.dec_prog -/
  prog : Option Nat
  /-- st.rxd, head first -/
  rxd : List Word
  deriving DecidableEq, Repr

/-- The held sets of the four pools (10_state R40), each a rising list (log 18). -/
structure Held where
  /-- st.held_LANE -/
  lane : List Nat
  /-- st.held_PROG -/
  prog : List Nat
  /-- st.held_XFER -/
  xfer : List Nat
  /-- st.held_IRQ -/
  irq : List Nat
  deriving DecidableEq, Repr

/-- The notification state (10_state R43). -/
structure Notification where
  /-- st.notify_en -/
  en : Bool
  /-- st.irq_line -/
  line : Option Nat
  /-- st.irq_pending -/
  pending : Bool
  /-- st.rpt, head first -/
  rpt : List Report
  /-- st.rpt_ovf -/
  ovf : Bool
  deriving DecidableEq, Repr

/-- What is recorded of a buffer's contents (10_state R44): valid, words, pin count. -/
structure BufferInfo where
  valid    : Bool
  words    : Nat
  pinCount : BitVec 6
  deriving DecidableEq, Repr

/-- NECCAP's state, in the groups of 10_state. The parameters stand first, the model's own fields last (`pins`,
`readData`, `sched`, `drawIx`); every other field is a register or a state element of the spec. -/
@[ext]
structure State where
  /-- The parameters of 00_scope R4, constant during a run. -/
  params : Params
  /-- ARG0 (R24) -/
  arg0 : Word
  /-- RESULT (R26) -/
  result : Word
  /-- DATA0 (R28) -/
  data0 : Word
  /-- DATA1 (R29) -/
  data1 : Word
  /-- The capture session (R36, R37). -/
  cs : CaptureSession
  /-- The capture lane (R38). -/
  lc : CaptureLane
  /-- The decoder (R39). -/
  dec : DecoderSession
  /-- The pools (R40). -/
  held : Held
  /-- st.pin_owner (R41); pins from N_PINS on do not exist and stay `none` (log 18). -/
  pinOwner : Vector PinOwner 32
  /-- st.pad (R42) -/
  pad : Vector PadConfig 32
  /-- The notification channel (R43). -/
  nt : Notification
  /-- st.capbuf and st.planebuf (R44) -/
  mem : Mem
  /-- st.buf_valid, st.buf_words, st.buf_pin_count (R44) -/
  buf : BufferInfo
  /-- st.plane_valid, st.plane_words, st.plane_pin_count (R44) -/
  plane : BufferInfo
  /-- st.fault (R45) -/
  fault : Bool
  /-- st.fault_code (R45) -/
  faultCode : BitVec 4
  /-- The model's own: the levels of the pin inputs in the lane step in progress (20_memory R70 (d)); log 6. -/
  pins : Word
  /-- The model's own: the word the host's last read returned; log 8. -/
  readData : Word
  /-- The model's own: the events that come next, oldest first; log 1. -/
  sched : List Event
  /-- The model's own: how many free events have been drawn; log 1. -/
  drawIx : Nat
  deriving DecidableEq, Repr

/-- The reasons the machine stops with a fault: none. NECCAP's faults are sticky state that host reads still reach
(60_exceptions R271, R273), so raising one gives a next state; log 9. -/
inductive Fault where
  deriving DecidableEq, Repr

/-- The reasons a step has no meaning. -/
inductive Refusal where
  /-- Raised by `exec` for an instruction that has no meaning yet. Safe. -/
  | notModelled (mnemonic : String)
  /-- Raised when a command is issued before the platform has fixed BASE_CLOCK_HZ, which is "outside what the model
  describes" (70_reset_and_hazards R303; 93_implementation_defined, part 1: refuse). Safe. -/
  | clockNotFixed
  deriving DecidableEq, Repr

/-- The state of 70_reset_and_hazards R300 for a block with parameters `p` whose buffers hold the draws listed: the
premise CLEAN_ENTRY of R313. -/
def State.cleanEntry (p : Params) (draws : List Host.Cell) : State where
  params := p
  arg0 := 0
  result := 0
  data0 := 0
  data1 := 0
  cs :=
    { state := .idle, pinBase := 0, pinCount := 0, div := 0, trigPin := 0, trigPol := false, lane := none, prog := none
      xfer := none, cap := 0, idx := 0, trigSeen := false }
  lc := { phase := .off, isr := 0, cnt := 0, rxc := [] }
  dec := { active := false, pin := 0, lane := none, prog := none, rxd := [] }
  held := { lane := [], prog := [], xfer := [], irq := [] }
  pinOwner := Vector.replicate 32 .none
  pad := Vector.replicate 32 .default
  nt := { en := false, line := none, pending := false, rpt := [], ovf := false }
  mem := Mem.ofDraws p.capbufWords draws
  buf := { valid := false, words := 0, pinCount := 0 }
  plane := { valid := false, words := 0, pinCount := 0 }
  fault := false
  faultCode := 0
  pins := 0
  readData := 0
  sched := []
  drawIx := 0

/-- The machine right after reset: the OPEN parameters and the buffers' draws are free values (logs 3 and 4). -/
def State.reset : State := State.cleanEntry Config.launch Config.launchDraws

end Sys2Proof.Machine
end

