-- ==== Sys2Proof/Machine/Flags.lean ====
section
/-! DEFINITION. The words the host reads: the layouts of RESULT, DATA1 and STATUS and the read-only views of the internal
state (10_state R25 to R35), and the host output irq_out (44_notification R246). -/

namespace Sys2Proof.Machine

/-- RESULT.CODE (60_exceptions R270). -/
inductive ResultCode where
  | ok | resourceExhausted | invalidConfiguration | malformedFrame
  deriving DecidableEq, Repr

/-- The 4-bit code of a result (60_exceptions R270). -/
def ResultCode.bits : ResultCode → BitVec 4
  | .ok => 0
  | .resourceExhausted => 1
  | .invalidConfiguration => 2
  | .malformedFrame => 3

/-- The flags a command gives to result() (10_state R26, R27). -/
structure ResultFlags where
  present : Bool := false
  clamped : Bool := false
  deriving DecidableEq, Repr

/-- The fault codes of 60_exceptions R272. -/
inductive FaultKind where
  | illegalCommand | noSession | noDecoder | doubleEnable | notifyStillEnabled | irqExhausted | busyViolation | busError
  deriving DecidableEq, Repr

/-- STATUS.FAULT_CODE of a fault (60_exceptions R272). -/
def FaultKind.bits : FaultKind → BitVec 4
  | .illegalCommand => 1
  | .noSession => 2
  | .noDecoder => 3
  | .doubleEnable => 4
  | .notifyStillEnabled => 5
  | .irqExhausted => 6
  | .busyViolation => 7
  | .busError => 8

/-- The encoding of st.cs_state (10_state R36). -/
def CsState.bits : CsState → BitVec 3
  | .idle => 0
  | .configuring => 1
  | .armed => 2
  | .transferring => 3
  | .complete => 4
  | .released => 5

/-- The RESULT word that result() writes (10_state R26, R27). -/
def resultWord (opc : BitVec 8) (code : ResultCode) (flags : ResultFlags) : Word :=
  0#16 ++ opc ++ 0#2 ++ BitVec.ofBool flags.present ++ BitVec.ofBool flags.clamped ++ code.bits

/-- The DATA1 layout of a decoded frame (10_state R29), with VALID = 1. -/
def frameFields (address data : Byte) (rep : Byte) (repeatPresent : Bool) : Word :=
  0#6 ++ BitVec.ofBool repeatPresent ++ 1#1 ++ rep ++ data ++ address

/-- STATUS.BUSY: st.cs_state is Armed or Transferring (10_state R25). -/
def State.busy (s : State) : Bool := s.cs.state == .armed || s.cs.state == .transferring

/-- STATUS (10_state R25), computed at the read. -/
def State.status (s : State) : Word :=
  0#4 ++ BitVec.ofNat 4 s.lc.rxc.length ++ BitVec.ofNat 4 s.nt.rpt.length ++ BitVec.ofNat 4 s.dec.rxd.length ++ s.faultCode ++
  BitVec.ofBool s.fault ++ BitVec.ofBool s.nt.ovf ++ BitVec.ofBool s.nt.pending ++ BitVec.ofBool s.nt.en ++
  BitVec.ofBool s.dec.active ++ BitVec.ofBool s.plane.valid ++ BitVec.ofBool s.buf.valid ++ BitVec.ofBool s.cs.trigSeen ++
  s.cs.state.bits ++ BitVec.ofBool s.busy

/-- CS_CFG (10_state R30). -/
def State.csCfg (s : State) : Word :=
  0#15 ++ BitVec.ofBool s.cs.trigPol ++ s.cs.trigPin ++ s.cs.pinCount ++ s.cs.pinBase

/-- CS_PROGRESS (10_state R32): WORDS_DONE in [15:0], CAPACITY in [31:16]. -/
def State.csProgress (s : State) : Word := BitVec.ofNat 16 s.cs.cap ++ BitVec.ofNat 16 s.cs.idx

/-- DEC_CFG (10_state R33). -/
def State.decCfg (s : State) : Word := 0#27 ++ s.dec.pin

/-- BUF_INFO (10_state R34). -/
def State.bufInfo (s : State) : Word := 0#10 ++ s.buf.pinCount ++ BitVec.ofNat 16 s.buf.words

/-- PLANE_INFO (10_state R35). -/
def State.planeInfo (s : State) : Word := 0#10 ++ s.plane.pinCount ++ BitVec.ofNat 16 s.plane.words

/-- The host output irq_out (44_notification R246). -/
def State.irqOut (s : State) : Bool := s.nt.en && !s.nt.rpt.isEmpty

/-- The pull setting of a pad as NECCAP has configured it: disabled on capture pins (41_capture R144), DEC_PULL on the
decoder pin (10_state R42), and the platform's own, which no source gives, on a pin never configured. -/
def State.padPull (s : State) (q : Fin 32) : Option Pull :=
  match s.pad[q] with
  | .default => none
  | .captureInput => some .none
  | .decoderInput => some s.params.decPull

/-- The lane setting for the session's divider, DIV_QUANT(st.cs_div): an output no rule reads (41_capture R144). -/
def State.laneSetting (s : State) : Nat := Config.divQuant s.cs.div

end Sys2Proof.Machine
end

