-- ==== Sys2Proof/Machine/Operands.lean ====
section
/-! DEFINITION. The operand forms: what ARG0 means to each command (30_encoding R104), the domains of the pin operands,
the locations of the host port (10_state R22), the frame fields (43_decoder R213) and the functions the commands compute
(the divider, the frame decoder, the plane function). -/

namespace Sys2Proof.Machine

/-- The pin_count domain (00_scope R5). -/
def pinCountLegal (n : Nat) : Bool := n = 1 || n = 2 || n = 4 || n = 8 || n = 16 || n = 32

/-- ARG0 as an unsigned number: a period or a word count (30_encoding R104). -/
def State.argCount (s : State) : Nat := s.arg0.toNat

/-- CFG_CAPTURE's divider check (41_capture R142): rejected if NaN, below 1.0 or above DIV_MAX. -/
def dividerRejected (p : Params) (dv : Word) : Bool :=
  f32Value dv == .nan || (f32Value dv).lt (f32Value f32One) || (f32Value p.divMax).lt (f32Value dv)

/-- CALC_DIV's value (40_divider R131): the binary32 pattern of the divider, and CLAMPED. `num / den` is
`BASE_CLOCK_HZ * p1 * scale` exactly. -/
def dividerOf (baseClockHz : Nat) (us : Bool) (p : Nat) : Word × Bool :=
  let p1 := if p = 0 then 1 else p
  let num := baseClockHz * p1
  let den := if us then 1000000 else 1000000000
  let below := num < den
  (if below then rne32 1 1 else rne32 num den, p = 0 || below)

/-- The host-visible registers (10_state R22). -/
inductive Register where
  | cmd | arg0 | status | result | data0 | data1 | csCfg | csDiv | csProgress | decCfg | bufInfo | planeInfo
  deriving DecidableEq, Repr

/-- A location of the host port: a register, or a word of one of the two windows. -/
inductive Location where
  | register (r : Register)
  | capbuf (i : Nat)
  | planebuf (i : Nat)
  deriving DecidableEq, Repr

/-- The register at a word-aligned offset (10_state R22). -/
def registerAt : Nat → Option Register
  | 0x000 => some .cmd
  | 0x004 => some .arg0
  | 0x008 => some .status
  | 0x00C => some .result
  | 0x010 => some .data0
  | 0x014 => some .data1
  | 0x018 => some .csCfg
  | 0x01C => some .csDiv
  | 0x020 => some .csProgress
  | 0x024 => some .decCfg
  | 0x028 => some .bufInfo
  | 0x02C => some .planeInfo
  | _ => none

/-- The location at an offset, none where it is unmapped (10_state R22, 20_memory R73). -/
def locationAt (capbufWords off : Nat) : Option Location :=
  if off < 0x1000 then (registerAt off).map .register
  else if off < 0x2000 then
    (if (off - 0x1000) / 4 < capbufWords then some (.capbuf ((off - 0x1000) / 4)) else none)
  else if off < 0x3000 then
    (if (off - 0x2000) / 4 < capbufWords then some (.planebuf ((off - 0x2000) / 4)) else none)
  else none

/-- The location a host access reaches; none raises BUS_ERROR. Width and alignment come first, then the mapping
(20_memory R72, R73; 60_exceptions R274). -/
def Access.location (p : Params) (a : Access) : Option Location :=
  if a.size = 4 && a.offset.toNat % 4 = 0 then locationAt p.capbufWords a.offset.toNat else none

/-- The offset of a host address within the block's window (20_memory R87): the address less BLOCK_BASE. DESIGN CHOICE
(log 22): every access the block is given counts as within its decode range. DESIGN CHOICE (log 25): the subtraction is of
32 bits, so a window that passes the top of the address space goes on from address 0. -/
def offsetOf (p : Params) (address : Word) : Word := address - p.blockBase

/-- MemRead(addr, size) as the host access it is (00_scope R7, 30_encoding R111). -/
def memRead (p : Params) (address : Word) (size : Nat) : Access :=
  { kind := .read, offset := offsetOf p address, size := size, data := 0 }

/-- MemWrite(addr, size, v) as the host access it is (00_scope R7, 30_encoding R111). -/
def memWrite (p : Params) (address : Word) (size : Nat) (v : Word) : Access :=
  { kind := .write, offset := offsetOf p address, size := size, data := v }

/-- The address byte of a raw frame, r[7:0] (43_decoder R213). -/
def frameAddress (r : Word) : Byte := r.extractLsb' 0 8
/-- r[15:8] (43_decoder R213). -/
def frameInvAddress (r : Word) : Byte := r.extractLsb' 8 8
/-- The data byte, r[23:16] (43_decoder R213). -/
def frameData (r : Word) : Byte := r.extractLsb' 16 8
/-- r[31:24] (43_decoder R213). -/
def frameInvData (r : Word) : Byte := r.extractLsb' 24 8

/-- VALID (43_decoder R214). -/
def frameValid (r : Word) : Bool :=
  frameInvAddress r == frameAddress r ^^^ 0xFF && frameInvData r == frameData r ^^^ 0xFF

/-- A REPEAT_FN at a frame (43_decoder R215; log 11). -/
def repeatAt : RepeatFn → Word → RepeatField
  | [], _ => .absent
  | (frame, answer) :: fn, r => if r = frame then answer else repeatAt fn r

/-- REPEAT_FN at a frame (43_decoder R215). -/
def repeatOf (p : Params) (r : Word) : RepeatField := repeatAt p.repeatFn r

/-- DecodeFn and FIELDS (43_decoder R215): the code, and the fields in the DATA1 layout, 0 for a malformed frame. -/
def decodeFrame (p : Params) (r : Word) : FrameCode × Word :=
  if frameValid r then
    match repeatOf p r with
    | .invalid => (.malformed, 0)
    | .absent => (.ok, frameFields (frameAddress r) (frameData r) 0 false)
    | .present x => (.ok, frameFields (frameAddress r) (frameData r) x true)
  else (.malformed, 0)

/-- The result code of a decoded frame (43_decoder R216, 44_notification R245). -/
def FrameCode.result : FrameCode → ResultCode
  | .ok => .ok
  | .malformed => .malformedFrame

/-- ENCODE, the frame of an address and a data byte: a law for testing, not a command (43_decoder R219). -/
def encodeFrame (a d : Byte) : Word := (d ^^^ 0xFF) ++ d ++ (a ^^^ 0xFF) ++ a

/-- PLANE(buf, n, p, k) (42_reconstruct R190). -/
def planeBit (buf : Nat → Word) (n p k : Nat) : Bool := (buf (k / (32 / n))).getLsbD ((p + k * n) % 32)

/-- Word `m` of the packed sequences of `N` words at `n` pins (42_reconstruct R193): its bit `t` is bit `b = 32 m + t` of
the `n` sequences laid end to end, element `b mod L` of pin `b div L`. -/
def planeWord (buf : Nat → Word) (n N m : Nat) : Word :=
  BitVec.ofFnLE (fun t : Fin 32 =>
    let L := N * 32 / n
    let b := 32 * m + t.val
    planeBit buf n (b / L) (b % L))

/-- The merge threshold T(n) (41_capture R162). -/
def mergeThreshold (n : Nat) : Nat := 32 - 32 % n

/-- How many pins IN_PINS samples: its bit count, 0 standing for 32 (30_encoding R108; PRESUMED, log 15). -/
def sampleWidth (bitCount : Nat) : Nat := if bitCount = 0 then 32 else bitCount

/-- The sample v of the pins base .. base+n-1, v[i] the level of pin base+i (41_capture R161). -/
def sampleOf (levels : Word) (base n : Nat) : Word :=
  (levels >>> base) &&& BitVec.ofNat 32 (2 ^ n - 1)

end Sys2Proof.Machine
end

