-- ==== Sys2Proof/Machine/Ops.lean ====
section
/-! DEFINITION. The shared operations: raising a fault, result(), the gate every command passes, the pools, the pin
claims, the buffers, and releasing a capture session. -/

namespace Sys2Proof.Machine

/-! The groups of the state replaced, one operation a group. -/

/-- ARG0 written (10_state R24). -/
def State.setArg0 (s : State) (w : Word) : State := { s with arg0 := w }
/-- The session record written (10_state R36, R37). -/
def State.setCs (s : State) (c : CaptureSession) : State := { s with cs := c }
/-- The lane's micro-state written (10_state R38). -/
def State.setLc (s : State) (l : CaptureLane) : State := { s with lc := l }
/-- The decoder's state written (10_state R39). -/
def State.setDec (s : State) (d : DecoderSession) : State := { s with dec := d }
/-- The held sets written (10_state R40). -/
def State.setHeld (s : State) (h : Held) : State := { s with held := h }
/-- st.pin_owner written (10_state R41). -/
def State.setPinOwner (s : State) (m : Vector PinOwner 32) : State := { s with pinOwner := m }
/-- st.pad written (10_state R42). -/
def State.setPad (s : State) (m : Vector PadConfig 32) : State := { s with pad := m }
/-- The notification state written (10_state R43). -/
def State.setNt (s : State) (n : Notification) : State := { s with nt := n }
/-- The buffers' memory written (10_state R44). -/
def State.setMem (s : State) (m : Mem) : State := { s with mem := m }
/-- What is recorded of the capture buffer, written (10_state R44). -/
def State.setBuf (s : State) (b : BufferInfo) : State := { s with buf := b }
/-- What is recorded of the plane buffer, written (10_state R44). -/
def State.setPlane (s : State) (b : BufferInfo) : State := { s with plane := b }
/-- The pin inputs at `levels` (20_memory R70 (d)). -/
def State.setPins (s : State) (levels : Word) : State := { s with pins := levels }
/-- The word a host read returns. -/
def State.setReadData (s : State) (w : Word) : State := { s with readData := w }

/-- `raise Fault(code)` (60_exceptions R271): the first fault sets the sticky fault and its code, a later one changes
nothing. Nothing else is recorded. This is the whole of taking an exception here; only reset returns from it (R278). -/
def State.raise (s : State) (k : FaultKind) : State :=
  if s.fault then s else { s with fault := true, faultCode := k.bits }

/-- `result(code, flags, d0, d1)` (10_state R27), with the opcode of the command that executes it. -/
def State.putResult (s : State) (opc : BitVec 8) (code : ResultCode) (flags : ResultFlags) (d0 d1 : Word) : State :=
  { s with result := resultWord opc code flags, data0 := d0, data1 := d1 }

/-- A command that ends with a result code and no other effect: result(code, 0, 0, 0). -/
def State.plainResult (s : State) (opc : BitVec 8) (code : ResultCode) : State := s.putResult opc code {} 0 0

/-- The checks before a command's own (30_encoding R100, 60_exceptions R274): while a fault is set the write is ignored,
while BUSY it raises BUSY_VIOLATION, otherwise the command runs. -/
def State.gated (s : State) (command : State → State) : State :=
  if s.fault then s else if s.busy then s.raise .busyViolation else command s

/-- The four resource pools (10_state R40). -/
inductive Pool where
  | lane | prog | xfer | irq
  deriving DecidableEq, Repr

/-- The number of indices of a pool (10_state R40). -/
def poolSize (p : Params) : Pool → Nat
  | .lane => p.nLanes
  | .prog => p.nProgSlots
  | .xfer => p.nXfer
  | .irq => p.nIrq

/-- EXT_HELD_P (00_scope R4). -/
def extHeld (p : Params) : Pool → List Nat
  | .lane => p.extHeldLane
  | .prog => p.extHeldProg
  | .xfer => p.extHeldXfer
  | .irq => p.extHeldIrq

/-- st.held_P (10_state R40). -/
def State.heldIn (s : State) : Pool → List Nat
  | .lane => s.held.lane
  | .prog => s.held.prog
  | .xfer => s.held.xfer
  | .irq => s.held.irq

/-- st.held_P replaced. -/
def Held.set (h : Held) (pool : Pool) (l : List Nat) : Held :=
  match pool with
  | .lane => { h with lane := l }
  | .prog => { h with prog := l }
  | .xfer => { h with xfer := l }
  | .irq => { h with irq := l }

/-- Index `i` of a pool is free: in the pool, and in neither st.held_P nor EXT_HELD_P (10_state R40). -/
def State.isFree (s : State) (pool : Pool) (i : Nat) : Bool :=
  i < poolSize s.params pool && !(s.heldIn pool).contains i && !(extHeld s.params pool).contains i

/-- The index that `claim(P)` returns: the lowest free one, as 10_state R40 lets a model choose; none if none is free.
DESIGN CHOICE (log 7). -/
def State.freeIndex (s : State) (pool : Pool) : Option Nat :=
  (List.range (poolSize s.params pool)).find? (s.isFree pool)

/-- An index put into a rising list of indices, once. -/
def insertIndex : List Nat → Nat → List Nat
  | [], i => [i]
  | j :: l, i => if i < j then i :: j :: l else if i = j then j :: l else j :: insertIndex l i

/-- The effect of `claim(P)` on st.held_P, for the index claimed (10_state R40). -/
def State.claim (s : State) (pool : Pool) (i : Nat) : State := 
  s.setHeld (s.held.set pool (insertIndex (s.heldIn pool) i))

/-- `release(P, i)` (10_state R40); a handle that is none releases nothing. -/
def State.release (s : State) (pool : Pool) : Option Nat → State
  | none => s
  | some i => s.setHeld (s.held.set pool ((s.heldIn pool).filter (fun j => j != i)))

/-- A value given to the elements numbered base .. base+n-1 of a list whose first element is numbered `i`. -/
def setRange {α : Type} (base n : Nat) (x : α) : List α → Nat → List α
  | [], _ => []
  | y :: ys, i => (if base ≤ i ∧ i < base + n then x else y) :: setRange base n x ys (i + 1)

theorem length_setRange {α : Type} (base n : Nat) (x : α) (l : List α) (i : Nat) :
    (setRange base n x l i).length = l.length := by
  induction l generalizing i with
  | nil => rfl
  | cons y ys ih => simp [setRange, ih]

/-- A value given to the pins base .. base+n-1 of a pin map. -/
def assignPins {α : Type} (m : Vector α 32) (base n : Nat) (x : α) : Vector α 32 :=
  ⟨(setRange base n x m.toList 0).toArray, by simp [length_setRange]⟩

/-- Some pin of base .. base+n-1 is claimed (41_capture R143). -/
def State.anyOwned (s : State) (base n : Nat) : Bool :=
  (List.finRange 32).any (fun q => base ≤ q.val && q.val < base + n && s.pinOwner[q] != .none)

/-- The pins base .. base+n-1 get an owner (10_state R41). -/
def State.ownPins (s : State) (base n : Nat) (o : PinOwner) : State := 
  s.setPinOwner (assignPins s.pinOwner base n o)

/-- The pads of the pins base .. base+n-1 get a configuration (10_state R42). -/
def State.padPins (s : State) (base n : Nat) (c : PadConfig) : State := 
  s.setPad (assignPins s.pad base n c)

/-- The lane disabled and its merge and receive queue cleared (41_capture R144, R150, R152). -/
def State.laneOff (s : State) : State := s.setLc { phase := .off, isr := 0, cnt := 0, rxc := [] }

/-- ReleaseSession() (41_capture R152). -/
def State.releaseSession (s : State) : State :=
  let s := s.laneOff
  let s := ((s.release .xfer s.cs.xfer).release .lane s.cs.lane).release .prog s.cs.prog
  let s := s.setCs { s.cs with xfer := none, lane := none, prog := none }
  s.ownPins s.cs.pinBase.toNat s.cs.pinCount.toNat .none

/-- CapRead(i): st.capbuf[i] (00_scope R7). -/
def State.capRead (s : State) (i : Nat) : Word := Mem.word s.mem (capOffset i)

/-- CapWrite(i, w): st.capbuf[i] <- w (00_scope R7); a word past the buffer does not exist, and nothing is written
(log 19). -/
def State.capWrite (s : State) (i : Nat) (w : Word) : State :=
  if i < s.params.capbufWords then s.setMem (Mem.setWord s.mem (capOffset i) w) else s

/-- st.planebuf[i]. -/
def State.planeRead (s : State) (i : Nat) : Word := Mem.word s.mem (planeOffset i)

/-- PlaneWrite(i, w): st.planebuf[i] <- w (00_scope R7); a word past the buffer does not exist. -/
def State.planeWrite (s : State) (i : Nat) (w : Word) : State :=
  if i < s.params.capbufWords then s.setMem (Mem.setWord s.mem (planeOffset i) w) else s

/-- The first `N` words of st.planebuf written, word m with `ws m`. -/
def State.planeFill (s : State) (ws : Nat → Word) : Nat → State
  | 0 => s
  | N + 1 => (s.planeFill ws N).planeWrite N (ws N)

/-- The sequencer enters a state (10_state R36). -/
def State.enter (s : State) (c : CsState) : State := s.setCs { s.cs with state := c }

/-- Complete() (41_capture R171): Transferring, Complete, Released in one step, with RUN_CAPTURE's result. -/
def State.complete (s : State) : State :=
  let s := (s.enter .complete).releaseSession
  let s := s.setBuf { valid := true, words := s.cs.cap, pinCount := s.cs.pinCount }
  (s.enter .released).putResult opcRunCapture .ok {} (BitVec.ofNat 32 s.cs.cap) 0

end Sys2Proof.Machine
end

