-- ==== Sys2Proof/Machine/Capture.lean ====
section
/-! DEFINITION. The capture commands CFG_CAPTURE, RUN_CAPTURE and RELEASE_CAPTURE (41_capture, sections 1 to 3). -/

namespace Sys2Proof.Machine

/-- The effect of an accepted CFG_CAPTURE with the claimed lane `l` and program slot `p` (41_capture R144). -/
def State.configureCapture (s : State) (base n l p : Nat) (dv : Word) : State :=
  let s := (s.claim .lane l).claim .prog p
  let s := (s.ownPins base n .capture).padPins base n .captureInput
  let s := s.setCs { s.cs with
    lane := some l, prog := some p, pinBase := BitVec.ofNat 5 base, pinCount := BitVec.ofNat 6 n, div := dv }
  (s.laneOff.enter .configuring).plainResult opcCfgCapture .ok

/-- CFG_CAPTURE: the pin checks (41_capture R141), the divider check (R142), the claims (R143), the effect (R144). -/
def execCfgCapture (base n : Nat) (s : State) : Host.Outcome State Fault Refusal :=
  .next (s.gated fun s =>
    if !pinCountLegal n then s.plainResult opcCfgCapture .invalidConfiguration
    else if s.params.nPins < base + n then s.plainResult opcCfgCapture .invalidConfiguration
    else if dividerRejected s.params s.arg0 then s.plainResult opcCfgCapture .invalidConfiguration
    else if s.cs.state ≠ .idle ∧ s.cs.state ≠ .released then s.plainResult opcCfgCapture .resourceExhausted
    else if s.anyOwned base n then s.plainResult opcCfgCapture .resourceExhausted
    else match s.freeIndex .lane, s.freeIndex .prog with
      | some l, some p => s.configureCapture base n l p s.arg0
      | _, _ => s.plainResult opcCfgCapture .resourceExhausted)

/-- The effect of an accepted RUN_CAPTURE with the claimed channel `x` (41_capture R150): Armed, then Transferring. -/
def State.startCapture (s : State) (cap tp x : Nat) (pol : Bool) : State :=
  let s := s.claim .xfer x
  let s := s.setCs { s.cs with
    xfer := some x, cap := cap, idx := 0, trigPin := BitVec.ofNat 5 tp, trigPol := pol, trigSeen := false }
  let s := (s.setBuf { s.buf with valid := false }).enter .armed
  let s := (s.setLc { s.lc with phase := .wait }).enter .transferring
  s.plainResult opcRunCapture .ok

/-- RUN_CAPTURE (41_capture R150). -/
def execRunCapture (tp : Nat) (pol : Bool) (s : State) : Host.Outcome State Fault Refusal :=
  .next (s.gated fun s =>
    let cap := s.argCount
    if s.cs.state ≠ .configuring then s.raise .noSession
    else if cap < 1 ∨ s.params.capbufWords < cap ∨ s.params.nPins ≤ tp then
      s.plainResult opcRunCapture .invalidConfiguration
    else
      let s := s.laneOff
      match s.freeIndex .xfer with
      | none => (s.releaseSession.enter .idle).plainResult opcRunCapture .resourceExhausted
      | some x => s.startCapture cap tp x pol)

/-- RELEASE_CAPTURE (41_capture R155). -/
def execReleaseCapture (s : State) : Host.Outcome State Fault Refusal :=
  .next (s.gated fun s =>
    if s.cs.state ≠ .configuring then s.raise .noSession
    else (s.releaseSession.enter .idle).plainResult opcReleaseCapture .ok)

end Sys2Proof.Machine
end

