-- ==== Sys2Proof/Machine/Decoder.lean ====
section
/-! DEFINITION. The decoder commands INIT_DECODER, DEINIT_DECODER, POLL_FRAME and DECODE (43_decoder). -/

namespace Sys2Proof.Machine

/-- The effect of an accepted INIT_DECODER with the claimed lane `l` and program slot `p` (43_decoder R211). -/
def State.startDecoder (s : State) (pin l p : Nat) : State :=
  let s := (s.claim .lane l).claim .prog p
  let s := (s.ownPins pin 1 .decoder).padPins pin 1 .decoderInput
  let s := s.setDec { active := true, pin := BitVec.ofNat 5 pin, lane := some l, prog := some p, rxd := [] }
  s.plainResult opcInitDecoder .ok

/-- INIT_DECODER (43_decoder R211). -/
def execInitDecoder (pin : Nat) (s : State) : Host.Outcome State Fault Refusal :=
  .next (s.gated fun s =>
    if s.params.nPins ≤ pin then s.plainResult opcInitDecoder .invalidConfiguration
    else if s.dec.active then s.plainResult opcInitDecoder .resourceExhausted
    else if s.anyOwned pin 1 then s.plainResult opcInitDecoder .resourceExhausted
    else match s.freeIndex .lane, s.freeIndex .prog with
      | some l, some p => s.startDecoder pin l p
      | _, _ => s.plainResult opcInitDecoder .resourceExhausted)

/-- The effect of an accepted DEINIT_DECODER (43_decoder R212). -/
def State.stopDecoder (s : State) : State :=
  let s := (s.release .lane s.dec.lane).release .prog s.dec.prog
  let s := s.ownPins s.dec.pin.toNat 1 .none
  let s := s.setDec { s.dec with active := false, lane := none, prog := none, rxd := [] }
  s.plainResult opcDeinitDecoder .ok

/-- DEINIT_DECODER (43_decoder R212). -/
def execDeinitDecoder (s : State) : Host.Outcome State Fault Refusal :=
  .next (s.gated fun s =>
    if !s.dec.active then s.raise .noDecoder
    else if s.nt.en then s.raise .notifyStillEnabled
    else s.stopDecoder)

/-- POLL_FRAME (43_decoder R217). -/
def execPollFrame (s : State) : Host.Outcome State Fault Refusal :=
  .next (s.gated fun s =>
    if !s.dec.active then s.raise .noDecoder
    else match s.dec.rxd with
      | [] => s.putResult opcPollFrame .ok {} 0 0
      | r :: rest => (s.setDec { s.dec with rxd := rest }).putResult opcPollFrame .ok { present := true } r 0)

/-- DECODE (43_decoder R216). -/
def execDecode (s : State) : Host.Outcome State Fault Refusal :=
  .next (s.gated fun s =>
    let d := decodeFrame s.params s.arg0
    s.putResult opcDecode d.1.result {} s.arg0 d.2)

end Sys2Proof.Machine
end

