-- ==== Sys2Proof/Machine/Divider.lean ====
section
/-! DEFINITION. CALC_DIV (40_divider). -/

namespace Sys2Proof.Machine

/-- CALC_DIV (40_divider R131, R134). -/
def execCalcDiv (us : Bool) (s : State) : Host.Outcome State Fault Refusal :=
  .next (s.gated fun s =>
    let d := dividerOf s.params.baseClockHz us s.argCount
    s.putResult opcCalcDiv .ok { clamped := d.2 } d.1 0)

end Sys2Proof.Machine
end

