-- ==== Sys2Proof/Machine/Lane.lean ====
section
/-! DEFINITION. The two microcode words of the capture lane: WAIT_GPIO, whose effect is the TRIGGER step, and IN_PINS,
whose effect is a SAMPLE step (41_capture R160, R161, R165, R166). The pins stand at `s.pins`. -/

namespace Sys2Proof.Machine

/-- The level of a pin input. -/
def State.pinLevel (s : State) (q : Nat) : Bool := s.pins.getLsbD q

/-- WAIT_GPIO: while the pin is not at the level the lane stays blocked; once it is, the TRIGGER step
(41_capture R160, R165). -/
def execWaitGpio (pol : Bool) (gpio : Nat) (s : State) : Host.Outcome State Fault Refusal :=
  .next (if !s.fault && s.lc.phase == .wait && s.pinLevel gpio == pol then
      (s.setLc { s.lc with phase := .run }).setCs { s.cs with trigSeen := true }
    else s)

/-- A sample shifted in from the high end, and the merged word pushed once it holds T(n) bits (41_capture R161). -/
def State.shiftIn (s : State) (n : Nat) (v : Word) : State :=
  let isr := (s.lc.isr >>> n) ||| (v <<< (32 - n))
  let cnt := s.lc.cnt + n
  if mergeThreshold n ≤ cnt then s.setLc { s.lc with rxc := s.lc.rxc ++ [isr], isr := 0, cnt := 0 }
  else s.setLc { s.lc with isr := isr, cnt := cnt }

/-- IN_PINS: one SAMPLE step. It is not enabled, and the lane stalls, when it would complete a word while the receive
queue is full (41_capture R161, R166). -/
def execInPins (bitCount : Nat) (s : State) : Host.Outcome State Fault Refusal :=
  let n := sampleWidth bitCount
  .next (if !s.fault && s.lc.phase == .run &&
      !(mergeThreshold n ≤ s.lc.cnt + n && s.lc.rxc.length == s.params.rxcDepth) then
      s.shiftIn n (sampleOf s.pins s.cs.pinBase.toNat n)
    else s)

end Sys2Proof.Machine
end

