-- ==== Sys2Proof/Machine/Notify.lean ====
section
/-! DEFINITION. The notification commands SET_NOTIFY and POP_REPORT (44_notification). -/

namespace Sys2Proof.Machine

/-- SET_NOTIFY: ON (44_notification R241), OFF (R242). -/
def execSetNotify (en : Bool) (s : State) : Host.Outcome State Fault Refusal :=
  .next (s.gated fun s =>
    if !s.dec.active then s.raise .noDecoder
    else if en then
      (if s.nt.en then s.raise .doubleEnable
       else match s.freeIndex .irq with
        | none => s.raise .irqExhausted
        | some i =>
          let s := s.claim .irq i
          (s.setNt { s.nt with line := some i, pending := false, en := true }).plainResult opcSetNotify .ok)
    else if s.nt.en then
      let s := s.release .irq s.nt.line
      (s.setNt { s.nt with en := false, pending := false, line := none }).plainResult opcSetNotify .ok
    else s.plainResult opcSetNotify .ok)

/-- POP_REPORT (44_notification R245). -/
def execPopReport (s : State) : Host.Outcome State Fault Refusal :=
  .next (s.gated fun s =>
    match s.nt.rpt with
    | [] => s.putResult opcPopReport .ok {} 0 0
    | rep :: rest =>
      (s.setNt { s.nt with rpt := rest }).putResult opcPopReport rep.code.result { present := true } rep.raw rep.fields)

end Sys2Proof.Machine
end

