-- ==== Sys2Proof/Machine/Reconstruct.lean ====
section
/-! DEFINITION. RECONSTRUCT, the bit-plane de-interleaver (42_reconstruct). -/

namespace Sys2Proof.Machine

/-- RECONSTRUCT: validation (42_reconstruct R192) and effect (R193). -/
def execReconstruct (n : Nat) (s : State) : Host.Outcome State Fault Refusal :=
  .next (s.gated fun s =>
    let N := s.argCount
    if !pinCountLegal n then s.plainResult opcReconstruct .invalidConfiguration
    else if N < 1 ∨ s.params.capbufWords < N then s.plainResult opcReconstruct .invalidConfiguration
    else
      let t := s.planeFill (planeWord s.capRead n N) N
      let t := t.setPlane { valid := true, words := N, pinCount := BitVec.ofNat 6 n }
      t.putResult opcReconstruct .ok {} (BitVec.ofNat 32 N) 0)

end Sys2Proof.Machine
end

