-- ==== Sys2Proof/Machine/Dispatch.lean ====
section
/-! DEFINITION. The meaning of every instruction: one arm per constructor of Instr. -/

namespace Sys2Proof.Machine

/-- The meaning of an instruction: the rule of spec/ that its row of the opcode table names. -/
def exec (i : Instr) (s : State) : Host.Outcome State Fault Refusal :=
  match i with
  | .calcDiv us => Sys2Proof.Machine.execCalcDiv us s
  | .cfgCapture base count => Sys2Proof.Machine.execCfgCapture base count s
  | .runCapture pin pol => Sys2Proof.Machine.execRunCapture pin pol s
  | .releaseCapture => Sys2Proof.Machine.execReleaseCapture s
  | .reconstruct count => Sys2Proof.Machine.execReconstruct count s
  | .initDecoder pin => Sys2Proof.Machine.execInitDecoder pin s
  | .deinitDecoder => Sys2Proof.Machine.execDeinitDecoder s
  | .pollFrame => Sys2Proof.Machine.execPollFrame s
  | .decode => Sys2Proof.Machine.execDecode s
  | .setNotify en => Sys2Proof.Machine.execSetNotify en s
  | .popReport => Sys2Proof.Machine.execPopReport s
  | .waitGpio pol gpio => Sys2Proof.Machine.execWaitGpio pol gpio s
  | .inPins bitCount => Sys2Proof.Machine.execInPins bitCount s

end Sys2Proof.Machine
end

