-- ==== Sys2Proof/Machine/HostPort.lean ====
section
/-! DEFINITION. The host port: MemRead and MemWrite of the registers and the buffer windows (20_memory R70 to R78), and
the issue of a command by a write to CMD (10_state R23, 30_encoding R100). -/

namespace Sys2Proof.Machine

/-- The value of a register as a read returns it (10_state R22 to R35). -/
def State.readRegister (s : State) : Register → Word
  | .cmd => 0
  | .arg0 => s.arg0
  | .status => s.status
  | .result => s.result
  | .data0 => s.data0
  | .data1 => s.data1
  | .csCfg => s.csCfg
  | .csDiv => s.cs.div
  | .csProgress => s.csProgress
  | .decCfg => s.decCfg
  | .bufInfo => s.bufInfo
  | .planeInfo => s.planeInfo

/-- A host read. It returns its value in `readData` and changes nothing else, unless it faults; a read that faults
returns 0 (20_memory R72 to R78). -/
def State.hostRead (s : State) (a : Access) : State :=
  match a.location s.params with
  | none => (s.raise .busError).setReadData 0
  | some (.register r) => s.setReadData (s.readRegister r)
  | some (.capbuf i) =>
    if s.busy then (s.raise .busyViolation).setReadData 0 else s.setReadData (s.capRead i)
  | some (.planebuf i) => s.setReadData (s.planeRead i)

/-- A write of `w` to CMD (30_encoding R100). The checks for a set fault and for BUSY come before decoding; a legal word
meets them at the head of its own meaning (`State.gated`). Before the platform has fixed BASE_CLOCK_HZ no command has a
meaning (70_reset_and_hazards R303; log 10). -/
def State.issueCommand (s : State) (w : Word) : Host.Outcome State Fault Refusal :=
  if s.fault then .next s
  else if s.params.baseClockHz = 0 then .refused .clockNotFixed
  else match decodeCommand w with
    | .error _ => .next (s.gated fun s => s.raise .illegalCommand)
    | .ok i => exec i s

/-- A host write. While a fault is set every write is ignored (20_memory R78). Otherwise: BUS_ERROR for a bad access or a
read-only location (R72 to R74), BUSY_VIOLATION for CAPBUF while BUSY (R75), and then the store or the command. -/
def State.hostWrite (s : State) (a : Access) : Host.Outcome State Fault Refusal :=
  if s.fault then .next s
  else match a.location s.params with
    | none => .next (s.raise .busError)
    | some (.register .cmd) => s.issueCommand a.data
    | some (.register .arg0) => .next (s.setArg0 a.data)
    | some (.register _) => .next (s.raise .busError)
    | some (.capbuf i) =>
      if s.busy then .next (s.raise .busyViolation)
      else .next ((s.capWrite i a.data).setBuf { s.buf with valid := false })
    | some (.planebuf _) => .next (s.raise .busError)

/-- One step of HOST (20_memory R77). -/
def State.hostStep (s : State) (a : Access) : Host.Outcome State Fault Refusal :=
  match a.kind with
  | .read => .next (s.hostRead a)
  | .write => s.hostWrite a

end Sys2Proof.Machine
end

