-- ==== Sys2Proof/Machine/Agents.lean ====
section
/-! DEFINITION. The steps of the agents beside the host: LANE_C, XFER, LANE_D, NOTIFY and RESET; the choice of the next
event; and the placing of one instruction as the next thing the machine runs. A step that is not enabled changes
nothing (DESIGN CHOICE, log 2). -/

namespace Sys2Proof.Machine

/-- The instruction the capture lane executes next: nothing while it is off, the injected wait-for-trigger instruction
while Wait, the sample loop's instruction while Run (41_capture R165, R166; 30_encoding R108). DEDUCED (log 15). -/
def State.laneInstr (s : State) : Option Instr :=
  match s.lc.phase with
  | .off => none
  | .wait => some (.waitGpio s.cs.trigPol s.cs.trigPin.toNat)
  | .run => some (.inPins (s.cs.pinCount.toNat % 32))

/-- The word of that instruction in the lane's instruction stream (30_encoding R108). -/
def State.laneWord (s : State) : Option InstrWord := s.laneInstr.map encode

/-- One step of LANE_C with the pins at `levels` (41_capture R160, R161). -/
def State.laneStep (s : State) (levels : Word) : Host.Outcome State Fault Refusal :=
  let s := s.setPins levels
  match s.laneInstr with
  | none => .next s
  | some i => exec i s

/-- One step of XFER (41_capture R170, R171). -/
def State.xferStep (s : State) : State :=
  if s.fault || s.cs.state != .transferring || s.cs.cap ≤ s.cs.idx then s
  else match s.lc.rxc with
    | [] => s
    | w :: rest =>
      let s := s.setLc { s.lc with rxc := rest }
      let s := s.capWrite s.cs.idx w
      let s := s.setCs { s.cs with idx := s.cs.idx + 1 }
      if s.cs.idx = s.cs.cap then s.complete else s

/-- One step of LANE_D, the FRAME step with the drawn frame (43_decoder R218). -/
def State.frameStep (s : State) (f : Word) : State :=
  if !s.fault && s.dec.active && s.dec.rxd.length < s.params.rxdDepth then
    s.setDec { s.dec with rxd := s.dec.rxd ++ [f] }
  else s

/-- The LATCH step of NOTIFY (44_notification R243). -/
def State.latchStep (s : State) : State :=
  if !s.fault && s.nt.en && !s.dec.rxd.isEmpty && !s.nt.pending then
    s.setNt { s.nt with pending := true }
  else s

/-- The HANDLE step of NOTIFY (44_notification R244). -/
def State.handleStep (s : State) : State :=
  if !s.fault && s.nt.en && s.nt.pending then
    let s := s.setNt { s.nt with pending := false }
    match s.dec.rxd with
    | [] => s
    | r :: rest =>
      let s := s.setDec { s.dec with rxd := rest }
      let d := decodeFrame s.params r
      if s.nt.rpt.length < s.params.reportDepth then
        s.setNt { s.nt with rpt := s.nt.rpt ++ [{ raw := r, code := d.1, fields := d.2 }] }
      else s.setNt { s.nt with ovf := true }
  else s

/-- The step of RESET (70_reset_and_hazards R300, R301): the reset state with the same parameters and fresh draws in the
buffers. The schedule is the agents', not the block's: what is still to come stays to come. DESIGN CHOICE (log 17). -/
def State.resetStep (s : State) (draws : List Host.Cell) : State :=
  { State.cleanEntry s.params draws with sched := s.sched, drawIx := s.drawIx }

/-- One step of one agent (00_scope R8). -/
def runEvent (e : Event) (s : State) : Host.Outcome State Fault Refusal :=
  match e with
  | .host a => s.hostStep a
  | .lane levels => s.laneStep levels
  | .xfer => .next s.xferStep
  | .frame f => .next (s.frameStep f)
  | .latch => .next s.latchStep
  | .handle => .next s.handleStep
  | .reset draws => .next (s.resetStep draws)

/-- The next event, and the state from which its agent steps: the oldest scheduled one, or, when none is scheduled, a free
one, for "the interleaving is unconstrained" (20_memory R80). DESIGN CHOICE (log 1). -/
def State.takeEvent (s : State) : Event × State :=
  match s.sched with
  | e :: rest => (e, { s with sched := rest })
  | [] => (Config.freeEvent s.drawIx, { s with drawIx := s.drawIx + 1 })

/-- A write of `w` to CMD, as the host access it is (10_state R23). -/
def cmdWrite (w : Word) : Access := { kind := .write, offset := 0x000, size := 4, data := w }

/-- The state with a command issued next. -/
def State.placeCommand (s : State) (w : Word) : State := { s with sched := .host (cmdWrite w) :: s.sched }

/-- The state with a lane instruction executed next: the lane is put where that instruction is its current one, and a
lane step comes next, with the pins at the level a wait waits for. A word that is no lane instruction has no place. -/
def State.placeLane (s : State) (w : BitVec 16) : State :=
  match decodeLane w with
  | .ok (.waitGpio pol gpio) =>
    { s with
      lc := { s.lc with phase := .wait }
      cs := { s.cs with trigPol := pol, trigPin := BitVec.ofNat 5 gpio }
      sched := .lane (if pol then 0xFFFFFFFF else 0) :: s.sched }
  | .ok (.inPins k) =>
    { s with
      lc := { s.lc with phase := .run }
      cs := { s.cs with pinCount := BitVec.ofNat 6 (sampleWidth k) }
      sched := .lane 0xFFFFFFFF :: s.sched }
  | _ => s

end Sys2Proof.Machine
end

