-- ==== Sys2Proof/Machine/Step.lean ====
section
/-! DEFINITION. One step of the machine, and the placing of an instruction of the opcode table where the next step runs
it. -/

namespace Sys2Proof.Machine

/-- One step: the next event, taken by its agent (20_memory R80). -/
def step (s : State) : Host.Outcome State Fault Refusal := runEvent s.takeEvent.1 s.takeEvent.2

/-- The state whose very next step runs the instruction of bits `w`: a command of 32 bits comes as a host write to CMD, a
lane word of 16 bits stands as the lane's current instruction; log 16. -/
def State.withFetchWord (s : State) (nbits w : Nat) : State :=
  if nbits = 16 then s.placeLane (BitVec.ofNat 16 w) else s.placeCommand (BitVec.ofNat 32 w)

end Sys2Proof.Machine
end

