-- ==== Sys2Proof/Machine/Assembly.lean ====
section
/-! DEFINITION. The host's programs: the expansion of the command statements and pseudo-instructions of 30_encoding R109
and R110 into host accesses. The block itself fetches none of these (10_state R21); the text notation is not modelled. -/

namespace Sys2Proof.Machine

/-- The offset of a register (10_state R22). -/
def registerOffset : Register → Word
  | .cmd => 0x000
  | .arg0 => 0x004
  | .status => 0x008
  | .result => 0x00C
  | .data0 => 0x010
  | .data1 => 0x014
  | .csCfg => 0x018
  | .csDiv => 0x01C
  | .csProgress => 0x020
  | .decCfg => 0x024
  | .bufInfo => 0x028
  | .planeInfo => 0x02C

/-- `WR <reg>, <value>` (30_encoding R109). -/
def wr (r : Register) (v : Word) : Access := { kind := .write, offset := registerOffset r, size := 4, data := v }

/-- `RD <reg>` (30_encoding R109). -/
def rd (r : Register) : Access := { kind := .read, offset := registerOffset r, size := 4, data := 0 }

/-- `WR CAPBUF[i], <value>` (30_encoding R109). -/
def wrCapbuf (i : Nat) (v : Word) : Access :=
  { kind := .write, offset := BitVec.ofNat 32 (capOffset i), size := 4, data := v }

/-- The commands that take an operand in ARG0 (30_encoding R104). -/
def takesOperand : Instr → Bool
  | .calcDiv _ => true
  | .cfgCapture _ _ => true
  | .runCapture _ _ => true
  | .reconstruct _ => true
  | .decode => true
  | .releaseCapture => false
  | .initDecoder _ => false
  | .deinitDecoder => false
  | .pollFrame => false
  | .setNotify _ => false
  | .popReport => false
  | .waitGpio _ _ => false
  | .inPins _ => false

/-- A command statement with its ARG0 operand (30_encoding R109): one CMD write, preceded by an ARG0 write where the
command takes an operand. An operand that does not fit is an assembly error, and a lane word is no statement. -/
def assemble (i : Instr) (operand : Nat) : Option (List Access) :=
  match encode i with
  | .lane _ => none
  | .command w =>
    if !i.wellFormed then none
    else if takesOperand i then
      (if operand < 2 ^ 32 then some [wr .arg0 (BitVec.ofNat 32 operand), wr .cmd w] else none)
    else some [wr .cmd w]

/-- The accesses of `CAPTURE` before its WAIT_IDLE (30_encoding R110). -/
def assembleCapture (base count divbits trig : Nat) (pol : Bool) (words : Nat) : Option (List Access) :=
  match assemble (.cfgCapture base count) divbits, assemble (.runCapture trig pol) words with
  | some cfg, some run => some (cfg ++ run)
  | _, _ => none

/-- One pass of WAIT_IDLE has read STATUS into `readData`; the host leaves the loop when bit 0 is 0 (30_encoding R110). -/
def State.waitIdleDone (s : State) : Bool := !s.readData.getLsbD 0

/-- `DECODE_DATA0` after its `RD DATA0`: DECODE of the value read (30_encoding R110). -/
def State.decodeReadData (s : State) : Option (List Access) := assemble .decode s.readData.toNat

end Sys2Proof.Machine
end

