-- ==== Sys2Proof/Safety.lean ====
section
/-! DEFINITION. What counts as a safe run (70_reset_and_hazards R311, 60_exceptions R273), and the invariants of the
block that claims use. -/

namespace Sys2Proof.Machine

/-- A failed run: "a faulted state is never a normal end of a run" (60_exceptions R273). -/
def State.failedRun (s : State) : Bool := s.fault

/-- A quiescent state, where a run may end (70_reset_and_hazards R311). -/
def State.quiescent (s : State) : Bool := !s.fault && !s.busy && (!s.nt.pending || !s.nt.en)

/-- A command written now reaches its own rule: no fault is set and the block is not BUSY (60_exceptions R274). -/
abbrev State.ready (s : State) : Prop := s.fault = false ∧ s.busy = false

/-- The pin levels of the lane steps among the events, in order. -/
def laneLevels : List Event → List Word
  | [] => []
  | .lane levels :: evs => levels :: laneLevels evs
  | _ :: evs => laneLevels evs

/-- A capture session exists: its lane, program slot and pins are claimed (10_state R36, R37). -/
abbrev State.inSession (s : State) : Prop := s.cs.state = .configuring ∨ s.cs.state = .transferring

/-- The handles of a pool that the block's two sessions and its notification binding hold (10_state R37, R39, R43). -/
def State.handles (s : State) : Pool → List (Option Nat)
  | .lane => [s.cs.lane, s.dec.lane]
  | .prog => [s.cs.prog, s.dec.prog]
  | .xfer => [s.cs.xfer]
  | .irq => [s.nt.line]

/-- Every index held is some owner's handle and free of the owners outside, and "no two logical owners may hold the same
handle simultaneously" (10_state R40). -/
structure State.PoolsExact (s : State) : Prop where
  held_iff : ∀ pool i, i ∈ s.heldIn pool ↔ some i ∈ s.handles pool
  apart : ∀ pool i, (s.handles pool).count (some i) ≤ 1
  inPool : ∀ pool i, i ∈ s.heldIn pool → i < poolSize s.params pool ∧ i ∉ extHeld s.params pool
  rising : ∀ pool, (s.heldIn pool).Pairwise (· < ·)

/-- The sequencer and its lane (10_state R36 to R38): the two transient states never stand at the end of a step, the
handles and the lane's phase follow the state, and the session's configuration is one that CFG_CAPTURE accepts. -/
structure State.SequencerExact (s : State) : Prop where
  notTransient : s.cs.state ≠ .armed ∧ s.cs.state ≠ .complete
  lane_iff : s.cs.lane.isSome ↔ s.inSession
  prog_iff : s.cs.prog.isSome ↔ s.inSession
  xfer_iff : s.cs.xfer.isSome ↔ s.cs.state = .transferring
  phase_iff : s.lc.phase ≠ .off ↔ s.cs.state = .transferring
  offClear : s.lc.phase = .off → s.lc.isr = 0 ∧ s.lc.cnt = 0 ∧ s.lc.rxc = []
  waitClear : s.lc.phase = .wait → s.lc.isr = 0 ∧ s.lc.cnt = 0 ∧ s.lc.rxc = [] ∧ s.cs.trigSeen = false
  runSeen : s.lc.phase = .run → s.cs.trigSeen = true
  merging : s.lc.cnt < 32 ∧ (s.lc.phase = .run → s.cs.pinCount.toNat ∣ s.lc.cnt)
  group : s.inSession → pinCountLegal s.cs.pinCount.toNat = true ∧ s.cs.pinBase.toNat + s.cs.pinCount.toNat ≤ s.params.nPins
  trigger : s.cs.state = .transferring → s.cs.trigPin.toNat < s.params.nPins
  progress : s.cs.state = .transferring → s.cs.idx < s.cs.cap
  capacity : s.cs.idx ≤ s.cs.cap ∧ s.cs.cap ≤ s.params.capbufWords

/-- The decoder session and the notification binding (10_state R39, R43). -/
structure State.DecoderExact (s : State) : Prop where
  lane_iff : s.dec.lane.isSome ↔ s.dec.active = true
  prog_iff : s.dec.prog.isSome ↔ s.dec.active = true
  pin : s.dec.active = true → s.dec.pin.toNat < s.params.nPins
  idleEmpty : s.dec.active = false → s.dec.rxd = []
  binding : s.nt.en = true → s.dec.active = true
  line_iff : s.nt.line.isSome ↔ s.nt.en = true
  pending : s.nt.pending = true → s.nt.en = true

/-- A pin is claimed by a session exactly while the session exists and names it: "at most one active claim per physical
pin group at a time" (10_state R41). -/
structure State.PinsExact (s : State) : Prop where
  capture : ∀ q : Fin 32, s.pinOwner[q] = .capture ↔
    s.inSession ∧ s.cs.pinBase.toNat ≤ q.val ∧ q.val < s.cs.pinBase.toNat + s.cs.pinCount.toNat
  decoder : ∀ q : Fin 32, s.pinOwner[q] = .decoder ↔ s.dec.active = true ∧ q.val = s.dec.pin.toNat

/-- No queue is longer than its depth (10_state R38, R39, R43). -/
structure State.QueuesBounded (s : State) : Prop where
  rxc : s.lc.rxc.length ≤ s.params.rxcDepth
  rxd : s.dec.rxd.length ≤ s.params.rxdDepth
  rpt : s.nt.rpt.length ≤ s.params.reportDepth

/-- The buffers' memory is canonical and what is recorded of them is what a command could have left (10_state R44). -/
structure State.BuffersExact (s : State) : Prop where
  mem : Mem.wf s.params.capbufWords s.mem = true
  buf : s.buf.valid = true → 1 ≤ s.buf.words ∧ pinCountLegal s.buf.pinCount.toNat = true
  bufWords : s.buf.words ≤ s.params.capbufWords
  plane : s.plane.valid = true → 1 ≤ s.plane.words ∧ pinCountLegal s.plane.pinCount.toNat = true
  planeWords : s.plane.words ≤ s.params.capbufWords

/-- Every report says what DecodeFn says of its frame (44_notification R244). -/
abbrev State.ReportsExact (s : State) : Prop := ∀ r ∈ s.nt.rpt, decodeFrame s.params r.raw = (r.code, r.fields)

/-- The fault flag and its code agree, the codes 9 to 15 are never produced, and the reserved fields of RESULT and DATA1
read 0 with no result code above 3 (60_exceptions R270, R272; 10_state R26, R29). -/
structure State.RegistersExact (s : State) : Prop where
  fault_iff : s.fault = true ↔ s.faultCode ≠ 0
  faultCode : s.faultCode.toNat ≤ 8
  result : s.result &&& 0xFFFF00CC = 0
  data1 : s.data1 &&& 0xFC000000 = 0

/-- The invariant of the block: every part of it, for parameters in their ranges. -/
structure State.Inv (s : State) : Prop where
  params : s.params.wf = true
  pools : s.PoolsExact
  sequencer : s.SequencerExact
  decoder : s.DecoderExact
  pins : s.PinsExact
  queues : s.QueuesBounded
  buffers : s.BuffersExact
  reports : s.ReportsExact
  registers : s.RegistersExact

/-- A run: the events `evs`, one a step, lead from `s` to `t`, with the schedule behind them untouched. -/
def Runs (s : State) (evs : List Event) (t : State) : Prop :=
  Host.Core.run Sys2Proof.core evs.length { s with sched := evs ++ s.sched } = .next t

/-- The next event is a host write of the word `w` to CMD. -/
def State.issues (s : State) (w : Word) : Prop :=
  ∃ a : Access, s.takeEvent.1 = .host a ∧ a.kind = .write ∧ a.size = 4 ∧ a.offset = 0x000 ∧ a.data = w

end Sys2Proof.Machine
end

