-- ==== Sys2Proof/Certificates/Slice0/Obligations.lean ====
section
/-! DEFINITION. The statements about the model, each from the rules of spec/ that its docstring names. `s.ready` means no
fault is set and the block is not BUSY. The fields `pins`, `readData`, `sched` and `drawIx` are the model's own (logs 1,
6 and 8): the levels a lane step sees, the word a host read returns, and the order of the agents. -/

section

open Sys2Proof Sys2Proof.Machine

/-! Encoding (30_encoding). -/

/-- Every well-formed instruction decodes from its own word, with every operand at every value its field admits
(30_encoding R102, R103, R108, R109). -/
def Obligations.DecodeEncodeRoundTrip : Prop :=
  ∀ i : Instr, i.wellFormed = true → Sys2Proof.decode (encode i) = .ok i

/-- A word that decodes is the word of the instruction it decodes to: each legal word has one meaning
(30_encoding R105, R109). -/
def Obligations.DecodedWordReencodes : Prop :=
  ∀ (w : InstrWord) (i : Instr), Sys2Proof.decode w = .ok i → i.wellFormed = true ∧ encode i = w

/-- A legal command word decodes to the command of its opcode, its fields read as unsigned numbers at the bits of
30_encoding R101 to R103. -/
def Obligations.CommandFields : Prop :=
  ∀ (w : Word) (i : Instr), decodeCommand w = .ok i →
    let opc := w.toNat / 2 ^ 24
    (opc = 0x01 → i = .calcDiv (w.toNat % 2 == 1)) ∧
    (opc = 0x02 → i = .cfgCapture (w.toNat % 32) (w.toNat / 32 % 64)) ∧
    (opc = 0x03 → i = .runCapture (w.toNat % 32) (w.toNat / 32 % 2 == 1)) ∧
    (opc = 0x04 → i = .releaseCapture) ∧
    (opc = 0x05 → i = .reconstruct (w.toNat / 32 % 64)) ∧
    (opc = 0x06 → i = .initDecoder (w.toNat % 32)) ∧
    (opc = 0x07 → i = .deinitDecoder) ∧
    (opc = 0x08 → i = .pollFrame) ∧
    (opc = 0x09 → i = .decode) ∧
    (opc = 0x0A → i = .setNotify (w.toNat % 2 == 1)) ∧
    (opc = 0x0B → i = .popReport) ∧
    0x01 ≤ opc ∧ opc ≤ 0x0B

/-- What a write of `w` to CMD does, in the order of 30_encoding R100: ignored while faulted, BUSY_VIOLATION while BUSY,
ILLEGAL_COMMAND for a reserved opcode or a reserved bit (R105), and otherwise the rule of the command. The clock is fixed
(70_reset_and_hazards R303). -/
def Obligations.CommandIssue : Prop :=
  ∀ (s : State) (w : Word), s.params.baseClockHz ≠ 0 →
    let opc := w.toNat / 2 ^ 24
    let fieldMask : Word :=
      if opc = 0x01 then 0x000001 else if opc = 0x02 then 0x0007FF else if opc = 0x03 then 0x00003F
      else if opc = 0x05 then 0x0007E0 else if opc = 0x06 then 0x00001F else if opc = 0x0A then 0x000001 else 0
    let illegal := opc = 0 ∨ 0x0C ≤ opc ∨ (w &&& 0x00FFFFFF) &&& ~~~fieldMask ≠ 0
    let write := runEvent (.host { kind := .write, offset := 0x000, size := 4, data := w }) s
    (s.fault = true → write = .next s) ∧
    (s.fault = false → s.busy = true → write = .next { s with fault := true, faultCode := 7 }) ∧
    (s.ready → illegal → write = .next { s with fault := true, faultCode := 1 }) ∧
    (s.ready → ¬ illegal → ∃ i, decodeCommand w = .ok i ∧ write = exec i s)

/-- Words written out from the encodings of 30_encoding R101, R102 and R108, and illegal ones. -/
def Obligations.SampleWordsDecode : Prop :=
  decodeCommand 0x01000001 = .ok (.calcDiv true) ∧
  decodeCommand 0x0200009C = .ok (.cfgCapture 28 4) ∧
  decodeCommand 0x03000025 = .ok (.runCapture 5 true) ∧
  decodeCommand 0x04000000 = .ok .releaseCapture ∧
  decodeCommand 0x05000400 = .ok (.reconstruct 32) ∧
  decodeCommand 0x0600000A = .ok (.initDecoder 10) ∧
  decodeCommand 0x0A000001 = .ok (.setNotify true) ∧
  decodeLane 0x2085 = .ok (.waitGpio true 5) ∧
  decodeLane 0x4004 = .ok (.inPins 4) ∧
  decodeCommand 0x00000000 = .error .reservedOpcode ∧
  decodeCommand 0x0C000000 = .error .reservedOpcode ∧
  decodeCommand 0x05000081 = .error .reservedBits ∧
  decodeLane 0x2020 = .error .notLaneWord

/-- The word the capture lane executes: WAIT_GPIO of the trigger while Wait, IN_PINS of the pin count while Run, nothing
while Off (30_encoding R108; 41_capture R165, R166). That the lane's word follows from the session is log 15's. -/
def Obligations.LaneWordOfPhase : Prop :=
  ∀ s : State,
    (s.lc.phase = .off → s.laneWord = none) ∧
    (s.lc.phase = .wait → s.laneWord = some (.lane
      (0x2000 ||| (if s.cs.trigPol then 0x0080 else 0) ||| s.cs.trigPin.setWidth 16))) ∧
    (s.lc.phase = .run → s.cs.pinCount.toNat ∈ [1, 2, 4, 8, 16, 32] →
      s.laneWord = some (.lane (0x4000 ||| BitVec.ofNat 16 (s.cs.pinCount.toNat % 32))))

/-! Steps (20_memory R80, 10_state R23). -/

/-- A step in which the host writes the word of a command to CMD runs that command, after the schedule has moved on
(10_state R23; the schedule is the model's own, log 1). -/
def Obligations.StepRunsIssuedCommand : Prop :=
  ∀ (s : State) (w : Word) (i : Instr), s.issues w → s.fault = false → s.params.baseClockHz ≠ 0 →
    decodeCommand w = .ok i →
    step s = exec i s.takeEvent.2 ∧
    (∀ e rest, s.sched = e :: rest → s.takeEvent.2 = { s with sched := rest }) ∧
    (s.sched = [] → s.takeEvent.2 = { s with drawIx := s.drawIx + 1 })

/-- A step of the capture lane runs the instruction that the lane's current word decodes to, with the pins at the levels
drawn for the step (41_capture R165, R166). The current word is the model's inference (log 15), and that a lane event
brings the levels of all pins its choice (log 6). -/
def Obligations.StepRunsLaneWord : Prop :=
  ∀ (s : State) (levels : Word) (w : InstrWord) (i : Instr), s.takeEvent.1 = .lane levels → s.laneWord = some w →
    Sys2Proof.decode w = .ok i → step s = exec i { s.takeEvent.2 with pins := levels }

/-- No step stops the machine, except that a command issued with no fault set before the platform has fixed the base clock
is refused, whatever its word (70_reset_and_hazards R303). That the step which raises a fault of the block is a next state, and so are the steps after
it, is the model's inference (log 9) from the sticky state which host reads and reset still reach (60_exceptions R271,
R273); that BASE_CLOCK_HZ = 0 stands for a clock not fixed is its choice (log 10). -/
def Obligations.StepStopsOnlyWithoutClock : Prop :=
  ∀ s : State,
    ((∃ t, step s = .next t) ∨
      (step s = .refused .clockNotFixed ∧ s.params.baseClockHz = 0 ∧ s.fault = false ∧ ∃ w, s.issues w)) ∧
    (∀ w, s.issues w → s.fault = false → s.params.baseClockHz = 0 → step s = .refused .clockNotFixed)

/-! Reset (70_reset_and_hazards). -/

/-- The values a reset step leaves, whatever the state was, and the views that follow from them (R300). Any contents of
the two buffers are the outcome of some draws. -/
def Obligations.ResetStep : Prop :=
  ∀ (s : State) (draws : List Host.Cell), ∃ t, runEvent (.reset draws) s = .next t ∧
    t.arg0 = 0 ∧ t.result = 0 ∧ t.data0 = 0 ∧ t.data1 = 0 ∧
    t.cs = { state := .idle, pinBase := 0, pinCount := 0, div := 0, trigPin := 0, trigPol := false, lane := none,
             prog := none, xfer := none, cap := 0, idx := 0, trigSeen := false } ∧
    t.lc = { phase := .off, isr := 0, cnt := 0, rxc := [] } ∧
    t.dec = { active := false, pin := 0, lane := none, prog := none, rxd := [] } ∧
    t.held = { lane := [], prog := [], xfer := [], irq := [] } ∧
    (∀ q : Fin 32, t.pinOwner[q] = .none ∧ t.pad[q] = .default) ∧
    t.nt = { en := false, line := none, pending := false, rpt := [], ovf := false } ∧
    t.buf = { valid := false, words := 0, pinCount := 0 } ∧
    t.plane = { valid := false, words := 0, pinCount := 0 } ∧
    t.fault = false ∧ t.faultCode = 0 ∧ t.irqOut = false ∧ t.params = s.params ∧
    t.status = 0 ∧ t.csCfg = 0 ∧ t.csProgress = 0 ∧ t.decCfg = 0 ∧ t.bufInfo = 0 ∧ t.planeInfo = 0 ∧
    (∀ m, Mem.wf s.params.capbufWords m = true →
      ∃ draws' t', runEvent (.reset draws') s = .next t' ∧ t'.mem = m)

/-- After a reset step no step of LANE_C, XFER, LANE_D or NOTIFY is enabled, and the host port accepts accesses (R302).
That the event of a step not enabled changes nothing, but for the pin levels a lane event brings, is the model's choice
(logs 2 and 6), as is that the word a read returns stands in `readData` (log 8). -/
def Obligations.AfterReset : Prop :=
  ∀ (s : State) (draws : List Host.Cell), ∃ t, runEvent (.reset draws) s = .next t ∧
    (∀ levels, runEvent (.lane levels) t = .next { t with pins := levels }) ∧
    runEvent .xfer t = .next t ∧ (∀ f, runEvent (.frame f) t = .next t) ∧
    runEvent .latch t = .next t ∧ runEvent .handle t = .next t ∧
    (∀ v, runEvent (.host { kind := .write, offset := 0x004, size := 4, data := v }) t = .next { t with arg0 := v }) ∧
    (∀ d, runEvent (.host { kind := .read, offset := 0x008, size := 4, data := d }) t = .next { t with readData := 0 })

/-- The invariant of the block holds in the state the model launches in, whatever the open parameters and draws are. -/
def Obligations.InvariantAtReset : Prop := State.reset.Inv

/-- Every step of every agent keeps the invariant of the block: pools exact and no handle held twice, the sequencer's
states and the lane's phase consistent, pins claimed exactly by the sessions, queues within their depths, the buffers'
memory canonical, reports what DecodeFn gives, reserved fields 0 (10_state R36 to R45; 60_exceptions R270, R272). -/
def Obligations.InvariantKept : Prop := ∀ s t : State, s.Inv → step s = .next t → t.Inv

/-- The parameters are constant during a run (70_reset_and_hazards R303; 00_scope R4). -/
def Obligations.ParametersConstant : Prop := ∀ s t : State, step s = .next t → t.params = s.params

/-! CALC_DIV (40_divider). -/

/-- CALC_DIV writes the binary32 value nearest to the exact divider, ties to even, and CLAMPED, and nothing else. The
premise bounds the divider by what rounds to a finite value; without it see log 14. -/
def Obligations.CalcDivNearestEven : Prop :=
  ∀ (us : Bool) (s : State), s.ready →
    let p1 : ℚ := if s.arg0 = 0 then 1 else (s.arg0.toNat : ℚ)
    let d : ℚ := (s.params.baseClockHz : ℚ) * p1 * (if us then 1 / 1000000 else 1 / 1000000000)
    let d1 : ℚ := if d < 1 then 1 else d
    d1 < 2 ^ 128 - 2 ^ 103 →
    ∃ (v : Word) (k : Int), f32Value v = .finite k ∧
      exec (.calcDiv us) s = .next { s with
        result := if s.arg0 = 0 ∨ d < 1 then 0x00000110 else 0x00000100
        data0 := v
        data1 := 0 } ∧
      ∀ (w : Word) (m : Int), f32Value w = .finite m →
        |(k : ℚ) / 2 ^ 149 - d1| ≤ |(m : ℚ) / 2 ^ 149 - d1| ∧
        (|(k : ℚ) / 2 ^ 149 - d1| = |(m : ℚ) / 2 ^ 149 - d1| → w ≠ v → v.getLsbD 0 = false)

/-- The corner cases of R132: period 0 gives the DATA0 of period 1 with CLAMPED; otherwise CLAMPED says that the divider
is below 1; DATA0 is a normal value of at least 1.0; a value above DIV_MAX is one that CFG_CAPTURE rejects. -/
def Obligations.CalcDivCorners : Prop :=
  ∀ (us : Bool) (s : State), s.ready → 1 ≤ s.params.baseClockHz → s.params.baseClockHz < 2 ^ 64 →
    ∃ v r : Word, exec (.calcDiv us) s = .next { s with result := r, data0 := v, data1 := 0 } ∧
      (s.arg0 = 0 → r = 0x00000110 ∧
        ∃ r', exec (.calcDiv us) { s with arg0 := 1 } = .next { s with arg0 := 1, result := r', data0 := v, data1 := 0 }) ∧
      (s.arg0 ≠ 0 → (r.getLsbD 4 = true ↔
        s.params.baseClockHz * s.arg0.toNat < (if us then 1000000 else 1000000000))) ∧
      0x3F800000 ≤ v.toNat ∧ v.toNat < 0x7F800000 ∧
      ((f32Value s.params.divMax).lt (f32Value v) = true → ∀ base n, exec (.cfgCapture base n) { s with arg0 := v } =
        .next { s with arg0 := v, result := 0x00000202, data0 := 0, data1 := 0 })

/-! The capture commands (41_capture). -/

/-- CFG_CAPTURE rejects a pin count outside the domain, a group past the last pin, and a divider that is no finite value
from 1.0 to DIV_MAX, and then changes nothing but the result registers (R141, R142). -/
def Obligations.CfgCaptureRejects : Prop :=
  ∀ (base n : Nat) (s : State), s.ready → s.params.wf = true →
    (n ∉ [1, 2, 4, 8, 16, 32] ∨ s.params.nPins < base + n ∨
      ¬ ∃ k top : Int, f32Value s.arg0 = .finite k ∧ f32Value s.params.divMax = .finite top ∧ 2 ^ 149 ≤ k ∧ k ≤ top) →
    exec (.cfgCapture base n) s = .next { s with result := 0x00000202, data0 := 0, data1 := 0 }

/-- The accepted dividers are a range of patterns, from that of 1.0 to DIV_MAX: no zero, negative value, subnormal,
infinity or NaN is among them (R142). -/
def Obligations.DividerAcceptedRange : Prop :=
  ∀ (p : Params) (dv : Word), p.wf = true →
    (dividerRejected p dv = false ↔ 0x3F800000 ≤ dv.toNat ∧ dv.toNat ≤ p.divMax.toNat)

/-- CFG_CAPTURE past its validation: RESOURCE_EXHAUSTED with nothing else changed while a session exists, a pin of the
group is claimed, or no lane or program slot is free (R143); otherwise it claims one of each, and the pins, and enters
Configuring with the lane off (R144). -/
def Obligations.CfgCaptureClaims : Prop :=
  ∀ (base n : Nat) (s : State), s.ready → s.params.wf = true → n ∈ [1, 2, 4, 8, 16, 32] → base + n ≤ s.params.nPins →
    dividerRejected s.params s.arg0 = false →
    let inUse := s.cs.state ≠ .idle ∧ s.cs.state ≠ .released
    let owned := ∃ q : Fin 32, base ≤ q.val ∧ q.val < base + n ∧ s.pinOwner[q] ≠ .none
    let laneFree := ∃ l, s.isFree .lane l = true
    let progFree := ∃ p, s.isFree .prog p = true
    (inUse ∨ owned ∨ ¬ laneFree ∨ ¬ progFree →
      exec (.cfgCapture base n) s = .next { s with result := 0x00000201, data0 := 0, data1 := 0 }) ∧
    (¬ inUse → ¬ owned → laneFree → progFree →
      ∃ l p h owner pad, s.isFree .lane l = true ∧ s.isFree .prog p = true ∧
        exec (.cfgCapture base n) s = .next { s with
          held := h
          pinOwner := owner
          pad := pad
          cs := { s.cs with
            state := .configuring, lane := some l, prog := some p, pinBase := BitVec.ofNat 5 base
            pinCount := BitVec.ofNat 6 n, div := s.arg0 }
          lc := { phase := .off, isr := 0, cnt := 0, rxc := [] }
          result := 0x00000200
          data0 := 0
          data1 := 0 } ∧
        (∀ i, i ∈ h.lane ↔ i = l ∨ i ∈ s.held.lane) ∧ (∀ i, i ∈ h.prog ↔ i = p ∨ i ∈ s.held.prog) ∧
        h.xfer = s.held.xfer ∧ h.irq = s.held.irq ∧
        ∀ q : Fin 32, owner[q] = (if base ≤ q.val ∧ q.val < base + n then .capture else s.pinOwner[q]) ∧
          pad[q] = (if base ≤ q.val ∧ q.val < base + n then .captureInput else s.pad[q]))

/-- ReleaseSession() frees the session's channel, lane, program slot and pins and clears the lane; pads, configuration
and divider stay (R152). -/
def Obligations.ReleaseSession : Prop :=
  ∀ s : State, ∃ h owner, s.releaseSession = { s with
      lc := { phase := .off, isr := 0, cnt := 0, rxc := [] }
      held := h
      cs := { s.cs with xfer := none, lane := none, prog := none }
      pinOwner := owner } ∧
    (∀ i, i ∈ h.xfer ↔ i ∈ s.held.xfer ∧ s.cs.xfer ≠ some i) ∧
    (∀ i, i ∈ h.lane ↔ i ∈ s.held.lane ∧ s.cs.lane ≠ some i) ∧
    (∀ i, i ∈ h.prog ↔ i ∈ s.held.prog ∧ s.cs.prog ≠ some i) ∧ h.irq = s.held.irq ∧
    ∀ q : Fin 32, owner[q] =
      if s.cs.pinBase.toNat ≤ q.val ∧ q.val < s.cs.pinBase.toNat + s.cs.pinCount.toNat then .none else s.pinOwner[q]

/-- RUN_CAPTURE: NO_SESSION outside Configuring; INVALID_CONFIGURATION with the session kept; the unwind to Idle when no
channel is free; and otherwise the armed capture in Transferring, its lane waiting for the trigger (R150). -/
def Obligations.RunCapture : Prop :=
  ∀ (tp : Nat) (pol : Bool) (s : State), s.ready →
    let cap := s.arg0.toNat
    let invalid := cap < 1 ∨ s.params.capbufWords < cap ∨ s.params.nPins ≤ tp
    (s.cs.state ≠ .configuring → exec (.runCapture tp pol) s = .next { s with fault := true, faultCode := 2 }) ∧
    (s.cs.state = .configuring → invalid →
      exec (.runCapture tp pol) s = .next { s with result := 0x00000302, data0 := 0, data1 := 0 }) ∧
    (s.cs.state = .configuring → ¬ invalid → (¬ ∃ x, s.isFree .xfer x = true) →
      exec (.runCapture tp pol) s = .next { s.releaseSession with
        cs := { s.releaseSession.cs with state := .idle }
        result := 0x00000301
        data0 := 0
        data1 := 0 }) ∧
    (s.cs.state = .configuring → ¬ invalid → (∃ x, s.isFree .xfer x = true) →
      ∃ x h, s.isFree .xfer x = true ∧
        exec (.runCapture tp pol) s = .next { s with
          held := h
          cs := { s.cs with
            state := .transferring, xfer := some x, cap := cap, idx := 0, trigPin := BitVec.ofNat 5 tp, trigPol := pol
            trigSeen := false }
          lc := { phase := .wait, isr := 0, cnt := 0, rxc := [] }
          buf := { s.buf with valid := false }
          result := 0x00000300
          data0 := 0
          data1 := 0 } ∧
        (∀ i, i ∈ h.xfer ↔ i = x ∨ i ∈ s.held.xfer) ∧
        h.lane = s.held.lane ∧ h.prog = s.held.prog ∧ h.irq = s.held.irq)

/-- RELEASE_CAPTURE releases a configured session and returns to Idle; without one it raises NO_SESSION; a running capture
cannot be released, for BUSY_VIOLATION comes first (R155). -/
def Obligations.ReleaseCapture : Prop :=
  ∀ s : State, s.fault = false →
    (s.busy = true → exec .releaseCapture s = .next { s with fault := true, faultCode := 7 }) ∧
    (s.busy = false → s.cs.state ≠ .configuring →
      exec .releaseCapture s = .next { s with fault := true, faultCode := 2 }) ∧
    (s.cs.state = .configuring → exec .releaseCapture s = .next { s.releaseSession with
      cs := { s.releaseSession.cs with state := .idle }
      result := 0x00000400
      data0 := 0
      data1 := 0 })

/-! The capture lane and the bulk mover (41_capture). -/

/-- The TRIGGER step: with no fault, the lane waiting and the trigger pin at its level, the lane runs and the trigger is
seen (R160, R165). The model's choice: a lane event brings its pin levels (log 6), and where the step is not enabled, the
pin not there or a fault set, it changes nothing else (log 2). -/
def Obligations.TriggerStep : Prop :=
  ∀ (s : State) (levels : Word), s.lc.phase = .wait →
    (s.fault = false → levels.getLsbD s.cs.trigPin.toNat = s.cs.trigPol →
      runEvent (.lane levels) s = .next { s with
        pins := levels, lc := { s.lc with phase := .run }, cs := { s.cs with trigSeen := true } }) ∧
    (s.fault = true ∨ levels.getLsbD s.cs.trigPin.toNat ≠ s.cs.trigPol →
      runEvent (.lane levels) s = .next { s with pins := levels })

/-- The SAMPLE step: the levels of the session's pins are shifted in from the high end, and the word is pushed once it is
full; it is not enabled when it would complete a word while the receive queue is full, or with a fault set (R161, R166).
The model's choice: a lane event brings its pin levels (log 6), and where the step is not enabled it changes nothing else
(log 2). -/
def Obligations.SampleStep : Prop :=
  ∀ (s : State) (levels : Word), s.lc.phase = .run → s.cs.pinCount.toNat ∈ [1, 2, 4, 8, 16, 32] →
    let n := s.cs.pinCount.toNat
    let full := 32 ≤ s.lc.cnt + n
    let stalled := full ∧ s.lc.rxc.length = s.params.rxcDepth
    ∃ v : Word, (∀ i, v.getLsbD i = (decide (i < n) && levels.getLsbD (s.cs.pinBase.toNat + i))) ∧
      let isr := (s.lc.isr >>> n) ||| (v <<< (32 - n))
      (s.fault = true ∨ stalled → runEvent (.lane levels) s = .next { s with pins := levels }) ∧
      (s.fault = false → ¬ stalled → full → runEvent (.lane levels) s = .next { s with
        pins := levels, lc := { s.lc with rxc := s.lc.rxc ++ [isr], isr := 0, cnt := 0 } }) ∧
      (s.fault = false → ¬ full → runEvent (.lane levels) s = .next { s with
        pins := levels, lc := { s.lc with isr := isr, cnt := s.lc.cnt + n } })

/-- WAIT_GPIO as an instruction: it completes as the TRIGGER step when its pin is at its level, and otherwise the lane
stays blocked on it (30_encoding R108; 41_capture R160, R165). That it does so for every polarity and GPIO of its own
fields, also where no session has injected it, is the model's choice (log 15), as are the levels standing in `pins` (log 6) and
that a blocked one changes nothing (log 2). -/
def Obligations.WaitGpioInstruction : Prop :=
  ∀ (pol : Bool) (gpio : Nat) (s : State), s.fault = false → s.lc.phase = .wait →
    (s.pins.getLsbD gpio = pol → exec (.waitGpio pol gpio) s = .next { s with
      lc := { s.lc with phase := .run }, cs := { s.cs with trigSeen := true } }) ∧
    (s.pins.getLsbD gpio ≠ pol → exec (.waitGpio pol gpio) s = .next s)

/-- IN_PINS as an instruction, 0 standing for 32 bits: one SAMPLE step, with the merge threshold T(n) = 32 - (32 mod n)
(30_encoding R108; 41_capture R161, R162, R166). That a bit count no session has samples so many pins with that threshold
is the model's choice (log 15), as are the levels standing in `pins` (log 6) and that a stalled one changes nothing (log 2). -/
def Obligations.InPinsInstruction : Prop :=
  ∀ (bitCount : Nat) (s : State), bitCount < 32 → s.fault = false → s.lc.phase = .run →
    let n := if bitCount = 0 then 32 else bitCount
    let full := 32 - 32 % n ≤ s.lc.cnt + n
    let v := sampleOf s.pins s.cs.pinBase.toNat n
    let isr := (s.lc.isr >>> n) ||| (v <<< (32 - n))
    (full → s.lc.rxc.length = s.params.rxcDepth → exec (.inPins bitCount) s = .next s) ∧
    (full → s.lc.rxc.length ≠ s.params.rxcDepth → exec (.inPins bitCount) s = .next { s with
      lc := { s.lc with rxc := s.lc.rxc ++ [isr], isr := 0, cnt := 0 } }) ∧
    (¬ full → exec (.inPins bitCount) s = .next { s with lc := { s.lc with isr := isr, cnt := s.lc.cnt + n } })

/-- A word of the capture lane holds its samples in order from the low end: from an empty merge, 32 / n SAMPLE steps push
one word whose bit p + j*n is the level of pin base + p at sample j (41_capture R161, R163). It says so of 32 / n lane
events in a row, which find room in the receive queue, and not of every word pushed under R161. The model's choice: the
order of the events is the schedule's (log 1), and a lane event brings its pin levels (log 6). -/
def Obligations.CaptureWordLayout : Prop :=
  ∀ (s : State) (samples : List Word), s.fault = false → s.lc.phase = .run →
    s.cs.pinCount.toNat ∈ [1, 2, 4, 8, 16, 32] → s.lc.isr = 0 → s.lc.cnt = 0 → s.lc.rxc.length < s.params.rxcDepth →
    samples.length = 32 / s.cs.pinCount.toNat →
    ∃ (t : State) (w : Word), Runs s (samples.map .lane) t ∧
      t.lc = { s.lc with rxc := s.lc.rxc ++ [w], isr := 0, cnt := 0 } ∧ t.cs = s.cs ∧ t.mem = s.mem ∧
      ∀ p j, p < s.cs.pinCount.toNat → j < 32 / s.cs.pinCount.toNat →
        w.getLsbD (p + j * s.cs.pinCount.toNat) = (samples.getD j 0).getLsbD (s.cs.pinBase.toNat + p)

/-- The words of one capture, over any run of the block's agents and host reads from the accepted RUN_CAPTURE on: the
words moved so far hold, in order, samples taken by lane steps after the one that saw the trigger (20_memory R81;
41_capture R160, R163). It does not say that every lane step after the trigger is a sample, for a stalled one is none,
nor does it speak of runs with host writes or a reset. The model's choice: the order of the events is the schedule's
(log 1), a lane event brings its pin levels (log 6), and events that are not enabled may stand among them (log 2). -/
def Obligations.CaptureHoldsSamplesInOrder : Prop :=
  ∀ (s t : State) (evs : List Event), s.fault = false → s.cs.state = .transferring →
    s.lc = { phase := .wait, isr := 0, cnt := 0, rxc := [] } → s.cs.idx = 0 → s.cs.cap ≤ s.params.capbufWords →
    s.cs.pinCount.toNat ∈ [1, 2, 4, 8, 16, 32] →
    (∀ e ∈ evs, (∃ levels, e = .lane levels) ∨ e = .xfer ∨ (∃ f, e = .frame f) ∨ e = .latch ∨ e = .handle ∨
      ∃ a, e = .host a ∧ a.kind = .read) →
    Runs s evs t → 0 < t.cs.idx →
    let n := s.cs.pinCount.toNat
    ∃ (before after : List Event) (levels : Word) (samples : List Word),
      evs = before ++ .lane levels :: after ∧ levels.getLsbD s.cs.trigPin.toNat = s.cs.trigPol ∧
      samples.Sublist (laneLevels after) ∧ t.cs.idx * (32 / n) ≤ samples.length ∧
      ∀ i p j, i < t.cs.idx → p < n → j < 32 / n →
        (t.capRead i).getLsbD (p + j * n) = (samples.getD (i * (32 / n) + j) 0).getLsbD (s.cs.pinBase.toNat + p)

/-- The XFER step moves the head of the receive queue to the next capture word, and nothing else of the buffers; the move
that writes the last word releases the session and leaves RUN_CAPTURE's result, the buffer's record and Released
(R170, R171). That its event does nothing where the step is not enabled is the model's choice (log 2). -/
def Obligations.XferStep : Prop :=
  ∀ s : State,
    (s.fault = true ∨ s.cs.state ≠ .transferring ∨ s.lc.rxc = [] ∨ s.cs.cap ≤ s.cs.idx → runEvent .xfer s = .next s) ∧
    ∀ w rest, s.fault = false → s.cs.state = .transferring → s.lc.rxc = w :: rest → s.cs.idx < s.cs.cap →
      s.cs.cap ≤ s.params.capbufWords →
      ∃ m, Mem.word m (capOffset s.cs.idx) = w ∧
        (∀ a, a < capOffset s.cs.idx ∨ capOffset s.cs.idx + 4 ≤ a → Mem.byte m a = Mem.byte s.mem a) ∧
        (s.cs.idx + 1 ≠ s.cs.cap → runEvent .xfer s = .next { s with
          mem := m, lc := { s.lc with rxc := rest }, cs := { s.cs with idx := s.cs.idx + 1 } }) ∧
        (s.cs.idx + 1 = s.cs.cap → runEvent .xfer s = .next { s.releaseSession with
          mem := m
          cs := { s.releaseSession.cs with state := .released, idx := s.cs.cap }
          buf := { valid := true, words := s.cs.cap, pinCount := s.cs.pinCount }
          result := 0x00000300
          data0 := BitVec.ofNat 32 s.cs.cap
          data1 := 0 })

/-- Only a completing XFER step and reset leave Transferring (41_capture R173; 70_reset_and_hazards R301). -/
def Obligations.TransferringLeftOnlyByCompletionOrReset : Prop :=
  ∀ s t : State, s.cs.state = .transferring → step s = .next t →
    t.cs.state = .transferring ∨
    (s.takeEvent.1 = .xfer ∧ s.fault = false ∧ t.cs.state = .released ∧ t.cs.idx = t.cs.cap ∧ t.buf.valid = true) ∨
    ∃ draws, s.takeEvent.1 = .reset draws

/-- CS_CFG and CS_DIV are immutable while a capture is Armed or Transferring (10_state R30, R31). -/
def Obligations.ConfigImmutableWhileBusy : Prop :=
  ∀ s t : State, s.busy = true → step s = .next t → (¬ ∃ draws, s.takeEvent.1 = .reset draws) →
    t.csCfg = s.csCfg ∧ t.cs.div = s.cs.div

/-! RECONSTRUCT (42_reconstruct). -/

/-- RECONSTRUCT rejects a pin count outside the domain and a word count outside the buffer, and then changes nothing but
the result registers (R192). -/
def Obligations.ReconstructRejects : Prop :=
  ∀ (n : Nat) (s : State), s.ready →
    (n ∉ [1, 2, 4, 8, 16, 32] ∨ s.arg0.toNat < 1 ∨ s.params.capbufWords < s.arg0.toNat) →
    exec (.reconstruct n) s = .next { s with result := 0x00000502, data0 := 0, data1 := 0 }

/-- RECONSTRUCT packs the n sequences end to end into the first N plane words, bit b of them being element b mod L of pin
b div L, and writes no other byte of the buffers (R193). -/
def Obligations.ReconstructEffect : Prop :=
  ∀ (n : Nat) (s : State), s.ready → s.params.wf = true → n ∈ [1, 2, 4, 8, 16, 32] →
    1 ≤ s.arg0.toNat → s.arg0.toNat ≤ s.params.capbufWords →
    let words := s.arg0.toNat
    let len := words * 32 / n
    ∃ m, exec (.reconstruct n) s = .next { s with
        mem := m
        plane := { valid := true, words := words, pinCount := BitVec.ofNat 6 n }
        result := 0x00000500
        data0 := s.arg0
        data1 := 0 } ∧
      (∀ b, b < 32 * words → (Mem.word m (planeOffset (b / 32))).getLsbD (b % 32) =
        (s.capRead (b % len / (32 / n))).getLsbD ((b / len + b % len * n) % 32)) ∧
      (∀ a, a < planeOffset 0 ∨ planeOffset words ≤ a → Mem.byte m a = Mem.byte s.mem a)

/-- The plane function is the iteration form: pin p's sequence, word by word, takes the bits p, p + n, p + 2n, ... of each
word (R190, R191). -/
def Obligations.PlaneIterationForm : Prop :=
  ∀ (buf : Nat → Word) (n words p : Nat), n ∈ [1, 2, 4, 8, 16, 32] → p < n →
    (∀ m j, j < 32 / n → planeBit buf n p (m * (32 / n) + j) = (buf m).getLsbD (p + j * n)) ∧
    (List.range words).flatMap (fun m => (List.range (32 / n)).map (fun j => (buf m).getLsbD (p + j * n))) =
      (List.range (words * 32 / n)).map (planeBit buf n p)

/-- Re-interleaving the sequences gives the buffer back, bit for bit: as functions, where it makes the transform one to
one and onto, and in the machine, where the sequences are read from the plane buffer that RECONSTRUCT has packed
(R196). -/
def Obligations.ReconstructRoundTrip : Prop :=
  (∀ n : Nat, n ∈ [1, 2, 4, 8, 16, 32] → ∀ words : Nat,
    (∀ (buf : Nat → Word) (m i : Nat), m < words → i < 32 →
      planeBit buf n (i % n) (m * (32 / n) + i / n) = (buf m).getLsbD i) ∧
    (∀ seqs : Nat → Nat → Bool, ∃ buf : Nat → Word, ∀ p k, p < n → k < words * 32 / n →
      planeBit buf n p k = seqs p k)) ∧
  ∀ (n : Nat) (s : State), s.ready → s.params.wf = true → n ∈ [1, 2, 4, 8, 16, 32] →
    1 ≤ s.arg0.toNat → s.arg0.toNat ≤ s.params.capbufWords →
    ∃ t, exec (.reconstruct n) s = .next t ∧
      ∀ m i, m < s.arg0.toNat → i < 32 →
        let b := i % n * (s.arg0.toNat * 32 / n) + (m * (32 / n) + i / n)
        (t.planeRead (b / 32)).getLsbD (b % 32) = (s.capRead m).getLsbD i

/-- One pin is the identity, and 32 pins a bit transpose (R194). -/
def Obligations.ReconstructCorners : Prop :=
  ∀ s : State, s.ready → s.params.wf = true → 1 ≤ s.arg0.toNat → s.arg0.toNat ≤ s.params.capbufWords →
    (∃ t, exec (.reconstruct 1) s = .next t ∧ ∀ i, i < s.arg0.toNat → t.planeRead i = s.capRead i) ∧
    (∃ t, exec (.reconstruct 32) s = .next t ∧ ∀ p k, p < 32 → k < s.arg0.toNat →
      (t.planeRead ((p * s.arg0.toNat + k) / 32)).getLsbD ((p * s.arg0.toNat + k) % 32) = (s.capRead k).getLsbD p)

/-! The decoder (43_decoder). -/

/-- INIT_DECODER: INVALID_CONFIGURATION past the last pin; RESOURCE_EXHAUSTED while a session is active, the pin is
claimed, or no lane or program slot is free; otherwise the decoder session starts with an empty queue (R211). -/
def Obligations.InitDecoder : Prop :=
  ∀ (pin : Nat) (s : State), s.ready →
    let owned := ∃ q : Fin 32, q.val = pin ∧ s.pinOwner[q] ≠ .none
    let laneFree := ∃ l, s.isFree .lane l = true
    let progFree := ∃ p, s.isFree .prog p = true
    (s.params.nPins ≤ pin →
      exec (.initDecoder pin) s = .next { s with result := 0x00000602, data0 := 0, data1 := 0 }) ∧
    (pin < s.params.nPins → s.dec.active = true ∨ owned ∨ ¬ laneFree ∨ ¬ progFree →
      exec (.initDecoder pin) s = .next { s with result := 0x00000601, data0 := 0, data1 := 0 }) ∧
    (pin < s.params.nPins → s.dec.active = false → ¬ owned → laneFree → progFree →
      ∃ l p h owner pad, s.isFree .lane l = true ∧ s.isFree .prog p = true ∧
        exec (.initDecoder pin) s = .next { s with
          held := h
          pinOwner := owner
          pad := pad
          dec := { active := true, pin := BitVec.ofNat 5 pin, lane := some l, prog := some p, rxd := [] }
          result := 0x00000600
          data0 := 0
          data1 := 0 } ∧
        (∀ i, i ∈ h.lane ↔ i = l ∨ i ∈ s.held.lane) ∧ (∀ i, i ∈ h.prog ↔ i = p ∨ i ∈ s.held.prog) ∧
        h.xfer = s.held.xfer ∧ h.irq = s.held.irq ∧
        ∀ q : Fin 32, owner[q] = (if q.val = pin then .decoder else s.pinOwner[q]) ∧
          pad[q] = (if q.val = pin then .decoderInput else s.pad[q]))

/-- DEINIT_DECODER: NO_DECODER, then NOTIFY_STILL_ENABLED; otherwise the queue is emptied and the lane, the program slot
and the pin are released; pads, DEC_PIN and reports stay (R212). -/
def Obligations.DeinitDecoder : Prop :=
  ∀ s : State, s.ready →
    (s.dec.active = false → exec .deinitDecoder s = .next { s with fault := true, faultCode := 3 }) ∧
    (s.dec.active = true → s.nt.en = true → exec .deinitDecoder s = .next { s with fault := true, faultCode := 5 }) ∧
    (s.dec.active = true → s.nt.en = false → ∃ h owner,
      exec .deinitDecoder s = .next { s with
        held := h
        pinOwner := owner
        dec := { s.dec with active := false, lane := none, prog := none, rxd := [] }
        result := 0x00000700
        data0 := 0
        data1 := 0 } ∧
      (∀ i, i ∈ h.lane ↔ i ∈ s.held.lane ∧ s.dec.lane ≠ some i) ∧
      (∀ i, i ∈ h.prog ↔ i ∈ s.held.prog ∧ s.dec.prog ≠ some i) ∧ h.xfer = s.held.xfer ∧ h.irq = s.held.irq ∧
      ∀ q : Fin 32, owner[q] = if q.val = s.dec.pin.toNat then .none else s.pinOwner[q])

/-- POLL_FRAME: NO_DECODER without a session; PRESENT = 0 on an empty queue; otherwise the head of the queue is consumed
and returned in DATA0 (R217). -/
def Obligations.PollFrame : Prop :=
  ∀ s : State, s.ready →
    (s.dec.active = false → exec .pollFrame s = .next { s with fault := true, faultCode := 3 }) ∧
    (s.dec.active = true → s.dec.rxd = [] →
      exec .pollFrame s = .next { s with result := 0x00000800, data0 := 0, data1 := 0 }) ∧
    (∀ r rest, s.dec.active = true → s.dec.rxd = r :: rest → exec .pollFrame s = .next { s with
      dec := { s.dec with rxd := rest }, result := 0x00000820, data0 := r, data1 := 0 })

/-- DECODE of the frame in ARG0: a frame whose inverted bytes are not the inverses, or whose repeat field REPEAT_FN calls
invalid, is MALFORMED_FRAME with DATA1 = 0; a valid one gives its fields. DATA0 is the raw frame either way
(R214, R215, R216). -/
def Obligations.DecodeCommand : Prop :=
  ∀ s : State, s.ready →
    let r := s.arg0
    let valid := r.extractLsb' 8 8 = r.extractLsb' 0 8 ^^^ 0xFF ∧ r.extractLsb' 24 8 = r.extractLsb' 16 8 ^^^ 0xFF
    (¬ valid ∨ repeatOf s.params r = .invalid →
      exec .decode s = .next { s with result := 0x00000903, data0 := r, data1 := 0 }) ∧
    (valid → repeatOf s.params r = .absent → exec .decode s = .next { s with
      result := 0x00000900, data0 := r, data1 := 0x01#8 ++ 0#8 ++ r.extractLsb' 16 8 ++ r.extractLsb' 0 8 }) ∧
    (∀ x, valid → repeatOf s.params r = .present x → exec .decode s = .next { s with
      result := 0x00000900, data0 := r, data1 := 0x03#8 ++ x ++ r.extractLsb' 16 8 ++ r.extractLsb' 0 8 })

/-- Decoding the frame of an address and a data byte recovers both (R219). -/
def Obligations.FrameRoundTrip : Prop :=
  ∀ a d : Byte, encodeFrame a d = ~~~d ++ d ++ ~~~a ++ a ∧ frameValid (encodeFrame a d) = true ∧
    ∀ s : State, s.ready → (∀ r, repeatOf s.params r = .absent) → s.arg0 = encodeFrame a d →
      ∃ f : Word, exec .decode s = .next { s with result := 0x00000900, data0 := s.arg0, data1 := f } ∧
        f.extractLsb' 0 8 = a ∧ f.extractLsb' 8 8 = d ∧ f.getLsbD 24 = true

/-- A frame that fails either inversion is MALFORMED_FRAME whatever REPEAT_FN is, and exactly 65,536 frames are valid, the
image of ENCODE, which is injective (R220). -/
def Obligations.FrameRejection : Prop :=
  (∀ s : State, s.ready →
    (s.arg0.extractLsb' 8 8 ≠ s.arg0.extractLsb' 0 8 ^^^ 0xFF ∨ s.arg0.extractLsb' 24 8 ≠ s.arg0.extractLsb' 16 8 ^^^ 0xFF) →
    exec .decode s = .next { s with result := 0x00000903, data0 := s.arg0, data1 := 0 }) ∧
  (∀ r : Word, frameValid r = true ↔ ∃ a d, r = encodeFrame a d) ∧
  (∀ a d a' d' : Byte, encodeFrame a d = encodeFrame a' d' → a = a' ∧ d = d') ∧
  Set.ncard { r : Word | frameValid r = true } = 65536

/-- The FRAME step pushes the drawn frame while a decoder session is active and its queue has room (R218). That its event
otherwise does nothing is the model's choice (log 2). -/
def Obligations.FrameStep : Prop :=
  ∀ (s : State) (f : Word),
    (s.fault = false → s.dec.active = true → s.dec.rxd.length < s.params.rxdDepth →
      runEvent (.frame f) s = .next { s with dec := { s.dec with rxd := s.dec.rxd ++ [f] } }) ∧
    (s.fault = true ∨ s.dec.active = false ∨ s.params.rxdDepth ≤ s.dec.rxd.length → runEvent (.frame f) s = .next s)

/-! Notification (44_notification). -/

/-- SET_NOTIFY ON: NO_DECODER, then DOUBLE_ENABLE, then IRQ_EXHAUSTED; otherwise a line is claimed and notification is
enabled with nothing pending (R241). -/
def Obligations.SetNotifyOn : Prop :=
  ∀ s : State, s.ready →
    (s.dec.active = false → exec (.setNotify true) s = .next { s with fault := true, faultCode := 3 }) ∧
    (s.dec.active = true → s.nt.en = true → exec (.setNotify true) s = .next { s with fault := true, faultCode := 4 }) ∧
    (s.dec.active = true → s.nt.en = false → (¬ ∃ i, s.isFree .irq i = true) →
      exec (.setNotify true) s = .next { s with fault := true, faultCode := 6 }) ∧
    (s.dec.active = true → s.nt.en = false → (∃ i, s.isFree .irq i = true) → ∃ i h, s.isFree .irq i = true ∧
      exec (.setNotify true) s = .next { s with
        held := h
        nt := { s.nt with line := some i, pending := false, en := true }
        result := 0x00000A00
        data0 := 0
        data1 := 0 } ∧
      (∀ j, j ∈ h.irq ↔ j = i ∨ j ∈ s.held.irq) ∧
      h.lane = s.held.lane ∧ h.prog = s.held.prog ∧ h.xfer = s.held.xfer)

/-- SET_NOTIFY OFF: NO_DECODER without a session; a no-op with result OK when already off; otherwise notification is
disabled and its line released; frames and reports stay (R242). -/
def Obligations.SetNotifyOff : Prop :=
  ∀ s : State, s.ready →
    (s.dec.active = false → exec (.setNotify false) s = .next { s with fault := true, faultCode := 3 }) ∧
    (s.dec.active = true → s.nt.en = false →
      exec (.setNotify false) s = .next { s with result := 0x00000A00, data0 := 0, data1 := 0 }) ∧
    (s.dec.active = true → s.nt.en = true → ∃ h,
      exec (.setNotify false) s = .next { s with
        held := h
        nt := { s.nt with en := false, pending := false, line := none }
        result := 0x00000A00
        data0 := 0
        data1 := 0 } ∧
      (∀ j, j ∈ h.irq ↔ j ∈ s.held.irq ∧ s.nt.line ≠ some j) ∧
      h.lane = s.held.lane ∧ h.prog = s.held.prog ∧ h.xfer = s.held.xfer)

/-- The LATCH step sets pending while notification is enabled and a frame waits (R243). That its event otherwise does
nothing is the model's choice (log 2). -/
def Obligations.LatchStep : Prop :=
  ∀ s : State,
    (s.fault = false → s.nt.en = true → s.dec.rxd ≠ [] → s.nt.pending = false →
      runEvent .latch s = .next { s with nt := { s.nt with pending := true } }) ∧
    (s.fault = true ∨ s.nt.en = false ∨ s.dec.rxd = [] ∨ s.nt.pending = true → runEvent .latch s = .next s)

/-- The HANDLE step clears pending and consumes at most one frame: its report is queued, or dropped with RPT_OVF set when
the report queue is full. It writes no result register and not ARG0 (R244). That its event does nothing where the step is
not enabled is the model's choice (log 2). -/
def Obligations.HandleStep : Prop :=
  ∀ s : State,
    (s.fault = true ∨ s.nt.en = false ∨ s.nt.pending = false → runEvent .handle s = .next s) ∧
    (s.fault = false → s.nt.en = true → s.nt.pending = true → s.dec.rxd = [] →
      runEvent .handle s = .next { s with nt := { s.nt with pending := false } }) ∧
    (∀ r rest, s.fault = false → s.nt.en = true → s.nt.pending = true → s.dec.rxd = r :: rest →
      (s.nt.rpt.length < s.params.reportDepth → runEvent .handle s = .next { s with
        dec := { s.dec with rxd := rest }
        nt := { s.nt with
          pending := false
          rpt := s.nt.rpt ++ [{ raw := r, code := (decodeFrame s.params r).1, fields := (decodeFrame s.params r).2 }] } }) ∧
      (s.params.reportDepth ≤ s.nt.rpt.length → runEvent .handle s = .next { s with
        dec := { s.dec with rxd := rest }, nt := { s.nt with pending := false, ovf := true } }))

/-- POP_REPORT returns and consumes the oldest report, its code as the result code; PRESENT = 0 on an empty queue. It
needs no decoder session, and RPT_OVF stays (R245). -/
def Obligations.PopReport : Prop :=
  ∀ s : State, s.ready →
    (s.nt.rpt = [] → exec .popReport s = .next { s with result := 0x00000B00, data0 := 0, data1 := 0 }) ∧
    (∀ rep rest, s.nt.rpt = rep :: rest → exec .popReport s = .next { s with
      nt := { s.nt with rpt := rest }
      result := (if rep.code = .ok then 0x00000B20 else 0x00000B23)
      data0 := rep.raw
      data1 := rep.fields })

/-- irq_out is high exactly while notification is enabled and a report waits, and it falls only when POP_REPORT empties
the queue, SET_NOTIFY OFF runs, or reset comes (R246; 70_reset_and_hazards R300). -/
def Obligations.IrqOutput : Prop :=
  ∀ s : State, (s.irqOut = true ↔ s.nt.en = true ∧ s.nt.rpt ≠ []) ∧
    ∀ t, step s = .next t → s.irqOut = true → t.irqOut = false →
      (s.issues 0x0B000000 ∧ s.nt.rpt.length = 1) ∨ s.issues 0x0A000000 ∨ ∃ draws, s.takeEvent.1 = .reset draws

/-- A frame leaves the decoder's queue one at a time from its head, to POLL_FRAME's DATA0 or to the handler, and to one of
them only; the queue is otherwise emptied only with its session (20_memory R82; 44_notification R247). -/
def Obligations.FrameDeliveredOnce : Prop :=
  ∀ s t : State, step s = .next t →
    t.dec.rxd = s.dec.rxd ∨
    (∃ f, s.takeEvent.1 = .frame f ∧ t.dec.rxd = s.dec.rxd ++ [f]) ∨
    (∃ r, s.dec.rxd = r :: t.dec.rxd ∧
      ((s.issues 0x08000000 ∧ t.result = 0x00000820 ∧ t.data0 = r ∧ t.nt = s.nt) ∨
       (s.takeEvent.1 = .handle ∧ t.result = s.result ∧ t.data0 = s.data0 ∧
         (t.nt.rpt = s.nt.rpt ++ [{ raw := r, code := (decodeFrame s.params r).1, fields := (decodeFrame s.params r).2 }] ∨
          (t.nt.rpt = s.nt.rpt ∧ t.nt.ovf = true))))) ∨
    (t.dec.rxd = [] ∧ (s.issues 0x07000000 ∨ (∃ w pin, s.issues w ∧ decodeCommand w = .ok (.initDecoder pin)) ∨
      ∃ draws, s.takeEvent.1 = .reset draws))

/-! Faults and the host port (60_exceptions, 20_memory). -/

/-- While a fault is set no instruction and no step of an agent changes anything of the block, every host write is
ignored, host reads still answer, and only reset ends it (60_exceptions R273; 20_memory R78). What may change is the
model's own: the schedule, the pin levels, the word returned (logs 1, 6 and 8). That the event of a step not enabled
changes nothing else is the model's choice (log 2). -/
def Obligations.FaultFreezes : Prop :=
  ∀ s : State, s.fault = true →
    (∀ i : Instr, exec i s = .next s) ∧
    (∀ a : Access, a.kind = .write → runEvent (.host a) s = .next s) ∧
    (∀ d, runEvent (.host { kind := .read, offset := 0x008, size := 4, data := d }) s =
      .next { s with readData := s.status }) ∧
    ∀ t, step s = .next t → (∃ draws, s.takeEvent.1 = .reset draws ∧ t.fault = false) ∨
      { t with pins := s.pins, readData := s.readData, sched := s.sched, drawIx := s.drawIx } = s

/-- The step that raises a fault sets the fault and one of the eight codes and has no other effect; a read that faults
returns 0 (60_exceptions R271, R272). The word returned stands in `readData` (log 8). -/
def Obligations.FaultIsPrecise : Prop :=
  ∀ s t : State, s.fault = false → step s = .next t → t.fault = true →
    ∃ (a : Access) (code : BitVec 4), s.takeEvent.1 = .host a ∧ 1 ≤ code.toNat ∧ code.toNat ≤ 8 ∧
      (a.kind = .read → t = { s.takeEvent.2 with fault := true, faultCode := code, readData := 0 }) ∧
      (a.kind = .write → t = { s.takeEvent.2 with fault := true, faultCode := code })

/-- RESULT, DATA0 and DATA1 change only when a command completes, with its opcode in RESULT.OPC, when a capture
completes, or on reset; the handler never writes them (10_state R27; 70_reset_and_hazards R306). -/
def Obligations.ResultWriters : Prop :=
  ∀ s t : State, step s = .next t →
    (t.result = s.result ∧ t.data0 = s.data0 ∧ t.data1 = s.data1) ∨
    (t.fault = false ∧ ∃ w, s.issues w ∧ t.result.extractLsb' 8 8 = w.extractLsb' 24 8) ∨
    (s.takeEvent.1 = .xfer ∧ t.cs.state = .released ∧ t.result = 0x00000300) ∨
    ∃ draws, s.takeEvent.1 = .reset draws

/-- ARG0 changes only by a host write to it, or on reset: no command changes it (10_state R24; 30_encoding R104). -/
def Obligations.Arg0Writers : Prop :=
  ∀ s t : State, step s = .next t →
    t.arg0 = s.arg0 ∨
    (∃ a : Access, s.takeEvent.1 = .host a ∧ a.kind = .write ∧ a.size = 4 ∧ a.offset = 0x004 ∧ t.arg0 = a.data) ∨
    ∃ draws, s.takeEvent.1 = .reset draws

/-- BUS_ERROR: a host access of another width, misaligned or unmapped raises it, a read then returning 0, and so does a
write to a read-only location, before any BUSY check; a write to ARG0 stores and one to CMD issues
(20_memory R72, R73, R74). The model's choice: every offset of 0x3000 or more counts as within the block's decode range
(log 22), and the word returned stands in `readData` (log 8). -/
def Obligations.HostBusErrors : Prop :=
  ∀ (s : State) (a : Access), s.fault = false → s.params.wf = true →
    let off := a.offset.toNat
    let unmapped := a.size ≠ 4 ∨ off % 4 ≠ 0 ∨ (0x030 ≤ off ∧ off < 0x1000) ∨
      (0x1000 ≤ off ∧ off < 0x2000 ∧ s.params.capbufWords ≤ (off - 0x1000) / 4) ∨
      (0x2000 ≤ off ∧ off < 0x3000 ∧ s.params.capbufWords ≤ (off - 0x2000) / 4) ∨ 0x3000 ≤ off
    let readOnly := (0x008 ≤ off ∧ off < 0x030) ∨ (0x2000 ≤ off ∧ off < 0x3000)
    (a.kind = .read → unmapped →
      runEvent (.host a) s = .next { s with fault := true, faultCode := 8, readData := 0 }) ∧
    (a.kind = .write → unmapped ∨ readOnly → runEvent (.host a) s = .next { s with fault := true, faultCode := 8 }) ∧
    (a.kind = .write → ¬ unmapped → off = 0x004 → runEvent (.host a) s = .next { s with arg0 := a.data }) ∧
    (a.kind = .write → ¬ unmapped → off = 0x000 → runEvent (.host a) s = s.issueCommand a.data)

/-- A host read of a mapped word returns its value and has no side effect, with or without a fault set: the registers
(10_state R22 to R35), CAPBUF while not BUSY (20_memory R75) and PLANEBUF whatever BUSY is (R76, R77). While BUSY a CAPBUF
read raises BUSY_VIOLATION and returns 0. While faulted a read that would fault, for its width, its alignment, an unmapped
offset or a CAPBUF word while BUSY, returns 0 and changes nothing (R78). The model's choice: the value returned stands in
`readData` (log 8), and every offset of 0x3000 or more counts as within the block's decode range (log 22). -/
def Obligations.HostReads : Prop :=
  ∀ (s : State) (d : Word), s.params.wf = true →
    let read (off : Nat) := runEvent (.host { kind := .read, offset := BitVec.ofNat 32 off, size := 4, data := d }) s
    (∀ r ∈ [(0x000, 0), (0x004, s.arg0), (0x008, s.status), (0x00C, s.result), (0x010, s.data0), (0x014, s.data1),
        (0x018, s.csCfg), (0x01C, s.cs.div), (0x020, s.csProgress), (0x024, s.decCfg), (0x028, s.bufInfo),
        (0x02C, s.planeInfo)], read r.1 = .next { s with readData := r.2 }) ∧
    (∀ i, i < s.params.capbufWords → read (0x2000 + 4 * i) = .next { s with readData := s.planeRead i }) ∧
    (∀ i, i < s.params.capbufWords →
      (s.busy = false → read (0x1000 + 4 * i) = .next { s with readData := s.capRead i }) ∧
      (s.busy = true → s.fault = false →
        read (0x1000 + 4 * i) = .next { s with fault := true, faultCode := 7, readData := 0 }) ∧
      (s.busy = true → s.fault = true → read (0x1000 + 4 * i) = .next { s with readData := 0 })) ∧
    (∀ a : Access, a.kind = .read → s.fault = true →
      let off := a.offset.toNat
      (a.size ≠ 4 ∨ off % 4 ≠ 0 ∨ (0x030 ≤ off ∧ off < 0x1000) ∨
        (0x1000 ≤ off ∧ off < 0x2000 ∧ s.params.capbufWords ≤ (off - 0x1000) / 4) ∨
        (0x2000 ≤ off ∧ off < 0x3000 ∧ s.params.capbufWords ≤ (off - 0x2000) / 4) ∨ 0x3000 ≤ off) →
      runEvent (.host a) s = .next { s with readData := 0 })

/-- A host write to a CAPBUF word stores it, and no other byte, and clears BUF_VALID; while BUSY it raises BUSY_VIOLATION;
while faulted it is ignored (20_memory R75, R78). -/
def Obligations.HostCapbufWrites : Prop :=
  ∀ (s : State) (i : Nat) (v : Word), s.params.wf = true → i < s.params.capbufWords →
    let write := runEvent (.host { kind := .write, offset := BitVec.ofNat 32 (0x1000 + 4 * i), size := 4, data := v }) s
    (s.ready → ∃ m, write = .next { s with mem := m, buf := { s.buf with valid := false } } ∧
      Mem.word m (capOffset i) = v ∧
      ∀ a, a < capOffset i ∨ capOffset i + 4 ≤ a → Mem.byte m a = Mem.byte s.mem a) ∧
    (s.fault = false → s.busy = true → write = .next { s with fault := true, faultCode := 7 }) ∧
    (s.fault = true → write = .next s)

/-- A plane word changes only by RECONSTRUCT or reset; a capture word only by the XFER step that moves a word to it, a host
write to it, or reset (20_memory R70). -/
def Obligations.BufferWriters : Prop :=
  ∀ (s t : State) (i : Nat), s.params.wf = true → i < s.params.capbufWords → step s = .next t →
    (t.planeRead i ≠ s.planeRead i →
      (∃ w n, s.issues w ∧ decodeCommand w = .ok (.reconstruct n) ∧ i < s.arg0.toNat) ∨
      ∃ draws, s.takeEvent.1 = .reset draws) ∧
    (t.capRead i ≠ s.capRead i →
      (s.takeEvent.1 = .xfer ∧ i = s.cs.idx ∧ ∃ rest, s.lc.rxc = t.capRead i :: rest) ∨
      (∃ a : Access, s.takeEvent.1 = .host a ∧ a.kind = .write ∧ a.offset.toNat = 0x1000 + 4 * i ∧ t.capRead i = a.data) ∨
      ∃ draws, s.takeEvent.1 = .reset draws)

/-- The fields of STATUS, each from the state at the time of the read; the counts are exact because no depth is above 15
(10_state R25). -/
def Obligations.StatusFields : Prop :=
  ∀ s : State, s.lc.rxc.length ≤ 15 → s.nt.rpt.length ≤ 15 → s.dec.rxd.length ≤ 15 →
    (s.status.getLsbD 0 = true ↔ s.cs.state = .armed ∨ s.cs.state = .transferring) ∧
    s.status.extractLsb' 1 3 = (match s.cs.state with
      | .idle => 0 | .configuring => 1 | .armed => 2 | .transferring => 3 | .complete => 4 | .released => 5) ∧
    s.status.getLsbD 4 = s.cs.trigSeen ∧ s.status.getLsbD 5 = s.buf.valid ∧ s.status.getLsbD 6 = s.plane.valid ∧
    s.status.getLsbD 7 = s.dec.active ∧ s.status.getLsbD 8 = s.nt.en ∧ s.status.getLsbD 9 = s.nt.pending ∧
    s.status.getLsbD 10 = s.nt.ovf ∧ s.status.getLsbD 11 = s.fault ∧ s.status.extractLsb' 12 4 = s.faultCode ∧
    (s.status.extractLsb' 16 4).toNat = s.dec.rxd.length ∧ (s.status.extractLsb' 20 4).toNat = s.nt.rpt.length ∧
    (s.status.extractLsb' 24 4).toNat = s.lc.rxc.length ∧ s.status.extractLsb' 28 4 = 0

/-- The read-only views of the session and the buffers: CS_CFG, CS_PROGRESS, DEC_CFG, BUF_INFO and PLANE_INFO
(10_state R30, R32, R33, R34, R35). -/
def Obligations.ViewFields : Prop :=
  ∀ s : State, s.cs.idx ≤ 1024 → s.cs.cap ≤ 1024 → s.buf.words ≤ 1024 → s.plane.words ≤ 1024 →
    s.csCfg.extractLsb' 0 5 = s.cs.pinBase ∧ s.csCfg.extractLsb' 5 6 = s.cs.pinCount ∧
    s.csCfg.extractLsb' 11 5 = s.cs.trigPin ∧ s.csCfg.getLsbD 16 = s.cs.trigPol ∧ s.csCfg.extractLsb' 17 15 = 0 ∧
    (s.csProgress.extractLsb' 0 16).toNat = s.cs.idx ∧ (s.csProgress.extractLsb' 16 16).toNat = s.cs.cap ∧
    s.decCfg.extractLsb' 0 5 = s.dec.pin ∧ s.decCfg.extractLsb' 5 27 = 0 ∧
    (s.bufInfo.extractLsb' 0 16).toNat = s.buf.words ∧ s.bufInfo.extractLsb' 16 6 = s.buf.pinCount ∧
    s.bufInfo.extractLsb' 22 10 = 0 ∧
    (s.planeInfo.extractLsb' 0 16).toNat = s.plane.words ∧ s.planeInfo.extractLsb' 16 6 = s.plane.pinCount ∧
    s.planeInfo.extractLsb' 22 10 = 0

end
end

