-- ==== Sys2Proof/Laws/Memory.lean ====
section
/-! SUPPORT. The laws of the buffers' memory: a byte written is the byte read and no other byte moves, and every operation
keeps the canonical form. -/

namespace Sys2Proof.Machine

theorem Mem.byte_erase (m : Mem) (a x : Nat) : Mem.byte (Mem.erase m a) x = if x = a then 0 else Mem.byte m x := by
  induction m with
  | nil => simp [Mem.erase, Mem.byte, Mem.unlisted]
  | cons c m ih =>
    obtain ⟨k, b⟩ := c
    simp only [Mem.erase, List.filter_cons] at ih ⊢
    by_cases hk : k = a
    · subst hk
      simp only [bne_self_eq_false, Bool.false_eq_true, if_false]
      rw [ih]
      by_cases hx : x = k <;> simp [hx, Mem.byte]
    · simp only [bne_iff_ne, ne_eq, hk, not_false_eq_true, if_true, Mem.byte]
      by_cases hx : x = k
      · subst hx; simp [hk]
      · simp only [hx, if_false]; exact ih

theorem Mem.byte_insert (m : Mem) (a x : Nat) (b : Byte) (h : ∀ c ∈ m, c.1 ≠ a) :
    Mem.byte (Mem.insert m a b) x = if x = a then b else Mem.byte m x := by
  induction m with
  | nil => simp [Mem.insert, Mem.byte]
  | cons c m ih =>
    obtain ⟨k, d⟩ := c
    have hk : k ≠ a := h (k, d) (by simp)
    have ih := ih (fun c hc => h c (by simp [hc]))
    simp only [Mem.insert]
    by_cases hlt : a < k
    · simp [hlt, Mem.byte]
    · simp only [hlt, if_false, Mem.byte, ih]
      by_cases hx : x = k
      · subst hx; simp [hk]
      · simp [hx]

/-- A byte written is the byte read, and every other byte reads as before. -/
theorem Mem.byte_setByte (m : Mem) (a x : Nat) (b : Byte) :
    Mem.byte (Mem.setByte m a b) x = if x = a then b else Mem.byte m x := by
  unfold Mem.setByte
  by_cases hb : b = Mem.unlisted
  · simp only [hb, if_true, Mem.byte_erase]; rfl
  · rw [if_neg hb, Mem.byte_insert _ _ _ _ (by intro c hc; simp [Mem.erase] at hc; exact hc.2), Mem.byte_erase]
    split <;> rfl

/-- A word written changes its four bytes and no other. -/
theorem Mem.byte_setWord (m : Mem) (a x : Nat) (w : Word) :
    Mem.byte (Mem.setWord m a w) x =
      if x = a then w.extractLsb' 0 8 else if x = a + 1 then w.extractLsb' 8 8
      else if x = a + 2 then w.extractLsb' 16 8 else if x = a + 3 then w.extractLsb' 24 8 else Mem.byte m x := by
  simp only [Mem.setWord, Mem.byte_setByte]
  split_ifs <;> first | rfl | omega

/-- A word written is the word read. -/
theorem Mem.word_setWord (m : Mem) (a : Nat) (w : Word) : Mem.word (Mem.setWord m a w) a = w := by
  simp only [Mem.word, Mem.byte_setWord]
  simp only [Nat.add_right_cancel_iff, if_true, show ¬ (a + 3 = a) by omega, show ¬ (a + 2 = a) by omega,
    show ¬ (a + 1 = a) by omega, show ¬ (a + 3 = a + 1) by omega, show ¬ (a + 3 = a + 2) by omega,
    show ¬ (a + 2 = a + 1) by omega, if_false]
  apply BitVec.eq_of_getLsbD_eq
  intro i hi
  simp only [BitVec.getLsbD_append, BitVec.getLsbD_extractLsb']
  split_ifs with h1 h2 h3
  · simp [h1]
  · simp [h2, show 8 + (i - 8) = i by omega]
  · simp [h3, show 16 + (i - 8 - 8) = i by omega]
  · simp [show i - 8 - 8 - 8 < 8 by omega, show 24 + (i - 8 - 8 - 8) = i by omega]

/-- A word written leaves every word apart from it as it was. -/
theorem Mem.word_setWord_of_apart (m : Mem) (a c : Nat) (w : Word) (h : c + 4 ≤ a ∨ a + 4 ≤ c) :
    Mem.word (Mem.setWord m a w) c = Mem.word m c := by
  simp only [Mem.word, Mem.byte_setWord]
  have h0 (k : Nat) (hk : k < 4) (j : Nat) (hj : j < 4) : ¬ (c + k = a + j) := by omega
  have e0 := h0 0 (by omega) 0 (by omega)
  simp only [Nat.add_zero] at e0
  simp only [e0, show ∀ k, k < 4 → ¬ (c + k = a) from fun k hk => by simpa using h0 k hk 0 (by omega), h0, if_false,
    show ¬ (c = a + 1) by omega, show ¬ (c = a + 2) by omega, show ¬ (c = a + 3) by omega, Nat.reduceLT]

theorem Mem.rising_iff (m : Mem) : Mem.rising m = true ↔ m.Pairwise (fun c d => c.1 < d.1) := by
  induction m with
  | nil => simp [Mem.rising]
  | cons c m ih =>
    obtain ⟨a, b⟩ := c
    cases m with
    | nil => simp [Mem.rising]
    | cons d m =>
      obtain ⟨k, e⟩ := d
      simp only [Mem.rising, Bool.and_eq_true, decide_eq_true_eq, ih, List.pairwise_cons]
      constructor
      · rintro ⟨h, h1, h2⟩
        refine ⟨?_, h1, h2⟩
        intro x hx
        rcases List.mem_cons.mp hx with rfl | hx
        · exact h
        · exact lt_trans h (h1 x hx)
      · rintro ⟨h, h1, h2⟩
        exact ⟨h (k, e) (by simp), h1, h2⟩

/-- The canonical form, in words: rising, and every cell lists a byte of the buffers that is not zero. -/
theorem Mem.wf_iff (n : Nat) (m : Mem) :
    Mem.wf n m = true ↔ m.Pairwise (fun c d => c.1 < d.1) ∧ ∀ c ∈ m, c.2 ≠ 0 ∧ isBufferOffset n c.1 = true := by
  simp only [Mem.wf, Bool.and_eq_true, Mem.rising_iff, List.all_eq_true, bne_iff_ne, Mem.unlisted]

theorem Mem.mem_insert (m : Mem) (a : Nat) (b : Byte) (c : Host.Cell) :
    c ∈ Mem.insert m a b ↔ c = (a, b) ∨ c ∈ m := by
  induction m with
  | nil => simp [Mem.insert]
  | cons d m ih =>
    obtain ⟨k, e⟩ := d
    simp only [Mem.insert]
    split
    · simp
    · simp only [List.mem_cons, ih]; tauto

theorem Mem.pairwise_insert (m : Mem) (a : Nat) (b : Byte) (h : m.Pairwise (fun c d => c.1 < d.1))
    (ha : ∀ c ∈ m, c.1 ≠ a) : (Mem.insert m a b).Pairwise (fun c d => c.1 < d.1) := by
  induction m with
  | nil => simp [Mem.insert]
  | cons d m ih =>
    obtain ⟨k, e⟩ := d
    have hk : k ≠ a := ha (k, e) (by simp)
    rw [List.pairwise_cons] at h
    simp only [Mem.insert]
    split
    · rename_i hlt
      rw [List.pairwise_cons]
      refine ⟨?_, List.pairwise_cons.mpr h⟩
      intro x hx
      rcases List.mem_cons.mp hx with rfl | hx
      · exact hlt
      · exact lt_trans hlt (h.1 x hx)
    · rename_i hlt
      rw [List.pairwise_cons]
      refine ⟨?_, ih h.2 (fun c hc => ha c (by simp [hc]))⟩
      intro x hx
      rcases (Mem.mem_insert _ _ _ _).mp hx with rfl | hx
      · simp only; omega
      · exact h.1 x hx

/-- Writing a byte of the buffers keeps the canonical form. -/
theorem Mem.wf_setByte (n : Nat) (m : Mem) (a : Nat) (b : Byte) (hm : Mem.wf n m = true)
    (ha : isBufferOffset n a = true) : Mem.wf n (Mem.setByte m a b) = true := by
  rw [Mem.wf_iff] at hm ⊢
  have he : (Mem.erase m a).Pairwise (fun c d => c.1 < d.1) := hm.1.filter _
  have hsub : ∀ c ∈ Mem.erase m a, c ∈ m ∧ c.1 ≠ a := by
    intro c hc; simpa [Mem.erase] using hc
  unfold Mem.setByte
  split
  · exact ⟨he, fun c hc => hm.2 c (hsub c hc).1⟩
  · rename_i hb
    refine ⟨Mem.pairwise_insert _ _ _ he (fun c hc => (hsub c hc).2), ?_⟩
    intro c hc
    rcases (Mem.mem_insert _ _ _ _).mp hc with rfl | hc
    · exact ⟨hb, ha⟩
    · exact hm.2 c (hsub c hc).1

/-- Writing a word of the buffers keeps the canonical form. -/
theorem Mem.wf_setWord (n : Nat) (m : Mem) (a : Nat) (w : Word) (hm : Mem.wf n m = true)
    (ha : ∀ j < 4, isBufferOffset n (a + j) = true) : Mem.wf n (Mem.setWord m a w) = true := by
  have h0 : isBufferOffset n a = true := by simpa using ha 0 (by omega)
  exact Mem.wf_setByte _ _ _ _ (Mem.wf_setByte _ _ _ _ (Mem.wf_setByte _ _ _ _ (Mem.wf_setByte _ _ _ _ hm h0)
    (ha 1 (by omega))) (ha 2 (by omega))) (ha 3 (by omega))

theorem isBufferOffset_cap (n i j : Nat) (hi : i < n) (hj : j < 4) : isBufferOffset n (capOffset i + j) = true := by
  simp only [isBufferOffset, Bool.or_eq_true, Bool.and_eq_true, decide_eq_true_eq]
  simp only [capOffset, planeOffset]
  omega

theorem isBufferOffset_plane (n i j : Nat) (hi : i < n) (hj : j < 4) : isBufferOffset n (planeOffset i + j) = true := by
  simp only [isBufferOffset, Bool.or_eq_true, Bool.and_eq_true, decide_eq_true_eq]
  simp only [capOffset, planeOffset]
  omega

/-- The buffers of any draws are canonical. -/
theorem Mem.wf_ofDraws (n : Nat) (ds : List Host.Cell) : Mem.wf n (Mem.ofDraws n ds) = true := by
  induction ds with
  | nil => simp [Mem.ofDraws, Mem.wf, Mem.rising]
  | cons d ds ih =>
    obtain ⟨a, b⟩ := d
    simp only [Mem.ofDraws]
    split
    · rename_i h; exact Mem.wf_setByte _ _ _ _ ih h
    · exact ih

/-- Two canonical memories that read alike are the same data. -/
theorem Mem.eq_of_byte_eq (n : Nat) (m m' : Mem) (hm : Mem.wf n m = true) (hm' : Mem.wf n m' = true)
    (h : ∀ a, Mem.byte m a = Mem.byte m' a) : m = m' := by
  have key (l : Mem) (hl : l.Pairwise (fun c d => c.1 < d.1)) (a : Nat) (b : Byte) (hb : b ≠ 0) :
      Mem.byte l a = b ↔ (a, b) ∈ l := by
    induction l with
    | nil => simp only [Mem.byte, Mem.unlisted, List.not_mem_nil, iff_false]; exact fun h => hb h.symm
    | cons c l ih =>
      obtain ⟨k, d⟩ := c
      rw [List.pairwise_cons] at hl
      simp only [Mem.byte, List.mem_cons, Prod.mk.injEq]
      by_cases hak : a = k
      · subst hak
        have : ∀ b, (a, b) ∉ l := fun b hb => absurd (hl.1 _ hb) (by simp)
        simp [this, eq_comm]
      · simp [hak, ih hl.2]
  rw [Mem.wf_iff] at hm hm'
  have hperm : ∀ c, c ∈ m ↔ c ∈ m' := by
    rintro ⟨a, b⟩
    constructor
    · intro hc
      have hb := (hm.2 _ hc).1
      exact (key m' hm'.1 a b hb).mp (by rw [← h]; exact (key m hm.1 a b hb).mpr hc)
    · intro hc
      have hb := (hm'.2 _ hc).1
      exact (key m hm.1 a b hb).mp (by rw [h]; exact (key m' hm'.1 a b hb).mpr hc)
  have nd (l : Mem) (hl : l.Pairwise (fun c d => c.1 < d.1)) : l.Nodup :=
    hl.imp (fun {c d} hlt heq => by rw [heq] at hlt; exact lt_irrefl _ hlt)
  have : m.Perm m' := (List.perm_ext_iff_of_nodup (nd m hm.1) (nd m' hm'.1)).mpr hperm
  exact List.Perm.eq_of_pairwise (fun a b _ _ h1 h2 => absurd h1 (lt_asymm h2)) hm.1 hm'.1 this

end Sys2Proof.Machine
end

