-- ==== Sys2Proof/Laws/State.lean ====
section
/-! SUPPORT. One lemma per field per named update of State: what each shared operation of Machine/Ops.lean writes, and that
it leaves every other field as it was. -/

namespace Sys2Proof.Machine

variable (s : State)

/-! The fields after `State.setArg0`. -/

@[simp] theorem State.setArg0_arg0 (w : Word) : (s.setArg0 w).arg0 = w := rfl
@[simp] theorem State.setArg0_params (w : Word) : (s.setArg0 w).params = s.params := rfl
@[simp] theorem State.setArg0_result (w : Word) : (s.setArg0 w).result = s.result := rfl
@[simp] theorem State.setArg0_data0 (w : Word) : (s.setArg0 w).data0 = s.data0 := rfl
@[simp] theorem State.setArg0_data1 (w : Word) : (s.setArg0 w).data1 = s.data1 := rfl
@[simp] theorem State.setArg0_cs (w : Word) : (s.setArg0 w).cs = s.cs := rfl
@[simp] theorem State.setArg0_lc (w : Word) : (s.setArg0 w).lc = s.lc := rfl
@[simp] theorem State.setArg0_dec (w : Word) : (s.setArg0 w).dec = s.dec := rfl
@[simp] theorem State.setArg0_held (w : Word) : (s.setArg0 w).held = s.held := rfl
@[simp] theorem State.setArg0_pinOwner (w : Word) : (s.setArg0 w).pinOwner = s.pinOwner := rfl
@[simp] theorem State.setArg0_pad (w : Word) : (s.setArg0 w).pad = s.pad := rfl
@[simp] theorem State.setArg0_nt (w : Word) : (s.setArg0 w).nt = s.nt := rfl
@[simp] theorem State.setArg0_mem (w : Word) : (s.setArg0 w).mem = s.mem := rfl
@[simp] theorem State.setArg0_buf (w : Word) : (s.setArg0 w).buf = s.buf := rfl
@[simp] theorem State.setArg0_plane (w : Word) : (s.setArg0 w).plane = s.plane := rfl
@[simp] theorem State.setArg0_fault (w : Word) : (s.setArg0 w).fault = s.fault := rfl
@[simp] theorem State.setArg0_faultCode (w : Word) : (s.setArg0 w).faultCode = s.faultCode := rfl
@[simp] theorem State.setArg0_pins (w : Word) : (s.setArg0 w).pins = s.pins := rfl
@[simp] theorem State.setArg0_readData (w : Word) : (s.setArg0 w).readData = s.readData := rfl
@[simp] theorem State.setArg0_sched (w : Word) : (s.setArg0 w).sched = s.sched := rfl
@[simp] theorem State.setArg0_drawIx (w : Word) : (s.setArg0 w).drawIx = s.drawIx := rfl

/-! The fields after `State.setCs`. -/

@[simp] theorem State.setCs_cs (c : CaptureSession) : (s.setCs c).cs = c := rfl
@[simp] theorem State.setCs_params (c : CaptureSession) : (s.setCs c).params = s.params := rfl
@[simp] theorem State.setCs_arg0 (c : CaptureSession) : (s.setCs c).arg0 = s.arg0 := rfl
@[simp] theorem State.setCs_result (c : CaptureSession) : (s.setCs c).result = s.result := rfl
@[simp] theorem State.setCs_data0 (c : CaptureSession) : (s.setCs c).data0 = s.data0 := rfl
@[simp] theorem State.setCs_data1 (c : CaptureSession) : (s.setCs c).data1 = s.data1 := rfl
@[simp] theorem State.setCs_lc (c : CaptureSession) : (s.setCs c).lc = s.lc := rfl
@[simp] theorem State.setCs_dec (c : CaptureSession) : (s.setCs c).dec = s.dec := rfl
@[simp] theorem State.setCs_held (c : CaptureSession) : (s.setCs c).held = s.held := rfl
@[simp] theorem State.setCs_pinOwner (c : CaptureSession) : (s.setCs c).pinOwner = s.pinOwner := rfl
@[simp] theorem State.setCs_pad (c : CaptureSession) : (s.setCs c).pad = s.pad := rfl
@[simp] theorem State.setCs_nt (c : CaptureSession) : (s.setCs c).nt = s.nt := rfl
@[simp] theorem State.setCs_mem (c : CaptureSession) : (s.setCs c).mem = s.mem := rfl
@[simp] theorem State.setCs_buf (c : CaptureSession) : (s.setCs c).buf = s.buf := rfl
@[simp] theorem State.setCs_plane (c : CaptureSession) : (s.setCs c).plane = s.plane := rfl
@[simp] theorem State.setCs_fault (c : CaptureSession) : (s.setCs c).fault = s.fault := rfl
@[simp] theorem State.setCs_faultCode (c : CaptureSession) : (s.setCs c).faultCode = s.faultCode := rfl
@[simp] theorem State.setCs_pins (c : CaptureSession) : (s.setCs c).pins = s.pins := rfl
@[simp] theorem State.setCs_readData (c : CaptureSession) : (s.setCs c).readData = s.readData := rfl
@[simp] theorem State.setCs_sched (c : CaptureSession) : (s.setCs c).sched = s.sched := rfl
@[simp] theorem State.setCs_drawIx (c : CaptureSession) : (s.setCs c).drawIx = s.drawIx := rfl

/-! The fields after `State.setLc`. -/

@[simp] theorem State.setLc_lc (l : CaptureLane) : (s.setLc l).lc = l := rfl
@[simp] theorem State.setLc_params (l : CaptureLane) : (s.setLc l).params = s.params := rfl
@[simp] theorem State.setLc_arg0 (l : CaptureLane) : (s.setLc l).arg0 = s.arg0 := rfl
@[simp] theorem State.setLc_result (l : CaptureLane) : (s.setLc l).result = s.result := rfl
@[simp] theorem State.setLc_data0 (l : CaptureLane) : (s.setLc l).data0 = s.data0 := rfl
@[simp] theorem State.setLc_data1 (l : CaptureLane) : (s.setLc l).data1 = s.data1 := rfl
@[simp] theorem State.setLc_cs (l : CaptureLane) : (s.setLc l).cs = s.cs := rfl
@[simp] theorem State.setLc_dec (l : CaptureLane) : (s.setLc l).dec = s.dec := rfl
@[simp] theorem State.setLc_held (l : CaptureLane) : (s.setLc l).held = s.held := rfl
@[simp] theorem State.setLc_pinOwner (l : CaptureLane) : (s.setLc l).pinOwner = s.pinOwner := rfl
@[simp] theorem State.setLc_pad (l : CaptureLane) : (s.setLc l).pad = s.pad := rfl
@[simp] theorem State.setLc_nt (l : CaptureLane) : (s.setLc l).nt = s.nt := rfl
@[simp] theorem State.setLc_mem (l : CaptureLane) : (s.setLc l).mem = s.mem := rfl
@[simp] theorem State.setLc_buf (l : CaptureLane) : (s.setLc l).buf = s.buf := rfl
@[simp] theorem State.setLc_plane (l : CaptureLane) : (s.setLc l).plane = s.plane := rfl
@[simp] theorem State.setLc_fault (l : CaptureLane) : (s.setLc l).fault = s.fault := rfl
@[simp] theorem State.setLc_faultCode (l : CaptureLane) : (s.setLc l).faultCode = s.faultCode := rfl
@[simp] theorem State.setLc_pins (l : CaptureLane) : (s.setLc l).pins = s.pins := rfl
@[simp] theorem State.setLc_readData (l : CaptureLane) : (s.setLc l).readData = s.readData := rfl
@[simp] theorem State.setLc_sched (l : CaptureLane) : (s.setLc l).sched = s.sched := rfl
@[simp] theorem State.setLc_drawIx (l : CaptureLane) : (s.setLc l).drawIx = s.drawIx := rfl

/-! The fields after `State.setDec`. -/

@[simp] theorem State.setDec_dec (d : DecoderSession) : (s.setDec d).dec = d := rfl
@[simp] theorem State.setDec_params (d : DecoderSession) : (s.setDec d).params = s.params := rfl
@[simp] theorem State.setDec_arg0 (d : DecoderSession) : (s.setDec d).arg0 = s.arg0 := rfl
@[simp] theorem State.setDec_result (d : DecoderSession) : (s.setDec d).result = s.result := rfl
@[simp] theorem State.setDec_data0 (d : DecoderSession) : (s.setDec d).data0 = s.data0 := rfl
@[simp] theorem State.setDec_data1 (d : DecoderSession) : (s.setDec d).data1 = s.data1 := rfl
@[simp] theorem State.setDec_cs (d : DecoderSession) : (s.setDec d).cs = s.cs := rfl
@[simp] theorem State.setDec_lc (d : DecoderSession) : (s.setDec d).lc = s.lc := rfl
@[simp] theorem State.setDec_held (d : DecoderSession) : (s.setDec d).held = s.held := rfl
@[simp] theorem State.setDec_pinOwner (d : DecoderSession) : (s.setDec d).pinOwner = s.pinOwner := rfl
@[simp] theorem State.setDec_pad (d : DecoderSession) : (s.setDec d).pad = s.pad := rfl
@[simp] theorem State.setDec_nt (d : DecoderSession) : (s.setDec d).nt = s.nt := rfl
@[simp] theorem State.setDec_mem (d : DecoderSession) : (s.setDec d).mem = s.mem := rfl
@[simp] theorem State.setDec_buf (d : DecoderSession) : (s.setDec d).buf = s.buf := rfl
@[simp] theorem State.setDec_plane (d : DecoderSession) : (s.setDec d).plane = s.plane := rfl
@[simp] theorem State.setDec_fault (d : DecoderSession) : (s.setDec d).fault = s.fault := rfl
@[simp] theorem State.setDec_faultCode (d : DecoderSession) : (s.setDec d).faultCode = s.faultCode := rfl
@[simp] theorem State.setDec_pins (d : DecoderSession) : (s.setDec d).pins = s.pins := rfl
@[simp] theorem State.setDec_readData (d : DecoderSession) : (s.setDec d).readData = s.readData := rfl
@[simp] theorem State.setDec_sched (d : DecoderSession) : (s.setDec d).sched = s.sched := rfl
@[simp] theorem State.setDec_drawIx (d : DecoderSession) : (s.setDec d).drawIx = s.drawIx := rfl

/-! The fields after `State.setHeld`. -/

@[simp] theorem State.setHeld_held (h : Held) : (s.setHeld h).held = h := rfl
@[simp] theorem State.setHeld_params (h : Held) : (s.setHeld h).params = s.params := rfl
@[simp] theorem State.setHeld_arg0 (h : Held) : (s.setHeld h).arg0 = s.arg0 := rfl
@[simp] theorem State.setHeld_result (h : Held) : (s.setHeld h).result = s.result := rfl
@[simp] theorem State.setHeld_data0 (h : Held) : (s.setHeld h).data0 = s.data0 := rfl
@[simp] theorem State.setHeld_data1 (h : Held) : (s.setHeld h).data1 = s.data1 := rfl
@[simp] theorem State.setHeld_cs (h : Held) : (s.setHeld h).cs = s.cs := rfl
@[simp] theorem State.setHeld_lc (h : Held) : (s.setHeld h).lc = s.lc := rfl
@[simp] theorem State.setHeld_dec (h : Held) : (s.setHeld h).dec = s.dec := rfl
@[simp] theorem State.setHeld_pinOwner (h : Held) : (s.setHeld h).pinOwner = s.pinOwner := rfl
@[simp] theorem State.setHeld_pad (h : Held) : (s.setHeld h).pad = s.pad := rfl
@[simp] theorem State.setHeld_nt (h : Held) : (s.setHeld h).nt = s.nt := rfl
@[simp] theorem State.setHeld_mem (h : Held) : (s.setHeld h).mem = s.mem := rfl
@[simp] theorem State.setHeld_buf (h : Held) : (s.setHeld h).buf = s.buf := rfl
@[simp] theorem State.setHeld_plane (h : Held) : (s.setHeld h).plane = s.plane := rfl
@[simp] theorem State.setHeld_fault (h : Held) : (s.setHeld h).fault = s.fault := rfl
@[simp] theorem State.setHeld_faultCode (h : Held) : (s.setHeld h).faultCode = s.faultCode := rfl
@[simp] theorem State.setHeld_pins (h : Held) : (s.setHeld h).pins = s.pins := rfl
@[simp] theorem State.setHeld_readData (h : Held) : (s.setHeld h).readData = s.readData := rfl
@[simp] theorem State.setHeld_sched (h : Held) : (s.setHeld h).sched = s.sched := rfl
@[simp] theorem State.setHeld_drawIx (h : Held) : (s.setHeld h).drawIx = s.drawIx := rfl

/-! The fields after `State.setPinOwner`. -/

@[simp] theorem State.setPinOwner_pinOwner (m : Vector PinOwner 32) : (s.setPinOwner m).pinOwner = m := rfl
@[simp] theorem State.setPinOwner_params (m : Vector PinOwner 32) : (s.setPinOwner m).params = s.params := rfl
@[simp] theorem State.setPinOwner_arg0 (m : Vector PinOwner 32) : (s.setPinOwner m).arg0 = s.arg0 := rfl
@[simp] theorem State.setPinOwner_result (m : Vector PinOwner 32) : (s.setPinOwner m).result = s.result := rfl
@[simp] theorem State.setPinOwner_data0 (m : Vector PinOwner 32) : (s.setPinOwner m).data0 = s.data0 := rfl
@[simp] theorem State.setPinOwner_data1 (m : Vector PinOwner 32) : (s.setPinOwner m).data1 = s.data1 := rfl
@[simp] theorem State.setPinOwner_cs (m : Vector PinOwner 32) : (s.setPinOwner m).cs = s.cs := rfl
@[simp] theorem State.setPinOwner_lc (m : Vector PinOwner 32) : (s.setPinOwner m).lc = s.lc := rfl
@[simp] theorem State.setPinOwner_dec (m : Vector PinOwner 32) : (s.setPinOwner m).dec = s.dec := rfl
@[simp] theorem State.setPinOwner_held (m : Vector PinOwner 32) : (s.setPinOwner m).held = s.held := rfl
@[simp] theorem State.setPinOwner_pad (m : Vector PinOwner 32) : (s.setPinOwner m).pad = s.pad := rfl
@[simp] theorem State.setPinOwner_nt (m : Vector PinOwner 32) : (s.setPinOwner m).nt = s.nt := rfl
@[simp] theorem State.setPinOwner_mem (m : Vector PinOwner 32) : (s.setPinOwner m).mem = s.mem := rfl
@[simp] theorem State.setPinOwner_buf (m : Vector PinOwner 32) : (s.setPinOwner m).buf = s.buf := rfl
@[simp] theorem State.setPinOwner_plane (m : Vector PinOwner 32) : (s.setPinOwner m).plane = s.plane := rfl
@[simp] theorem State.setPinOwner_fault (m : Vector PinOwner 32) : (s.setPinOwner m).fault = s.fault := rfl
@[simp] theorem State.setPinOwner_faultCode (m : Vector PinOwner 32) : (s.setPinOwner m).faultCode = s.faultCode := rfl
@[simp] theorem State.setPinOwner_pins (m : Vector PinOwner 32) : (s.setPinOwner m).pins = s.pins := rfl
@[simp] theorem State.setPinOwner_readData (m : Vector PinOwner 32) : (s.setPinOwner m).readData = s.readData := rfl
@[simp] theorem State.setPinOwner_sched (m : Vector PinOwner 32) : (s.setPinOwner m).sched = s.sched := rfl
@[simp] theorem State.setPinOwner_drawIx (m : Vector PinOwner 32) : (s.setPinOwner m).drawIx = s.drawIx := rfl

/-! The fields after `State.setPad`. -/

@[simp] theorem State.setPad_pad (m : Vector PadConfig 32) : (s.setPad m).pad = m := rfl
@[simp] theorem State.setPad_params (m : Vector PadConfig 32) : (s.setPad m).params = s.params := rfl
@[simp] theorem State.setPad_arg0 (m : Vector PadConfig 32) : (s.setPad m).arg0 = s.arg0 := rfl
@[simp] theorem State.setPad_result (m : Vector PadConfig 32) : (s.setPad m).result = s.result := rfl
@[simp] theorem State.setPad_data0 (m : Vector PadConfig 32) : (s.setPad m).data0 = s.data0 := rfl
@[simp] theorem State.setPad_data1 (m : Vector PadConfig 32) : (s.setPad m).data1 = s.data1 := rfl
@[simp] theorem State.setPad_cs (m : Vector PadConfig 32) : (s.setPad m).cs = s.cs := rfl
@[simp] theorem State.setPad_lc (m : Vector PadConfig 32) : (s.setPad m).lc = s.lc := rfl
@[simp] theorem State.setPad_dec (m : Vector PadConfig 32) : (s.setPad m).dec = s.dec := rfl
@[simp] theorem State.setPad_held (m : Vector PadConfig 32) : (s.setPad m).held = s.held := rfl
@[simp] theorem State.setPad_pinOwner (m : Vector PadConfig 32) : (s.setPad m).pinOwner = s.pinOwner := rfl
@[simp] theorem State.setPad_nt (m : Vector PadConfig 32) : (s.setPad m).nt = s.nt := rfl
@[simp] theorem State.setPad_mem (m : Vector PadConfig 32) : (s.setPad m).mem = s.mem := rfl
@[simp] theorem State.setPad_buf (m : Vector PadConfig 32) : (s.setPad m).buf = s.buf := rfl
@[simp] theorem State.setPad_plane (m : Vector PadConfig 32) : (s.setPad m).plane = s.plane := rfl
@[simp] theorem State.setPad_fault (m : Vector PadConfig 32) : (s.setPad m).fault = s.fault := rfl
@[simp] theorem State.setPad_faultCode (m : Vector PadConfig 32) : (s.setPad m).faultCode = s.faultCode := rfl
@[simp] theorem State.setPad_pins (m : Vector PadConfig 32) : (s.setPad m).pins = s.pins := rfl
@[simp] theorem State.setPad_readData (m : Vector PadConfig 32) : (s.setPad m).readData = s.readData := rfl
@[simp] theorem State.setPad_sched (m : Vector PadConfig 32) : (s.setPad m).sched = s.sched := rfl
@[simp] theorem State.setPad_drawIx (m : Vector PadConfig 32) : (s.setPad m).drawIx = s.drawIx := rfl

/-! The fields after `State.setNt`. -/

@[simp] theorem State.setNt_nt (n : Notification) : (s.setNt n).nt = n := rfl
@[simp] theorem State.setNt_params (n : Notification) : (s.setNt n).params = s.params := rfl
@[simp] theorem State.setNt_arg0 (n : Notification) : (s.setNt n).arg0 = s.arg0 := rfl
@[simp] theorem State.setNt_result (n : Notification) : (s.setNt n).result = s.result := rfl
@[simp] theorem State.setNt_data0 (n : Notification) : (s.setNt n).data0 = s.data0 := rfl
@[simp] theorem State.setNt_data1 (n : Notification) : (s.setNt n).data1 = s.data1 := rfl
@[simp] theorem State.setNt_cs (n : Notification) : (s.setNt n).cs = s.cs := rfl
@[simp] theorem State.setNt_lc (n : Notification) : (s.setNt n).lc = s.lc := rfl
@[simp] theorem State.setNt_dec (n : Notification) : (s.setNt n).dec = s.dec := rfl
@[simp] theorem State.setNt_held (n : Notification) : (s.setNt n).held = s.held := rfl
@[simp] theorem State.setNt_pinOwner (n : Notification) : (s.setNt n).pinOwner = s.pinOwner := rfl
@[simp] theorem State.setNt_pad (n : Notification) : (s.setNt n).pad = s.pad := rfl
@[simp] theorem State.setNt_mem (n : Notification) : (s.setNt n).mem = s.mem := rfl
@[simp] theorem State.setNt_buf (n : Notification) : (s.setNt n).buf = s.buf := rfl
@[simp] theorem State.setNt_plane (n : Notification) : (s.setNt n).plane = s.plane := rfl
@[simp] theorem State.setNt_fault (n : Notification) : (s.setNt n).fault = s.fault := rfl
@[simp] theorem State.setNt_faultCode (n : Notification) : (s.setNt n).faultCode = s.faultCode := rfl
@[simp] theorem State.setNt_pins (n : Notification) : (s.setNt n).pins = s.pins := rfl
@[simp] theorem State.setNt_readData (n : Notification) : (s.setNt n).readData = s.readData := rfl
@[simp] theorem State.setNt_sched (n : Notification) : (s.setNt n).sched = s.sched := rfl
@[simp] theorem State.setNt_drawIx (n : Notification) : (s.setNt n).drawIx = s.drawIx := rfl

/-! The fields after `State.setMem`. -/

@[simp] theorem State.setMem_mem (m : Mem) : (s.setMem m).mem = m := rfl
@[simp] theorem State.setMem_params (m : Mem) : (s.setMem m).params = s.params := rfl
@[simp] theorem State.setMem_arg0 (m : Mem) : (s.setMem m).arg0 = s.arg0 := rfl
@[simp] theorem State.setMem_result (m : Mem) : (s.setMem m).result = s.result := rfl
@[simp] theorem State.setMem_data0 (m : Mem) : (s.setMem m).data0 = s.data0 := rfl
@[simp] theorem State.setMem_data1 (m : Mem) : (s.setMem m).data1 = s.data1 := rfl
@[simp] theorem State.setMem_cs (m : Mem) : (s.setMem m).cs = s.cs := rfl
@[simp] theorem State.setMem_lc (m : Mem) : (s.setMem m).lc = s.lc := rfl
@[simp] theorem State.setMem_dec (m : Mem) : (s.setMem m).dec = s.dec := rfl
@[simp] theorem State.setMem_held (m : Mem) : (s.setMem m).held = s.held := rfl
@[simp] theorem State.setMem_pinOwner (m : Mem) : (s.setMem m).pinOwner = s.pinOwner := rfl
@[simp] theorem State.setMem_pad (m : Mem) : (s.setMem m).pad = s.pad := rfl
@[simp] theorem State.setMem_nt (m : Mem) : (s.setMem m).nt = s.nt := rfl
@[simp] theorem State.setMem_buf (m : Mem) : (s.setMem m).buf = s.buf := rfl
@[simp] theorem State.setMem_plane (m : Mem) : (s.setMem m).plane = s.plane := rfl
@[simp] theorem State.setMem_fault (m : Mem) : (s.setMem m).fault = s.fault := rfl
@[simp] theorem State.setMem_faultCode (m : Mem) : (s.setMem m).faultCode = s.faultCode := rfl
@[simp] theorem State.setMem_pins (m : Mem) : (s.setMem m).pins = s.pins := rfl
@[simp] theorem State.setMem_readData (m : Mem) : (s.setMem m).readData = s.readData := rfl
@[simp] theorem State.setMem_sched (m : Mem) : (s.setMem m).sched = s.sched := rfl
@[simp] theorem State.setMem_drawIx (m : Mem) : (s.setMem m).drawIx = s.drawIx := rfl

/-! The fields after `State.setBuf`. -/

@[simp] theorem State.setBuf_buf (b : BufferInfo) : (s.setBuf b).buf = b := rfl
@[simp] theorem State.setBuf_params (b : BufferInfo) : (s.setBuf b).params = s.params := rfl
@[simp] theorem State.setBuf_arg0 (b : BufferInfo) : (s.setBuf b).arg0 = s.arg0 := rfl
@[simp] theorem State.setBuf_result (b : BufferInfo) : (s.setBuf b).result = s.result := rfl
@[simp] theorem State.setBuf_data0 (b : BufferInfo) : (s.setBuf b).data0 = s.data0 := rfl
@[simp] theorem State.setBuf_data1 (b : BufferInfo) : (s.setBuf b).data1 = s.data1 := rfl
@[simp] theorem State.setBuf_cs (b : BufferInfo) : (s.setBuf b).cs = s.cs := rfl
@[simp] theorem State.setBuf_lc (b : BufferInfo) : (s.setBuf b).lc = s.lc := rfl
@[simp] theorem State.setBuf_dec (b : BufferInfo) : (s.setBuf b).dec = s.dec := rfl
@[simp] theorem State.setBuf_held (b : BufferInfo) : (s.setBuf b).held = s.held := rfl
@[simp] theorem State.setBuf_pinOwner (b : BufferInfo) : (s.setBuf b).pinOwner = s.pinOwner := rfl
@[simp] theorem State.setBuf_pad (b : BufferInfo) : (s.setBuf b).pad = s.pad := rfl
@[simp] theorem State.setBuf_nt (b : BufferInfo) : (s.setBuf b).nt = s.nt := rfl
@[simp] theorem State.setBuf_mem (b : BufferInfo) : (s.setBuf b).mem = s.mem := rfl
@[simp] theorem State.setBuf_plane (b : BufferInfo) : (s.setBuf b).plane = s.plane := rfl
@[simp] theorem State.setBuf_fault (b : BufferInfo) : (s.setBuf b).fault = s.fault := rfl
@[simp] theorem State.setBuf_faultCode (b : BufferInfo) : (s.setBuf b).faultCode = s.faultCode := rfl
@[simp] theorem State.setBuf_pins (b : BufferInfo) : (s.setBuf b).pins = s.pins := rfl
@[simp] theorem State.setBuf_readData (b : BufferInfo) : (s.setBuf b).readData = s.readData := rfl
@[simp] theorem State.setBuf_sched (b : BufferInfo) : (s.setBuf b).sched = s.sched := rfl
@[simp] theorem State.setBuf_drawIx (b : BufferInfo) : (s.setBuf b).drawIx = s.drawIx := rfl

/-! The fields after `State.setPlane`. -/

@[simp] theorem State.setPlane_plane (b : BufferInfo) : (s.setPlane b).plane = b := rfl
@[simp] theorem State.setPlane_params (b : BufferInfo) : (s.setPlane b).params = s.params := rfl
@[simp] theorem State.setPlane_arg0 (b : BufferInfo) : (s.setPlane b).arg0 = s.arg0 := rfl
@[simp] theorem State.setPlane_result (b : BufferInfo) : (s.setPlane b).result = s.result := rfl
@[simp] theorem State.setPlane_data0 (b : BufferInfo) : (s.setPlane b).data0 = s.data0 := rfl
@[simp] theorem State.setPlane_data1 (b : BufferInfo) : (s.setPlane b).data1 = s.data1 := rfl
@[simp] theorem State.setPlane_cs (b : BufferInfo) : (s.setPlane b).cs = s.cs := rfl
@[simp] theorem State.setPlane_lc (b : BufferInfo) : (s.setPlane b).lc = s.lc := rfl
@[simp] theorem State.setPlane_dec (b : BufferInfo) : (s.setPlane b).dec = s.dec := rfl
@[simp] theorem State.setPlane_held (b : BufferInfo) : (s.setPlane b).held = s.held := rfl
@[simp] theorem State.setPlane_pinOwner (b : BufferInfo) : (s.setPlane b).pinOwner = s.pinOwner := rfl
@[simp] theorem State.setPlane_pad (b : BufferInfo) : (s.setPlane b).pad = s.pad := rfl
@[simp] theorem State.setPlane_nt (b : BufferInfo) : (s.setPlane b).nt = s.nt := rfl
@[simp] theorem State.setPlane_mem (b : BufferInfo) : (s.setPlane b).mem = s.mem := rfl
@[simp] theorem State.setPlane_buf (b : BufferInfo) : (s.setPlane b).buf = s.buf := rfl
@[simp] theorem State.setPlane_fault (b : BufferInfo) : (s.setPlane b).fault = s.fault := rfl
@[simp] theorem State.setPlane_faultCode (b : BufferInfo) : (s.setPlane b).faultCode = s.faultCode := rfl
@[simp] theorem State.setPlane_pins (b : BufferInfo) : (s.setPlane b).pins = s.pins := rfl
@[simp] theorem State.setPlane_readData (b : BufferInfo) : (s.setPlane b).readData = s.readData := rfl
@[simp] theorem State.setPlane_sched (b : BufferInfo) : (s.setPlane b).sched = s.sched := rfl
@[simp] theorem State.setPlane_drawIx (b : BufferInfo) : (s.setPlane b).drawIx = s.drawIx := rfl

/-! The fields after `State.setPins`. -/

@[simp] theorem State.setPins_pins (levels : Word) : (s.setPins levels).pins = levels := rfl
@[simp] theorem State.setPins_params (levels : Word) : (s.setPins levels).params = s.params := rfl
@[simp] theorem State.setPins_arg0 (levels : Word) : (s.setPins levels).arg0 = s.arg0 := rfl
@[simp] theorem State.setPins_result (levels : Word) : (s.setPins levels).result = s.result := rfl
@[simp] theorem State.setPins_data0 (levels : Word) : (s.setPins levels).data0 = s.data0 := rfl
@[simp] theorem State.setPins_data1 (levels : Word) : (s.setPins levels).data1 = s.data1 := rfl
@[simp] theorem State.setPins_cs (levels : Word) : (s.setPins levels).cs = s.cs := rfl
@[simp] theorem State.setPins_lc (levels : Word) : (s.setPins levels).lc = s.lc := rfl
@[simp] theorem State.setPins_dec (levels : Word) : (s.setPins levels).dec = s.dec := rfl
@[simp] theorem State.setPins_held (levels : Word) : (s.setPins levels).held = s.held := rfl
@[simp] theorem State.setPins_pinOwner (levels : Word) : (s.setPins levels).pinOwner = s.pinOwner := rfl
@[simp] theorem State.setPins_pad (levels : Word) : (s.setPins levels).pad = s.pad := rfl
@[simp] theorem State.setPins_nt (levels : Word) : (s.setPins levels).nt = s.nt := rfl
@[simp] theorem State.setPins_mem (levels : Word) : (s.setPins levels).mem = s.mem := rfl
@[simp] theorem State.setPins_buf (levels : Word) : (s.setPins levels).buf = s.buf := rfl
@[simp] theorem State.setPins_plane (levels : Word) : (s.setPins levels).plane = s.plane := rfl
@[simp] theorem State.setPins_fault (levels : Word) : (s.setPins levels).fault = s.fault := rfl
@[simp] theorem State.setPins_faultCode (levels : Word) : (s.setPins levels).faultCode = s.faultCode := rfl
@[simp] theorem State.setPins_readData (levels : Word) : (s.setPins levels).readData = s.readData := rfl
@[simp] theorem State.setPins_sched (levels : Word) : (s.setPins levels).sched = s.sched := rfl
@[simp] theorem State.setPins_drawIx (levels : Word) : (s.setPins levels).drawIx = s.drawIx := rfl

/-! The fields after `State.setReadData`. -/

@[simp] theorem State.setReadData_readData (w : Word) : (s.setReadData w).readData = w := rfl
@[simp] theorem State.setReadData_params (w : Word) : (s.setReadData w).params = s.params := rfl
@[simp] theorem State.setReadData_arg0 (w : Word) : (s.setReadData w).arg0 = s.arg0 := rfl
@[simp] theorem State.setReadData_result (w : Word) : (s.setReadData w).result = s.result := rfl
@[simp] theorem State.setReadData_data0 (w : Word) : (s.setReadData w).data0 = s.data0 := rfl
@[simp] theorem State.setReadData_data1 (w : Word) : (s.setReadData w).data1 = s.data1 := rfl
@[simp] theorem State.setReadData_cs (w : Word) : (s.setReadData w).cs = s.cs := rfl
@[simp] theorem State.setReadData_lc (w : Word) : (s.setReadData w).lc = s.lc := rfl
@[simp] theorem State.setReadData_dec (w : Word) : (s.setReadData w).dec = s.dec := rfl
@[simp] theorem State.setReadData_held (w : Word) : (s.setReadData w).held = s.held := rfl
@[simp] theorem State.setReadData_pinOwner (w : Word) : (s.setReadData w).pinOwner = s.pinOwner := rfl
@[simp] theorem State.setReadData_pad (w : Word) : (s.setReadData w).pad = s.pad := rfl
@[simp] theorem State.setReadData_nt (w : Word) : (s.setReadData w).nt = s.nt := rfl
@[simp] theorem State.setReadData_mem (w : Word) : (s.setReadData w).mem = s.mem := rfl
@[simp] theorem State.setReadData_buf (w : Word) : (s.setReadData w).buf = s.buf := rfl
@[simp] theorem State.setReadData_plane (w : Word) : (s.setReadData w).plane = s.plane := rfl
@[simp] theorem State.setReadData_fault (w : Word) : (s.setReadData w).fault = s.fault := rfl
@[simp] theorem State.setReadData_faultCode (w : Word) : (s.setReadData w).faultCode = s.faultCode := rfl
@[simp] theorem State.setReadData_pins (w : Word) : (s.setReadData w).pins = s.pins := rfl
@[simp] theorem State.setReadData_sched (w : Word) : (s.setReadData w).sched = s.sched := rfl
@[simp] theorem State.setReadData_drawIx (w : Word) : (s.setReadData w).drawIx = s.drawIx := rfl

/-! The fields after `State.raise`. -/

@[simp] theorem State.raise_fault (k : FaultKind) : (s.raise k).fault = true :=
  by unfold State.raise; split <;> simp_all
@[simp] theorem State.raise_params (k : FaultKind) : (s.raise k).params = s.params :=
  by unfold State.raise; split <;> rfl
@[simp] theorem State.raise_arg0 (k : FaultKind) : (s.raise k).arg0 = s.arg0 := by unfold State.raise; split <;> rfl
@[simp] theorem State.raise_result (k : FaultKind) : (s.raise k).result = s.result :=
  by unfold State.raise; split <;> rfl
@[simp] theorem State.raise_data0 (k : FaultKind) : (s.raise k).data0 = s.data0 := by unfold State.raise; split <;> rfl
@[simp] theorem State.raise_data1 (k : FaultKind) : (s.raise k).data1 = s.data1 := by unfold State.raise; split <;> rfl
@[simp] theorem State.raise_cs (k : FaultKind) : (s.raise k).cs = s.cs := by unfold State.raise; split <;> rfl
@[simp] theorem State.raise_lc (k : FaultKind) : (s.raise k).lc = s.lc := by unfold State.raise; split <;> rfl
@[simp] theorem State.raise_dec (k : FaultKind) : (s.raise k).dec = s.dec := by unfold State.raise; split <;> rfl
@[simp] theorem State.raise_held (k : FaultKind) : (s.raise k).held = s.held := by unfold State.raise; split <;> rfl
@[simp] theorem State.raise_pinOwner (k : FaultKind) : (s.raise k).pinOwner = s.pinOwner :=
  by unfold State.raise; split <;> rfl
@[simp] theorem State.raise_pad (k : FaultKind) : (s.raise k).pad = s.pad := by unfold State.raise; split <;> rfl
@[simp] theorem State.raise_nt (k : FaultKind) : (s.raise k).nt = s.nt := by unfold State.raise; split <;> rfl
@[simp] theorem State.raise_mem (k : FaultKind) : (s.raise k).mem = s.mem := by unfold State.raise; split <;> rfl
@[simp] theorem State.raise_buf (k : FaultKind) : (s.raise k).buf = s.buf := by unfold State.raise; split <;> rfl
@[simp] theorem State.raise_plane (k : FaultKind) : (s.raise k).plane = s.plane := by unfold State.raise; split <;> rfl
@[simp] theorem State.raise_pins (k : FaultKind) : (s.raise k).pins = s.pins := by unfold State.raise; split <;> rfl
@[simp] theorem State.raise_readData (k : FaultKind) : (s.raise k).readData = s.readData :=
  by unfold State.raise; split <;> rfl
@[simp] theorem State.raise_sched (k : FaultKind) : (s.raise k).sched = s.sched := by unfold State.raise; split <;> rfl
@[simp] theorem State.raise_drawIx (k : FaultKind) : (s.raise k).drawIx = s.drawIx :=
  by unfold State.raise; split <;> rfl

/-! The fields after `State.putResult`. -/

@[simp] theorem State.putResult_result (o : BitVec 8) (c : ResultCode) (f : ResultFlags) (d0 d1 : Word) : (s.putResult o c f d0 d1).result = resultWord o c f :=
  rfl
@[simp] theorem State.putResult_data0 (o : BitVec 8) (c : ResultCode) (f : ResultFlags) (d0 d1 : Word) : (s.putResult o c f d0 d1).data0 = d0 :=
  rfl
@[simp] theorem State.putResult_data1 (o : BitVec 8) (c : ResultCode) (f : ResultFlags) (d0 d1 : Word) : (s.putResult o c f d0 d1).data1 = d1 :=
  rfl
@[simp] theorem State.putResult_params (o : BitVec 8) (c : ResultCode) (f : ResultFlags) (d0 d1 : Word) : (s.putResult o c f d0 d1).params = s.params :=
  rfl
@[simp] theorem State.putResult_arg0 (o : BitVec 8) (c : ResultCode) (f : ResultFlags) (d0 d1 : Word) : (s.putResult o c f d0 d1).arg0 = s.arg0 :=
  rfl
@[simp] theorem State.putResult_cs (o : BitVec 8) (c : ResultCode) (f : ResultFlags) (d0 d1 : Word) : (s.putResult o c f d0 d1).cs = s.cs :=
  rfl
@[simp] theorem State.putResult_lc (o : BitVec 8) (c : ResultCode) (f : ResultFlags) (d0 d1 : Word) : (s.putResult o c f d0 d1).lc = s.lc :=
  rfl
@[simp] theorem State.putResult_dec (o : BitVec 8) (c : ResultCode) (f : ResultFlags) (d0 d1 : Word) : (s.putResult o c f d0 d1).dec = s.dec :=
  rfl
@[simp] theorem State.putResult_held (o : BitVec 8) (c : ResultCode) (f : ResultFlags) (d0 d1 : Word) : (s.putResult o c f d0 d1).held = s.held :=
  rfl
@[simp] theorem State.putResult_pinOwner (o : BitVec 8) (c : ResultCode) (f : ResultFlags) (d0 d1 : Word) : (s.putResult o c f d0 d1).pinOwner = s.pinOwner :=
  rfl
@[simp] theorem State.putResult_pad (o : BitVec 8) (c : ResultCode) (f : ResultFlags) (d0 d1 : Word) : (s.putResult o c f d0 d1).pad = s.pad :=
  rfl
@[simp] theorem State.putResult_nt (o : BitVec 8) (c : ResultCode) (f : ResultFlags) (d0 d1 : Word) : (s.putResult o c f d0 d1).nt = s.nt :=
  rfl
@[simp] theorem State.putResult_mem (o : BitVec 8) (c : ResultCode) (f : ResultFlags) (d0 d1 : Word) : (s.putResult o c f d0 d1).mem = s.mem :=
  rfl
@[simp] theorem State.putResult_buf (o : BitVec 8) (c : ResultCode) (f : ResultFlags) (d0 d1 : Word) : (s.putResult o c f d0 d1).buf = s.buf :=
  rfl
@[simp] theorem State.putResult_plane (o : BitVec 8) (c : ResultCode) (f : ResultFlags) (d0 d1 : Word) : (s.putResult o c f d0 d1).plane = s.plane :=
  rfl
@[simp] theorem State.putResult_fault (o : BitVec 8) (c : ResultCode) (f : ResultFlags) (d0 d1 : Word) : (s.putResult o c f d0 d1).fault = s.fault :=
  rfl
@[simp] theorem State.putResult_faultCode (o : BitVec 8) (c : ResultCode) (f : ResultFlags) (d0 d1 : Word) : (s.putResult o c f d0 d1).faultCode = s.faultCode :=
  rfl
@[simp] theorem State.putResult_pins (o : BitVec 8) (c : ResultCode) (f : ResultFlags) (d0 d1 : Word) : (s.putResult o c f d0 d1).pins = s.pins :=
  rfl
@[simp] theorem State.putResult_readData (o : BitVec 8) (c : ResultCode) (f : ResultFlags) (d0 d1 : Word) : (s.putResult o c f d0 d1).readData = s.readData :=
  rfl
@[simp] theorem State.putResult_sched (o : BitVec 8) (c : ResultCode) (f : ResultFlags) (d0 d1 : Word) : (s.putResult o c f d0 d1).sched = s.sched :=
  rfl
@[simp] theorem State.putResult_drawIx (o : BitVec 8) (c : ResultCode) (f : ResultFlags) (d0 d1 : Word) : (s.putResult o c f d0 d1).drawIx = s.drawIx :=
  rfl

/-! The fields after `State.plainResult`. -/

@[simp] theorem State.plainResult_result (o : BitVec 8) (c : ResultCode) : (s.plainResult o c).result = resultWord o c {} :=
  rfl
@[simp] theorem State.plainResult_data0 (o : BitVec 8) (c : ResultCode) : (s.plainResult o c).data0 = 0 := rfl
@[simp] theorem State.plainResult_data1 (o : BitVec 8) (c : ResultCode) : (s.plainResult o c).data1 = 0 := rfl
@[simp] theorem State.plainResult_params (o : BitVec 8) (c : ResultCode) : (s.plainResult o c).params = s.params := rfl
@[simp] theorem State.plainResult_arg0 (o : BitVec 8) (c : ResultCode) : (s.plainResult o c).arg0 = s.arg0 := rfl
@[simp] theorem State.plainResult_cs (o : BitVec 8) (c : ResultCode) : (s.plainResult o c).cs = s.cs := rfl
@[simp] theorem State.plainResult_lc (o : BitVec 8) (c : ResultCode) : (s.plainResult o c).lc = s.lc := rfl
@[simp] theorem State.plainResult_dec (o : BitVec 8) (c : ResultCode) : (s.plainResult o c).dec = s.dec := rfl
@[simp] theorem State.plainResult_held (o : BitVec 8) (c : ResultCode) : (s.plainResult o c).held = s.held := rfl
@[simp] theorem State.plainResult_pinOwner (o : BitVec 8) (c : ResultCode) : (s.plainResult o c).pinOwner = s.pinOwner :=
  rfl
@[simp] theorem State.plainResult_pad (o : BitVec 8) (c : ResultCode) : (s.plainResult o c).pad = s.pad := rfl
@[simp] theorem State.plainResult_nt (o : BitVec 8) (c : ResultCode) : (s.plainResult o c).nt = s.nt := rfl
@[simp] theorem State.plainResult_mem (o : BitVec 8) (c : ResultCode) : (s.plainResult o c).mem = s.mem := rfl
@[simp] theorem State.plainResult_buf (o : BitVec 8) (c : ResultCode) : (s.plainResult o c).buf = s.buf := rfl
@[simp] theorem State.plainResult_plane (o : BitVec 8) (c : ResultCode) : (s.plainResult o c).plane = s.plane := rfl
@[simp] theorem State.plainResult_fault (o : BitVec 8) (c : ResultCode) : (s.plainResult o c).fault = s.fault := rfl
@[simp] theorem State.plainResult_faultCode (o : BitVec 8) (c : ResultCode) : (s.plainResult o c).faultCode = s.faultCode :=
  rfl
@[simp] theorem State.plainResult_pins (o : BitVec 8) (c : ResultCode) : (s.plainResult o c).pins = s.pins := rfl
@[simp] theorem State.plainResult_readData (o : BitVec 8) (c : ResultCode) : (s.plainResult o c).readData = s.readData :=
  rfl
@[simp] theorem State.plainResult_sched (o : BitVec 8) (c : ResultCode) : (s.plainResult o c).sched = s.sched := rfl
@[simp] theorem State.plainResult_drawIx (o : BitVec 8) (c : ResultCode) : (s.plainResult o c).drawIx = s.drawIx := rfl

/-! The fields after `State.claim`. -/

@[simp] theorem State.claim_params (pool : Pool) (i : Nat) : (s.claim pool i).params = s.params := rfl
@[simp] theorem State.claim_arg0 (pool : Pool) (i : Nat) : (s.claim pool i).arg0 = s.arg0 := rfl
@[simp] theorem State.claim_result (pool : Pool) (i : Nat) : (s.claim pool i).result = s.result := rfl
@[simp] theorem State.claim_data0 (pool : Pool) (i : Nat) : (s.claim pool i).data0 = s.data0 := rfl
@[simp] theorem State.claim_data1 (pool : Pool) (i : Nat) : (s.claim pool i).data1 = s.data1 := rfl
@[simp] theorem State.claim_cs (pool : Pool) (i : Nat) : (s.claim pool i).cs = s.cs := rfl
@[simp] theorem State.claim_lc (pool : Pool) (i : Nat) : (s.claim pool i).lc = s.lc := rfl
@[simp] theorem State.claim_dec (pool : Pool) (i : Nat) : (s.claim pool i).dec = s.dec := rfl
@[simp] theorem State.claim_pinOwner (pool : Pool) (i : Nat) : (s.claim pool i).pinOwner = s.pinOwner := rfl
@[simp] theorem State.claim_pad (pool : Pool) (i : Nat) : (s.claim pool i).pad = s.pad := rfl
@[simp] theorem State.claim_nt (pool : Pool) (i : Nat) : (s.claim pool i).nt = s.nt := rfl
@[simp] theorem State.claim_mem (pool : Pool) (i : Nat) : (s.claim pool i).mem = s.mem := rfl
@[simp] theorem State.claim_buf (pool : Pool) (i : Nat) : (s.claim pool i).buf = s.buf := rfl
@[simp] theorem State.claim_plane (pool : Pool) (i : Nat) : (s.claim pool i).plane = s.plane := rfl
@[simp] theorem State.claim_fault (pool : Pool) (i : Nat) : (s.claim pool i).fault = s.fault := rfl
@[simp] theorem State.claim_faultCode (pool : Pool) (i : Nat) : (s.claim pool i).faultCode = s.faultCode := rfl
@[simp] theorem State.claim_pins (pool : Pool) (i : Nat) : (s.claim pool i).pins = s.pins := rfl
@[simp] theorem State.claim_readData (pool : Pool) (i : Nat) : (s.claim pool i).readData = s.readData := rfl
@[simp] theorem State.claim_sched (pool : Pool) (i : Nat) : (s.claim pool i).sched = s.sched := rfl
@[simp] theorem State.claim_drawIx (pool : Pool) (i : Nat) : (s.claim pool i).drawIx = s.drawIx := rfl

/-! The fields after `State.release`. -/

@[simp] theorem State.release_params (pool : Pool) (h : Option Nat) : (s.release pool h).params = s.params :=
  by cases h <;> rfl
@[simp] theorem State.release_arg0 (pool : Pool) (h : Option Nat) : (s.release pool h).arg0 = s.arg0 :=
  by cases h <;> rfl
@[simp] theorem State.release_result (pool : Pool) (h : Option Nat) : (s.release pool h).result = s.result :=
  by cases h <;> rfl
@[simp] theorem State.release_data0 (pool : Pool) (h : Option Nat) : (s.release pool h).data0 = s.data0 :=
  by cases h <;> rfl
@[simp] theorem State.release_data1 (pool : Pool) (h : Option Nat) : (s.release pool h).data1 = s.data1 :=
  by cases h <;> rfl
@[simp] theorem State.release_cs (pool : Pool) (h : Option Nat) : (s.release pool h).cs = s.cs := by cases h <;> rfl
@[simp] theorem State.release_lc (pool : Pool) (h : Option Nat) : (s.release pool h).lc = s.lc := by cases h <;> rfl
@[simp] theorem State.release_dec (pool : Pool) (h : Option Nat) : (s.release pool h).dec = s.dec := by cases h <;> rfl
@[simp] theorem State.release_pinOwner (pool : Pool) (h : Option Nat) : (s.release pool h).pinOwner = s.pinOwner :=
  by cases h <;> rfl
@[simp] theorem State.release_pad (pool : Pool) (h : Option Nat) : (s.release pool h).pad = s.pad := by cases h <;> rfl
@[simp] theorem State.release_nt (pool : Pool) (h : Option Nat) : (s.release pool h).nt = s.nt := by cases h <;> rfl
@[simp] theorem State.release_mem (pool : Pool) (h : Option Nat) : (s.release pool h).mem = s.mem := by cases h <;> rfl
@[simp] theorem State.release_buf (pool : Pool) (h : Option Nat) : (s.release pool h).buf = s.buf := by cases h <;> rfl
@[simp] theorem State.release_plane (pool : Pool) (h : Option Nat) : (s.release pool h).plane = s.plane :=
  by cases h <;> rfl
@[simp] theorem State.release_fault (pool : Pool) (h : Option Nat) : (s.release pool h).fault = s.fault :=
  by cases h <;> rfl
@[simp] theorem State.release_faultCode (pool : Pool) (h : Option Nat) : (s.release pool h).faultCode = s.faultCode :=
  by cases h <;> rfl
@[simp] theorem State.release_pins (pool : Pool) (h : Option Nat) : (s.release pool h).pins = s.pins :=
  by cases h <;> rfl
@[simp] theorem State.release_readData (pool : Pool) (h : Option Nat) : (s.release pool h).readData = s.readData :=
  by cases h <;> rfl
@[simp] theorem State.release_sched (pool : Pool) (h : Option Nat) : (s.release pool h).sched = s.sched :=
  by cases h <;> rfl
@[simp] theorem State.release_drawIx (pool : Pool) (h : Option Nat) : (s.release pool h).drawIx = s.drawIx :=
  by cases h <;> rfl

/-! The fields after `State.ownPins`. -/

@[simp] theorem State.ownPins_pinOwner (base n : Nat) (o : PinOwner) : (s.ownPins base n o).pinOwner = assignPins s.pinOwner base n o :=
  rfl
@[simp] theorem State.ownPins_params (base n : Nat) (o : PinOwner) : (s.ownPins base n o).params = s.params := rfl
@[simp] theorem State.ownPins_arg0 (base n : Nat) (o : PinOwner) : (s.ownPins base n o).arg0 = s.arg0 := rfl
@[simp] theorem State.ownPins_result (base n : Nat) (o : PinOwner) : (s.ownPins base n o).result = s.result := rfl
@[simp] theorem State.ownPins_data0 (base n : Nat) (o : PinOwner) : (s.ownPins base n o).data0 = s.data0 := rfl
@[simp] theorem State.ownPins_data1 (base n : Nat) (o : PinOwner) : (s.ownPins base n o).data1 = s.data1 := rfl
@[simp] theorem State.ownPins_cs (base n : Nat) (o : PinOwner) : (s.ownPins base n o).cs = s.cs := rfl
@[simp] theorem State.ownPins_lc (base n : Nat) (o : PinOwner) : (s.ownPins base n o).lc = s.lc := rfl
@[simp] theorem State.ownPins_dec (base n : Nat) (o : PinOwner) : (s.ownPins base n o).dec = s.dec := rfl
@[simp] theorem State.ownPins_held (base n : Nat) (o : PinOwner) : (s.ownPins base n o).held = s.held := rfl
@[simp] theorem State.ownPins_pad (base n : Nat) (o : PinOwner) : (s.ownPins base n o).pad = s.pad := rfl
@[simp] theorem State.ownPins_nt (base n : Nat) (o : PinOwner) : (s.ownPins base n o).nt = s.nt := rfl
@[simp] theorem State.ownPins_mem (base n : Nat) (o : PinOwner) : (s.ownPins base n o).mem = s.mem := rfl
@[simp] theorem State.ownPins_buf (base n : Nat) (o : PinOwner) : (s.ownPins base n o).buf = s.buf := rfl
@[simp] theorem State.ownPins_plane (base n : Nat) (o : PinOwner) : (s.ownPins base n o).plane = s.plane := rfl
@[simp] theorem State.ownPins_fault (base n : Nat) (o : PinOwner) : (s.ownPins base n o).fault = s.fault := rfl
@[simp] theorem State.ownPins_faultCode (base n : Nat) (o : PinOwner) : (s.ownPins base n o).faultCode = s.faultCode :=
  rfl
@[simp] theorem State.ownPins_pins (base n : Nat) (o : PinOwner) : (s.ownPins base n o).pins = s.pins := rfl
@[simp] theorem State.ownPins_readData (base n : Nat) (o : PinOwner) : (s.ownPins base n o).readData = s.readData := rfl
@[simp] theorem State.ownPins_sched (base n : Nat) (o : PinOwner) : (s.ownPins base n o).sched = s.sched := rfl
@[simp] theorem State.ownPins_drawIx (base n : Nat) (o : PinOwner) : (s.ownPins base n o).drawIx = s.drawIx := rfl

/-! The fields after `State.padPins`. -/

@[simp] theorem State.padPins_pad (base n : Nat) (c : PadConfig) : (s.padPins base n c).pad = assignPins s.pad base n c :=
  rfl
@[simp] theorem State.padPins_params (base n : Nat) (c : PadConfig) : (s.padPins base n c).params = s.params := rfl
@[simp] theorem State.padPins_arg0 (base n : Nat) (c : PadConfig) : (s.padPins base n c).arg0 = s.arg0 := rfl
@[simp] theorem State.padPins_result (base n : Nat) (c : PadConfig) : (s.padPins base n c).result = s.result := rfl
@[simp] theorem State.padPins_data0 (base n : Nat) (c : PadConfig) : (s.padPins base n c).data0 = s.data0 := rfl
@[simp] theorem State.padPins_data1 (base n : Nat) (c : PadConfig) : (s.padPins base n c).data1 = s.data1 := rfl
@[simp] theorem State.padPins_cs (base n : Nat) (c : PadConfig) : (s.padPins base n c).cs = s.cs := rfl
@[simp] theorem State.padPins_lc (base n : Nat) (c : PadConfig) : (s.padPins base n c).lc = s.lc := rfl
@[simp] theorem State.padPins_dec (base n : Nat) (c : PadConfig) : (s.padPins base n c).dec = s.dec := rfl
@[simp] theorem State.padPins_held (base n : Nat) (c : PadConfig) : (s.padPins base n c).held = s.held := rfl
@[simp] theorem State.padPins_pinOwner (base n : Nat) (c : PadConfig) : (s.padPins base n c).pinOwner = s.pinOwner :=
  rfl
@[simp] theorem State.padPins_nt (base n : Nat) (c : PadConfig) : (s.padPins base n c).nt = s.nt := rfl
@[simp] theorem State.padPins_mem (base n : Nat) (c : PadConfig) : (s.padPins base n c).mem = s.mem := rfl
@[simp] theorem State.padPins_buf (base n : Nat) (c : PadConfig) : (s.padPins base n c).buf = s.buf := rfl
@[simp] theorem State.padPins_plane (base n : Nat) (c : PadConfig) : (s.padPins base n c).plane = s.plane := rfl
@[simp] theorem State.padPins_fault (base n : Nat) (c : PadConfig) : (s.padPins base n c).fault = s.fault := rfl
@[simp] theorem State.padPins_faultCode (base n : Nat) (c : PadConfig) : (s.padPins base n c).faultCode = s.faultCode :=
  rfl
@[simp] theorem State.padPins_pins (base n : Nat) (c : PadConfig) : (s.padPins base n c).pins = s.pins := rfl
@[simp] theorem State.padPins_readData (base n : Nat) (c : PadConfig) : (s.padPins base n c).readData = s.readData :=
  rfl
@[simp] theorem State.padPins_sched (base n : Nat) (c : PadConfig) : (s.padPins base n c).sched = s.sched := rfl
@[simp] theorem State.padPins_drawIx (base n : Nat) (c : PadConfig) : (s.padPins base n c).drawIx = s.drawIx := rfl

/-! The fields after `State.laneOff`. -/

@[simp] theorem State.laneOff_lc : (s.laneOff).lc = { phase := .off, isr := 0, cnt := 0, rxc := [] } := rfl
@[simp] theorem State.laneOff_params : (s.laneOff).params = s.params := rfl
@[simp] theorem State.laneOff_arg0 : (s.laneOff).arg0 = s.arg0 := rfl
@[simp] theorem State.laneOff_result : (s.laneOff).result = s.result := rfl
@[simp] theorem State.laneOff_data0 : (s.laneOff).data0 = s.data0 := rfl
@[simp] theorem State.laneOff_data1 : (s.laneOff).data1 = s.data1 := rfl
@[simp] theorem State.laneOff_cs : (s.laneOff).cs = s.cs := rfl
@[simp] theorem State.laneOff_dec : (s.laneOff).dec = s.dec := rfl
@[simp] theorem State.laneOff_held : (s.laneOff).held = s.held := rfl
@[simp] theorem State.laneOff_pinOwner : (s.laneOff).pinOwner = s.pinOwner := rfl
@[simp] theorem State.laneOff_pad : (s.laneOff).pad = s.pad := rfl
@[simp] theorem State.laneOff_nt : (s.laneOff).nt = s.nt := rfl
@[simp] theorem State.laneOff_mem : (s.laneOff).mem = s.mem := rfl
@[simp] theorem State.laneOff_buf : (s.laneOff).buf = s.buf := rfl
@[simp] theorem State.laneOff_plane : (s.laneOff).plane = s.plane := rfl
@[simp] theorem State.laneOff_fault : (s.laneOff).fault = s.fault := rfl
@[simp] theorem State.laneOff_faultCode : (s.laneOff).faultCode = s.faultCode := rfl
@[simp] theorem State.laneOff_pins : (s.laneOff).pins = s.pins := rfl
@[simp] theorem State.laneOff_readData : (s.laneOff).readData = s.readData := rfl
@[simp] theorem State.laneOff_sched : (s.laneOff).sched = s.sched := rfl
@[simp] theorem State.laneOff_drawIx : (s.laneOff).drawIx = s.drawIx := rfl

/-! The fields after `State.releaseSession`. -/

@[simp] theorem State.releaseSession_lc : (s.releaseSession).lc = { phase := .off, isr := 0, cnt := 0, rxc := [] } :=
  by simp [State.releaseSession]
@[simp] theorem State.releaseSession_cs : (s.releaseSession).cs = { s.cs with xfer := none, lane := none, prog := none } :=
  by simp [State.releaseSession]
@[simp] theorem State.releaseSession_pinOwner : (s.releaseSession).pinOwner = assignPins s.pinOwner s.cs.pinBase.toNat s.cs.pinCount.toNat .none :=
  by simp [State.releaseSession]
@[simp] theorem State.releaseSession_params : (s.releaseSession).params = s.params := by simp [State.releaseSession]
@[simp] theorem State.releaseSession_arg0 : (s.releaseSession).arg0 = s.arg0 := by simp [State.releaseSession]
@[simp] theorem State.releaseSession_result : (s.releaseSession).result = s.result := by simp [State.releaseSession]
@[simp] theorem State.releaseSession_data0 : (s.releaseSession).data0 = s.data0 := by simp [State.releaseSession]
@[simp] theorem State.releaseSession_data1 : (s.releaseSession).data1 = s.data1 := by simp [State.releaseSession]
@[simp] theorem State.releaseSession_dec : (s.releaseSession).dec = s.dec := by simp [State.releaseSession]
@[simp] theorem State.releaseSession_pad : (s.releaseSession).pad = s.pad := by simp [State.releaseSession]
@[simp] theorem State.releaseSession_nt : (s.releaseSession).nt = s.nt := by simp [State.releaseSession]
@[simp] theorem State.releaseSession_mem : (s.releaseSession).mem = s.mem := by simp [State.releaseSession]
@[simp] theorem State.releaseSession_buf : (s.releaseSession).buf = s.buf := by simp [State.releaseSession]
@[simp] theorem State.releaseSession_plane : (s.releaseSession).plane = s.plane := by simp [State.releaseSession]
@[simp] theorem State.releaseSession_fault : (s.releaseSession).fault = s.fault := by simp [State.releaseSession]
@[simp] theorem State.releaseSession_faultCode : (s.releaseSession).faultCode = s.faultCode :=
  by simp [State.releaseSession]
@[simp] theorem State.releaseSession_pins : (s.releaseSession).pins = s.pins := by simp [State.releaseSession]
@[simp] theorem State.releaseSession_readData : (s.releaseSession).readData = s.readData :=
  by simp [State.releaseSession]
@[simp] theorem State.releaseSession_sched : (s.releaseSession).sched = s.sched := by simp [State.releaseSession]
@[simp] theorem State.releaseSession_drawIx : (s.releaseSession).drawIx = s.drawIx := by simp [State.releaseSession]

/-! The fields after `State.capWrite`. -/

@[simp] theorem State.capWrite_params (i : Nat) (w : Word) : (s.capWrite i w).params = s.params :=
  by unfold State.capWrite; split <;> rfl
@[simp] theorem State.capWrite_arg0 (i : Nat) (w : Word) : (s.capWrite i w).arg0 = s.arg0 :=
  by unfold State.capWrite; split <;> rfl
@[simp] theorem State.capWrite_result (i : Nat) (w : Word) : (s.capWrite i w).result = s.result :=
  by unfold State.capWrite; split <;> rfl
@[simp] theorem State.capWrite_data0 (i : Nat) (w : Word) : (s.capWrite i w).data0 = s.data0 :=
  by unfold State.capWrite; split <;> rfl
@[simp] theorem State.capWrite_data1 (i : Nat) (w : Word) : (s.capWrite i w).data1 = s.data1 :=
  by unfold State.capWrite; split <;> rfl
@[simp] theorem State.capWrite_cs (i : Nat) (w : Word) : (s.capWrite i w).cs = s.cs :=
  by unfold State.capWrite; split <;> rfl
@[simp] theorem State.capWrite_lc (i : Nat) (w : Word) : (s.capWrite i w).lc = s.lc :=
  by unfold State.capWrite; split <;> rfl
@[simp] theorem State.capWrite_dec (i : Nat) (w : Word) : (s.capWrite i w).dec = s.dec :=
  by unfold State.capWrite; split <;> rfl
@[simp] theorem State.capWrite_held (i : Nat) (w : Word) : (s.capWrite i w).held = s.held :=
  by unfold State.capWrite; split <;> rfl
@[simp] theorem State.capWrite_pinOwner (i : Nat) (w : Word) : (s.capWrite i w).pinOwner = s.pinOwner :=
  by unfold State.capWrite; split <;> rfl
@[simp] theorem State.capWrite_pad (i : Nat) (w : Word) : (s.capWrite i w).pad = s.pad :=
  by unfold State.capWrite; split <;> rfl
@[simp] theorem State.capWrite_nt (i : Nat) (w : Word) : (s.capWrite i w).nt = s.nt :=
  by unfold State.capWrite; split <;> rfl
@[simp] theorem State.capWrite_buf (i : Nat) (w : Word) : (s.capWrite i w).buf = s.buf :=
  by unfold State.capWrite; split <;> rfl
@[simp] theorem State.capWrite_plane (i : Nat) (w : Word) : (s.capWrite i w).plane = s.plane :=
  by unfold State.capWrite; split <;> rfl
@[simp] theorem State.capWrite_fault (i : Nat) (w : Word) : (s.capWrite i w).fault = s.fault :=
  by unfold State.capWrite; split <;> rfl
@[simp] theorem State.capWrite_faultCode (i : Nat) (w : Word) : (s.capWrite i w).faultCode = s.faultCode :=
  by unfold State.capWrite; split <;> rfl
@[simp] theorem State.capWrite_pins (i : Nat) (w : Word) : (s.capWrite i w).pins = s.pins :=
  by unfold State.capWrite; split <;> rfl
@[simp] theorem State.capWrite_readData (i : Nat) (w : Word) : (s.capWrite i w).readData = s.readData :=
  by unfold State.capWrite; split <;> rfl
@[simp] theorem State.capWrite_sched (i : Nat) (w : Word) : (s.capWrite i w).sched = s.sched :=
  by unfold State.capWrite; split <;> rfl
@[simp] theorem State.capWrite_drawIx (i : Nat) (w : Word) : (s.capWrite i w).drawIx = s.drawIx :=
  by unfold State.capWrite; split <;> rfl

/-! The fields after `State.planeWrite`. -/

@[simp] theorem State.planeWrite_params (i : Nat) (w : Word) : (s.planeWrite i w).params = s.params :=
  by unfold State.planeWrite; split <;> rfl
@[simp] theorem State.planeWrite_arg0 (i : Nat) (w : Word) : (s.planeWrite i w).arg0 = s.arg0 :=
  by unfold State.planeWrite; split <;> rfl
@[simp] theorem State.planeWrite_result (i : Nat) (w : Word) : (s.planeWrite i w).result = s.result :=
  by unfold State.planeWrite; split <;> rfl
@[simp] theorem State.planeWrite_data0 (i : Nat) (w : Word) : (s.planeWrite i w).data0 = s.data0 :=
  by unfold State.planeWrite; split <;> rfl
@[simp] theorem State.planeWrite_data1 (i : Nat) (w : Word) : (s.planeWrite i w).data1 = s.data1 :=
  by unfold State.planeWrite; split <;> rfl
@[simp] theorem State.planeWrite_cs (i : Nat) (w : Word) : (s.planeWrite i w).cs = s.cs :=
  by unfold State.planeWrite; split <;> rfl
@[simp] theorem State.planeWrite_lc (i : Nat) (w : Word) : (s.planeWrite i w).lc = s.lc :=
  by unfold State.planeWrite; split <;> rfl
@[simp] theorem State.planeWrite_dec (i : Nat) (w : Word) : (s.planeWrite i w).dec = s.dec :=
  by unfold State.planeWrite; split <;> rfl
@[simp] theorem State.planeWrite_held (i : Nat) (w : Word) : (s.planeWrite i w).held = s.held :=
  by unfold State.planeWrite; split <;> rfl
@[simp] theorem State.planeWrite_pinOwner (i : Nat) (w : Word) : (s.planeWrite i w).pinOwner = s.pinOwner :=
  by unfold State.planeWrite; split <;> rfl
@[simp] theorem State.planeWrite_pad (i : Nat) (w : Word) : (s.planeWrite i w).pad = s.pad :=
  by unfold State.planeWrite; split <;> rfl
@[simp] theorem State.planeWrite_nt (i : Nat) (w : Word) : (s.planeWrite i w).nt = s.nt :=
  by unfold State.planeWrite; split <;> rfl
@[simp] theorem State.planeWrite_buf (i : Nat) (w : Word) : (s.planeWrite i w).buf = s.buf :=
  by unfold State.planeWrite; split <;> rfl
@[simp] theorem State.planeWrite_plane (i : Nat) (w : Word) : (s.planeWrite i w).plane = s.plane :=
  by unfold State.planeWrite; split <;> rfl
@[simp] theorem State.planeWrite_fault (i : Nat) (w : Word) : (s.planeWrite i w).fault = s.fault :=
  by unfold State.planeWrite; split <;> rfl
@[simp] theorem State.planeWrite_faultCode (i : Nat) (w : Word) : (s.planeWrite i w).faultCode = s.faultCode :=
  by unfold State.planeWrite; split <;> rfl
@[simp] theorem State.planeWrite_pins (i : Nat) (w : Word) : (s.planeWrite i w).pins = s.pins :=
  by unfold State.planeWrite; split <;> rfl
@[simp] theorem State.planeWrite_readData (i : Nat) (w : Word) : (s.planeWrite i w).readData = s.readData :=
  by unfold State.planeWrite; split <;> rfl
@[simp] theorem State.planeWrite_sched (i : Nat) (w : Word) : (s.planeWrite i w).sched = s.sched :=
  by unfold State.planeWrite; split <;> rfl
@[simp] theorem State.planeWrite_drawIx (i : Nat) (w : Word) : (s.planeWrite i w).drawIx = s.drawIx :=
  by unfold State.planeWrite; split <;> rfl

/-! The fields after `State.planeFill`. -/

@[simp] theorem State.planeFill_params (ws : Nat → Word) (N : Nat) : (s.planeFill ws N).params = s.params :=
  by induction N <;> simp_all [State.planeFill]
@[simp] theorem State.planeFill_arg0 (ws : Nat → Word) (N : Nat) : (s.planeFill ws N).arg0 = s.arg0 :=
  by induction N <;> simp_all [State.planeFill]
@[simp] theorem State.planeFill_result (ws : Nat → Word) (N : Nat) : (s.planeFill ws N).result = s.result :=
  by induction N <;> simp_all [State.planeFill]
@[simp] theorem State.planeFill_data0 (ws : Nat → Word) (N : Nat) : (s.planeFill ws N).data0 = s.data0 :=
  by induction N <;> simp_all [State.planeFill]
@[simp] theorem State.planeFill_data1 (ws : Nat → Word) (N : Nat) : (s.planeFill ws N).data1 = s.data1 :=
  by induction N <;> simp_all [State.planeFill]
@[simp] theorem State.planeFill_cs (ws : Nat → Word) (N : Nat) : (s.planeFill ws N).cs = s.cs :=
  by induction N <;> simp_all [State.planeFill]
@[simp] theorem State.planeFill_lc (ws : Nat → Word) (N : Nat) : (s.planeFill ws N).lc = s.lc :=
  by induction N <;> simp_all [State.planeFill]
@[simp] theorem State.planeFill_dec (ws : Nat → Word) (N : Nat) : (s.planeFill ws N).dec = s.dec :=
  by induction N <;> simp_all [State.planeFill]
@[simp] theorem State.planeFill_held (ws : Nat → Word) (N : Nat) : (s.planeFill ws N).held = s.held :=
  by induction N <;> simp_all [State.planeFill]
@[simp] theorem State.planeFill_pinOwner (ws : Nat → Word) (N : Nat) : (s.planeFill ws N).pinOwner = s.pinOwner :=
  by induction N <;> simp_all [State.planeFill]
@[simp] theorem State.planeFill_pad (ws : Nat → Word) (N : Nat) : (s.planeFill ws N).pad = s.pad :=
  by induction N <;> simp_all [State.planeFill]
@[simp] theorem State.planeFill_nt (ws : Nat → Word) (N : Nat) : (s.planeFill ws N).nt = s.nt :=
  by induction N <;> simp_all [State.planeFill]
@[simp] theorem State.planeFill_buf (ws : Nat → Word) (N : Nat) : (s.planeFill ws N).buf = s.buf :=
  by induction N <;> simp_all [State.planeFill]
@[simp] theorem State.planeFill_plane (ws : Nat → Word) (N : Nat) : (s.planeFill ws N).plane = s.plane :=
  by induction N <;> simp_all [State.planeFill]
@[simp] theorem State.planeFill_fault (ws : Nat → Word) (N : Nat) : (s.planeFill ws N).fault = s.fault :=
  by induction N <;> simp_all [State.planeFill]
@[simp] theorem State.planeFill_faultCode (ws : Nat → Word) (N : Nat) : (s.planeFill ws N).faultCode = s.faultCode :=
  by induction N <;> simp_all [State.planeFill]
@[simp] theorem State.planeFill_pins (ws : Nat → Word) (N : Nat) : (s.planeFill ws N).pins = s.pins :=
  by induction N <;> simp_all [State.planeFill]
@[simp] theorem State.planeFill_readData (ws : Nat → Word) (N : Nat) : (s.planeFill ws N).readData = s.readData :=
  by induction N <;> simp_all [State.planeFill]
@[simp] theorem State.planeFill_sched (ws : Nat → Word) (N : Nat) : (s.planeFill ws N).sched = s.sched :=
  by induction N <;> simp_all [State.planeFill]
@[simp] theorem State.planeFill_drawIx (ws : Nat → Word) (N : Nat) : (s.planeFill ws N).drawIx = s.drawIx :=
  by induction N <;> simp_all [State.planeFill]

/-! The fields after `State.enter`. -/

@[simp] theorem State.enter_cs (c : CsState) : (s.enter c).cs = { s.cs with state := c } := rfl
@[simp] theorem State.enter_params (c : CsState) : (s.enter c).params = s.params := rfl
@[simp] theorem State.enter_arg0 (c : CsState) : (s.enter c).arg0 = s.arg0 := rfl
@[simp] theorem State.enter_result (c : CsState) : (s.enter c).result = s.result := rfl
@[simp] theorem State.enter_data0 (c : CsState) : (s.enter c).data0 = s.data0 := rfl
@[simp] theorem State.enter_data1 (c : CsState) : (s.enter c).data1 = s.data1 := rfl
@[simp] theorem State.enter_lc (c : CsState) : (s.enter c).lc = s.lc := rfl
@[simp] theorem State.enter_dec (c : CsState) : (s.enter c).dec = s.dec := rfl
@[simp] theorem State.enter_held (c : CsState) : (s.enter c).held = s.held := rfl
@[simp] theorem State.enter_pinOwner (c : CsState) : (s.enter c).pinOwner = s.pinOwner := rfl
@[simp] theorem State.enter_pad (c : CsState) : (s.enter c).pad = s.pad := rfl
@[simp] theorem State.enter_nt (c : CsState) : (s.enter c).nt = s.nt := rfl
@[simp] theorem State.enter_mem (c : CsState) : (s.enter c).mem = s.mem := rfl
@[simp] theorem State.enter_buf (c : CsState) : (s.enter c).buf = s.buf := rfl
@[simp] theorem State.enter_plane (c : CsState) : (s.enter c).plane = s.plane := rfl
@[simp] theorem State.enter_fault (c : CsState) : (s.enter c).fault = s.fault := rfl
@[simp] theorem State.enter_faultCode (c : CsState) : (s.enter c).faultCode = s.faultCode := rfl
@[simp] theorem State.enter_pins (c : CsState) : (s.enter c).pins = s.pins := rfl
@[simp] theorem State.enter_readData (c : CsState) : (s.enter c).readData = s.readData := rfl
@[simp] theorem State.enter_sched (c : CsState) : (s.enter c).sched = s.sched := rfl
@[simp] theorem State.enter_drawIx (c : CsState) : (s.enter c).drawIx = s.drawIx := rfl

/-! The fields after `State.complete`. -/

@[simp] theorem State.complete_cs : (s.complete).cs = { s.cs with state := .released, xfer := none, lane := none, prog := none } :=
  by simp [State.complete]
@[simp] theorem State.complete_result : (s.complete).result = resultWord opcRunCapture .ok {} := rfl
@[simp] theorem State.complete_data0 : (s.complete).data0 = BitVec.ofNat 32 s.cs.cap := by simp [State.complete]
@[simp] theorem State.complete_data1 : (s.complete).data1 = 0 := rfl
@[simp] theorem State.complete_lc : (s.complete).lc = { phase := .off, isr := 0, cnt := 0, rxc := [] } :=
  by simp [State.complete]
@[simp] theorem State.complete_pinOwner : (s.complete).pinOwner = assignPins s.pinOwner s.cs.pinBase.toNat s.cs.pinCount.toNat .none :=
  by simp [State.complete]
@[simp] theorem State.complete_buf : (s.complete).buf = { valid := true, words := s.cs.cap, pinCount := s.cs.pinCount } :=
  by simp [State.complete]
@[simp] theorem State.complete_params : (s.complete).params = s.params := by simp [State.complete]
@[simp] theorem State.complete_arg0 : (s.complete).arg0 = s.arg0 := by simp [State.complete]
@[simp] theorem State.complete_dec : (s.complete).dec = s.dec := by simp [State.complete]
@[simp] theorem State.complete_pad : (s.complete).pad = s.pad := by simp [State.complete]
@[simp] theorem State.complete_nt : (s.complete).nt = s.nt := by simp [State.complete]
@[simp] theorem State.complete_mem : (s.complete).mem = s.mem := by simp [State.complete]
@[simp] theorem State.complete_plane : (s.complete).plane = s.plane := by simp [State.complete]
@[simp] theorem State.complete_fault : (s.complete).fault = s.fault := by simp [State.complete]
@[simp] theorem State.complete_faultCode : (s.complete).faultCode = s.faultCode := by simp [State.complete]
@[simp] theorem State.complete_pins : (s.complete).pins = s.pins := by simp [State.complete]
@[simp] theorem State.complete_readData : (s.complete).readData = s.readData := by simp [State.complete]
@[simp] theorem State.complete_sched : (s.complete).sched = s.sched := by simp [State.complete]
@[simp] theorem State.complete_drawIx : (s.complete).drawIx = s.drawIx := by simp [State.complete]

end Sys2Proof.Machine
end

