-- ==== Sys2Proof/Laws/Ops.lean ====
section
/-! SUPPORT. One lemma per shared operation that says what it can do: raising a fault, the gate, the pools, the pin maps,
the buffers and releasing a session. -/

namespace Sys2Proof.Machine

/-- The first fault is recorded. -/
theorem State.raise_of_clear (s : State) (k : FaultKind) (h : s.fault = false) :
    s.raise k = { s with fault := true, faultCode := k.bits } := by simp [State.raise, h]

/-- A later fault changes nothing. -/
theorem State.raise_of_fault (s : State) (k : FaultKind) (h : s.fault = true) : s.raise k = s := by simp [State.raise, h]

/-- Past the gate: no fault set and not BUSY. -/
theorem State.gated_of_ready (s : State) (f : State → State) (hf : s.fault = false) (hb : s.busy = false) :
    s.gated f = f s := by simp [State.gated, hf, hb]

theorem State.gated_of_fault (s : State) (f : State → State) (hf : s.fault = true) : s.gated f = s := by
  simp [State.gated, hf]

theorem State.gated_of_busy (s : State) (f : State → State) (hf : s.fault = false) (hb : s.busy = true) :
    s.gated f = s.raise .busyViolation := by simp [State.gated, hf, hb]

/-- All a gated command can do. -/
theorem State.gated_cases (s : State) (f : State → State) :
    (s.fault = true ∧ s.gated f = s) ∨ (s.fault = false ∧ s.busy = true ∧ s.gated f = s.raise .busyViolation) ∨
      (s.fault = false ∧ s.busy = false ∧ s.gated f = f s) := by
  cases hf : s.fault <;> cases hb : s.busy <;> simp [State.gated, hf, hb]

theorem State.busy_iff (s : State) : s.busy = true ↔ s.cs.state = .armed ∨ s.cs.state = .transferring := by
  simp [State.busy]

/-- Replacing one pool's held set leaves the others. -/
theorem State.heldIn_setHeld (s : State) (h : Held) (pool pool' : Pool) (l : List Nat) (hh : h = s.held) :
    (s.setHeld (h.set pool l)).heldIn pool' = if pool' = pool then l else s.heldIn pool' := by
  subst hh; cases pool <;> cases pool' <;> rfl

theorem mem_insertIndex (l : List Nat) (i j : Nat) : j ∈ insertIndex l i ↔ j = i ∨ j ∈ l := by
  induction l with
  | nil => simp [insertIndex]
  | cons k l ih =>
    simp only [insertIndex]
    split
    · simp
    · split
      · rename_i h; subst h; simp
      · simp only [List.mem_cons, ih]; tauto

theorem pairwise_insertIndex (l : List Nat) (i : Nat) (h : l.Pairwise (· < ·)) :
    (insertIndex l i).Pairwise (· < ·) := by
  induction l with
  | nil => simp [insertIndex]
  | cons k l ih =>
    simp only [insertIndex]
    split
    · rename_i hlt
      rw [List.pairwise_cons]
      refine ⟨?_, h⟩
      intro x hx
      rcases List.mem_cons.mp hx with rfl | hx
      · exact hlt
      · exact lt_trans hlt ((List.pairwise_cons.mp h).1 x hx)
    · split
      · exact h
      · rw [List.pairwise_cons] at h ⊢
        refine ⟨?_, ih h.2⟩
        intro x hx
        rcases (mem_insertIndex _ _ _).mp hx with rfl | hx
        · omega
        · exact h.1 x hx

/-- A claimed index joins its pool's held set, and no other set changes. -/
theorem State.mem_heldIn_claim (s : State) (pool pool' : Pool) (i j : Nat) :
    j ∈ (s.claim pool i).heldIn pool' ↔ (pool' = pool ∧ j = i) ∨ j ∈ s.heldIn pool' := by
  unfold State.claim
  rw [State.heldIn_setHeld _ _ _ _ _ rfl]
  split
  · rename_i h; subst h; simp [mem_insertIndex]
  · rename_i h; simp [h]

/-- A released index leaves its pool's held set, and no other set changes. -/
theorem State.mem_heldIn_release (s : State) (pool pool' : Pool) (h : Option Nat) (j : Nat) :
    j ∈ (s.release pool h).heldIn pool' ↔ j ∈ s.heldIn pool' ∧ ¬ (pool' = pool ∧ h = some j) := by
  cases h with
  | none => simp [State.release]
  | some i =>
    simp only [State.release]
    rw [State.heldIn_setHeld _ _ _ _ _ rfl]
    split
    · rename_i hp
      subst hp
      simp only [List.mem_filter, bne_iff_ne, ne_eq, true_and, Option.some.injEq]
      exact and_congr_right fun _ => not_congr eq_comm
    · rename_i hp; simp [hp]

theorem State.pairwise_heldIn_claim (s : State) (pool pool' : Pool) (i : Nat)
    (h : ∀ p, (s.heldIn p).Pairwise (· < ·)) : ((s.claim pool i).heldIn pool').Pairwise (· < ·) := by
  unfold State.claim
  rw [State.heldIn_setHeld _ _ _ _ _ rfl]
  split
  · exact pairwise_insertIndex _ _ (h pool)
  · exact h pool'

theorem State.pairwise_heldIn_release (s : State) (pool pool' : Pool) (o : Option Nat)
    (h : ∀ p, (s.heldIn p).Pairwise (· < ·)) : ((s.release pool o).heldIn pool').Pairwise (· < ·) := by
  cases o with
  | none => exact h pool'
  | some i =>
    simp only [State.release]
    rw [State.heldIn_setHeld _ _ _ _ _ rfl]
    split
    · exact (h pool).filter _
    · exact h pool'

/-- `claim(P)` answers a free index of the pool. -/
theorem State.freeIndex_some (s : State) (pool : Pool) (i : Nat) (h : s.freeIndex pool = some i) :
    i < poolSize s.params pool ∧ i ∉ s.heldIn pool ∧ i ∉ extHeld s.params pool := by
  have := List.find?_some h
  simpa [State.isFree, and_assoc] using this

/-- `claim(P)` answers none exactly when every index is held. -/
theorem State.freeIndex_none (s : State) (pool : Pool) :
    s.freeIndex pool = none ↔ ∀ i < poolSize s.params pool, i ∈ s.heldIn pool ∨ i ∈ extHeld s.params pool := by
  simp only [State.freeIndex, List.find?_eq_none, List.mem_range, State.isFree]
  apply forall_congr'
  intro i
  apply imp_congr_right
  intro hi
  by_cases h1 : i ∈ s.heldIn pool <;> simp [hi, h1]

theorem getElem?_setRange {α : Type} (base n : Nat) (x : α) (l : List α) (i k : Nat) :
    (setRange base n x l i)[k]? = l[k]?.map (fun y => if base ≤ i + k ∧ i + k < base + n then x else y) := by
  induction l generalizing i k with
  | nil => simp [setRange]
  | cons y ys ih =>
    cases k with
    | zero => simp [setRange]
    | succ k => simp only [setRange, List.getElem?_cons_succ, ih, Nat.add_assoc, Nat.add_comm 1 k]

/-- The pins base .. base+n-1 take the value given, and every other pin keeps its own. -/
@[simp] theorem getElem_assignPins {α : Type} (m : Vector α 32) (base n : Nat) (x : α) (q : Nat) (hq : q < 32) :
    (assignPins m base n x)[q] = if base ≤ q ∧ q < base + n then x else m[q] := by
  have h := getElem?_setRange base n x m.toList 0 q
  simp only [Nat.zero_add] at h
  have h1 : (assignPins m base n x)[q]? = (setRange base n x m.toList 0)[q]? := by
    simp [assignPins]
  have h2 : m.toList[q]? = some m[q] := by rw [Vector.getElem?_toList, Vector.getElem?_eq_getElem hq]
  rw [h2] at h
  rw [h] at h1
  simpa [hq] using h1

/-- No pin of base .. base+n-1 is claimed. -/
theorem State.anyOwned_eq_false (s : State) (base n : Nat) :
    s.anyOwned base n = false ↔ ∀ q : Fin 32, base ≤ q.val → q.val < base + n → s.pinOwner[q] = .none := by
  simp [State.anyOwned, List.any_eq_false]

@[simp] theorem State.heldIn_of_held_eq (s t : State) (pool : Pool) (h : s.held = t.held) : s.heldIn pool = t.heldIn pool := by
  cases pool <;> simp [State.heldIn, h]

/-- ReleaseSession() gives back the session's channel, lane and program slot, and nothing else. -/
theorem State.mem_heldIn_releaseSession (s : State) (pool : Pool) (j : Nat) :
    j ∈ s.releaseSession.heldIn pool ↔ j ∈ s.heldIn pool ∧ ¬ (pool = .xfer ∧ s.cs.xfer = some j) ∧
      ¬ (pool = .lane ∧ s.cs.lane = some j) ∧ ¬ (pool = .prog ∧ s.cs.prog = some j) := by
  have h : s.releaseSession.heldIn pool =
      (((s.laneOff.release .xfer s.cs.xfer).release .lane s.cs.lane).release .prog s.cs.prog).heldIn pool :=
    State.heldIn_of_held_eq _ _ _ (by simp [State.releaseSession])
  rw [h]
  simp only [State.mem_heldIn_release, State.heldIn_of_held_eq s.laneOff s pool (by simp), and_assoc]

theorem State.pairwise_heldIn_releaseSession (s : State) (pool : Pool) (h : ∀ p, (s.heldIn p).Pairwise (· < ·)) :
    (s.releaseSession.heldIn pool).Pairwise (· < ·) := by
  rw [State.heldIn_of_held_eq s.releaseSession
    (((s.laneOff.release .xfer s.cs.xfer).release .lane s.cs.lane).release .prog s.cs.prog) pool
    (by simp [State.releaseSession])]
  exact State.pairwise_heldIn_release _ _ _ _ fun p => State.pairwise_heldIn_release _ _ _ _ fun p =>
    State.pairwise_heldIn_release _ _ _ _ fun p => by
      rw [State.heldIn_of_held_eq s.laneOff s p (by simp)]; exact h p

/-- A capture-buffer word written is the word read. -/
theorem State.capRead_capWrite_self (s : State) (i : Nat) (w : Word) (hi : i < s.params.capbufWords) :
    (s.capWrite i w).capRead i = w := by
  simp [State.capRead, State.capWrite, hi, Mem.word_setWord]

/-- Writing capture-buffer word `i` leaves every other capture-buffer word. -/
theorem State.capRead_capWrite_of_ne (s : State) (i j : Nat) (w : Word) (h : j ≠ i) :
    (s.capWrite i w).capRead j = s.capRead j := by
  unfold State.capWrite
  split
  · exact Mem.word_setWord_of_apart _ _ _ _ (by simp only [capOffset]; omega)
  · rfl

/-- Writing the capture buffer leaves the plane buffer. -/
theorem State.planeRead_capWrite (s : State) (i j : Nat) (w : Word) (hn : s.params.capbufWords ≤ 1024) :
    (s.capWrite i w).planeRead j = s.planeRead j := by
  unfold State.capWrite
  split
  · exact Mem.word_setWord_of_apart _ _ _ _ (by simp only [capOffset, planeOffset]; omega)
  · rfl

/-- Writing the plane buffer leaves the capture buffer. -/
theorem State.capRead_planeWrite (s : State) (i j : Nat) (w : Word) (hj : j < 1024) :
    (s.planeWrite i w).capRead j = s.capRead j := by
  unfold State.planeWrite
  split
  · exact Mem.word_setWord_of_apart _ _ _ _ (by simp only [capOffset, planeOffset]; omega)
  · rfl

theorem State.capRead_planeFill (s : State) (ws : Nat → Word) (N j : Nat) (hj : j < 1024) :
    (s.planeFill ws N).capRead j = s.capRead j := by
  induction N with
  | zero => rfl
  | succ N ih => rw [State.planeFill, State.capRead_planeWrite _ _ _ _ hj, ih]

/-- Filling the plane buffer writes its first `N` words and no other. -/
theorem State.planeRead_planeFill (s : State) (ws : Nat → Word) (N j : Nat) (hN : N ≤ s.params.capbufWords) :
    (s.planeFill ws N).planeRead j = if j < N then ws j else s.planeRead j := by
  induction N with
  | zero => simp [State.planeFill]
  | succ N ih =>
    have ih := ih (by omega)
    have hlt : N < (s.planeFill ws N).params.capbufWords := by rw [State.planeFill_params]; omega
    simp only [State.planeFill, State.planeRead, State.planeWrite, hlt, if_true, State.setMem_mem] at ih ⊢
    by_cases hj : j = N
    · subst hj; simp [Mem.word_setWord]
    · rw [Mem.word_setWord_of_apart _ _ _ _ (by simp only [planeOffset]; omega), ih]
      by_cases h1 : j < N
      · simp [h1, show j < N + 1 by omega]
      · simp [h1, show ¬ j < N + 1 by omega]

/-- Every buffer operation keeps the memory canonical. -/
theorem State.wf_capWrite (s : State) (i : Nat) (w : Word) (h : Mem.wf s.params.capbufWords s.mem = true) :
    Mem.wf s.params.capbufWords (s.capWrite i w).mem = true := by
  unfold State.capWrite
  split
  · rename_i hi; exact Mem.wf_setWord _ _ _ _ h (fun j hj => isBufferOffset_cap _ _ _ hi hj)
  · exact h

theorem State.wf_planeWrite (s : State) (i : Nat) (w : Word) (h : Mem.wf s.params.capbufWords s.mem = true) :
    Mem.wf s.params.capbufWords (s.planeWrite i w).mem = true := by
  unfold State.planeWrite
  split
  · rename_i hi; exact Mem.wf_setWord _ _ _ _ h (fun j hj => isBufferOffset_plane _ _ _ hi hj)
  · exact h

theorem State.wf_planeFill (s : State) (ws : Nat → Word) (N : Nat) (h : Mem.wf s.params.capbufWords s.mem = true) :
    Mem.wf s.params.capbufWords (s.planeFill ws N).mem = true := by
  induction N with
  | zero => exact h
  | succ N ih =>
    have := State.wf_planeWrite (s.planeFill ws N) N (ws N) (by simpa using ih)
    simpa [State.planeFill] using this

/-- The memory of the reset state is canonical. -/
theorem State.reset_mem_wf : Mem.wf State.reset.params.capbufWords State.reset.mem = true := Mem.wf_ofDraws _ _

end Sys2Proof.Machine
end

