-- ==== Sys2Proof/Laws/PerInstr.lean ====
section
/-! SUPPORT. The statements made of every instruction, one lemma a constructor: the word of a well-formed instruction
carries the fixed bits of its row of spec/opcode_table.json, whatever its operands. -/

namespace Sys2Proof.Laws.FixedBits

/-- A row's mask and match over the word of an instruction. -/
def carries (mask pattern : Nat) : InstrWord → Bool
  | .command w => w &&& BitVec.ofNat 32 mask == BitVec.ofNat 32 pattern
  | .lane w => w &&& BitVec.ofNat 16 mask == BitVec.ofNat 16 pattern

/-- The mask and the match of the instruction's row in spec/opcode_table.json. -/
def row : Instr → Nat × Nat
  | .calcDiv _ => (0xFFFFFFFE, 0x01000000)
  | .cfgCapture _ _ => (0xFFFFF800, 0x02000000)
  | .runCapture _ _ => (0xFFFFFFC0, 0x03000000)
  | .releaseCapture => (0xFFFFFFFF, 0x04000000)
  | .reconstruct _ => (0xFFFFF81F, 0x05000000)
  | .initDecoder _ => (0xFFFFFFE0, 0x06000000)
  | .deinitDecoder => (0xFFFFFFFF, 0x07000000)
  | .pollFrame => (0xFFFFFFFF, 0x08000000)
  | .decode => (0xFFFFFFFF, 0x09000000)
  | .setNotify _ => (0xFFFFFFFE, 0x0A000000)
  | .popReport => (0xFFFFFFFF, 0x0B000000)
  | .waitGpio _ _ => (0xFF60, 0x2000)
  | .inPins _ => (0xFFE0, 0x4000)

/-- The word of a well-formed instruction carries its row's fixed bits (30_encoding R102, R108). -/
def Statement (i : Instr) : Prop := i.wellFormed = true → carries (row i).1 (row i).2 (encode i) = true

theorem calcDiv (us : Bool) : Statement (.calcDiv us) := by cases us <;> exact fun _ => by decide

theorem cfgCapture (base count : Nat) : Statement (.cfgCapture base count) := by
  intro h
  simp only [Instr.wellFormed, Bool.and_eq_true, decide_eq_true_eq] at h
  have key : ∀ b : Fin 32, ∀ c : Fin 64, carries 0xFFFFF800 0x02000000 (encode (.cfgCapture b c)) := by decide +kernel
  exact key ⟨base, h.1⟩ ⟨count, h.2⟩

theorem runCapture (pin : Nat) (pol : Bool) : Statement (.runCapture pin pol) := by
  intro h
  simp only [Instr.wellFormed, decide_eq_true_eq] at h
  have key : ∀ p : Fin 32, ∀ b : Bool, carries 0xFFFFFFC0 0x03000000 (encode (.runCapture p b)) := by decide +kernel
  exact key ⟨pin, h⟩ pol

theorem releaseCapture : Statement .releaseCapture := fun _ => by decide

theorem reconstruct (count : Nat) : Statement (.reconstruct count) := by
  intro h
  simp only [Instr.wellFormed, decide_eq_true_eq] at h
  have key : ∀ c : Fin 64, carries 0xFFFFF81F 0x05000000 (encode (.reconstruct c)) := by decide +kernel
  exact key ⟨count, h⟩

theorem initDecoder (pin : Nat) : Statement (.initDecoder pin) := by
  intro h
  simp only [Instr.wellFormed, decide_eq_true_eq] at h
  have key : ∀ p : Fin 32, carries 0xFFFFFFE0 0x06000000 (encode (.initDecoder p)) := by decide +kernel
  exact key ⟨pin, h⟩

theorem deinitDecoder : Statement .deinitDecoder := fun _ => by decide

theorem pollFrame : Statement .pollFrame := fun _ => by decide

theorem decode : Statement .decode := fun _ => by decide

theorem setNotify (en : Bool) : Statement (.setNotify en) := by cases en <;> exact fun _ => by decide

theorem popReport : Statement .popReport := fun _ => by decide

theorem waitGpio (pol : Bool) (gpio : Nat) : Statement (.waitGpio pol gpio) := by
  intro h
  simp only [Instr.wellFormed, decide_eq_true_eq] at h
  have key : ∀ b : Bool, ∀ g : Fin 32, carries 0xFF60 0x2000 (encode (.waitGpio b g)) := by decide +kernel
  exact key pol ⟨gpio, h⟩

theorem inPins (bitCount : Nat) : Statement (.inPins bitCount) := by
  intro h
  simp only [Instr.wellFormed, decide_eq_true_eq] at h
  have key : ∀ k : Fin 32, carries 0xFFE0 0x4000 (encode (.inPins k)) := by decide +kernel
  exact key ⟨bitCount, h⟩

end Sys2Proof.Laws.FixedBits
end

