-- ==== Sys2Proof/Laws/Step.lean ====
section
/-! SUPPORT. What a step can do, said once: the shapes of an instruction's outcome, of a host access, of each agent's step,
and of the choice of the next event. -/

namespace Sys2Proof.Machine

/-- Two states agree on what no instruction writes: the parameters, ARG0 and the model's own fields. -/
structure State.SameOutside (s t : State) : Prop where
  params : t.params = s.params
  arg0 : t.arg0 = s.arg0
  pins : t.pins = s.pins
  readData : t.readData = s.readData
  sched : t.sched = s.sched
  drawIx : t.drawIx = s.drawIx

theorem State.SameOutside.refl (s : State) : s.SameOutside s := ⟨rfl, rfl, rfl, rfl, rfl, rfl⟩

theorem State.sameOutside_raise (s : State) (k : FaultKind) : s.SameOutside (s.raise k) := by
  constructor <;> simp

theorem State.sameOutside_gated (s : State) (f : State → State) (h : s.SameOutside (f s)) : s.SameOutside (s.gated f) := by
  rcases s.gated_cases f with ⟨-, e⟩ | ⟨-, -, e⟩ | ⟨-, -, e⟩ <;> rw [e]
  · exact .refl s
  · exact s.sameOutside_raise _
  · exact h

/-- Every instruction answers a next state, and none writes the parameters, ARG0 or the model's own fields. -/
theorem exec_sameOutside (i : Instr) (s : State) : ∃ t, exec i s = .next t ∧ s.SameOutside t := by
  cases i <;> refine ⟨_, rfl, ?_⟩
  case waitGpio => split <;> constructor <;> simp
  case inPins =>
    split
    · unfold State.shiftIn; dsimp only; split <;> constructor <;> simp
    · exact .refl s
  all_goals apply State.sameOutside_gated
  case calcDiv => constructor <;> simp
  case cfgCapture =>
    repeat' split
    all_goals constructor <;> simp [State.configureCapture]
  case runCapture =>
    dsimp only
    repeat' split
    all_goals constructor <;> simp [State.startCapture]
  case releaseCapture => split <;> constructor <;> simp
  case reconstruct =>
    dsimp only
    repeat' split
    all_goals constructor <;> simp
  case initDecoder =>
    repeat' split
    all_goals constructor <;> simp [State.startDecoder]
  case deinitDecoder =>
    repeat' split
    all_goals constructor <;> simp [State.stopDecoder]
  case pollFrame =>
    repeat' split
    all_goals constructor <;> simp
  case decode => constructor <;> simp
  case setNotify =>
    repeat' split
    all_goals constructor <;> simp
  case popReport => split <;> constructor <;> simp

/-- While a fault is set no instruction does anything. -/
theorem exec_of_fault (i : Instr) (s : State) (h : s.fault = true) : exec i s = .next s := by
  cases i <;> simp [exec, execCalcDiv, execCfgCapture, execRunCapture, execReleaseCapture, execReconstruct,
    execInitDecoder, execDeinitDecoder, execPollFrame, execDecode, execSetNotify, execPopReport, execWaitGpio, execInPins,
    State.gated_of_fault, h]

/-- The state the next event's agent steps from differs in the schedule alone. -/
theorem State.takeEvent_snd (s : State) :
    s.takeEvent.2 = { s with sched := s.takeEvent.2.sched, drawIx := s.takeEvent.2.drawIx } := by
  unfold State.takeEvent; split <;> rfl

/-- A host read changes the returned word, and at most raises a fault. -/
theorem State.hostRead_cases (s : State) (a : Access) :
    (∃ w, s.hostRead a = s.setReadData w) ∨ ∃ k, s.hostRead a = (s.raise k).setReadData 0 := by
  unfold State.hostRead
  split
  · exact .inr ⟨_, rfl⟩
  · exact .inl ⟨_, rfl⟩
  · split
    · exact .inr ⟨_, rfl⟩
    · exact .inl ⟨_, rfl⟩
  · exact .inl ⟨_, rfl⟩

/-- No register stands past the last one (10_state R22). -/
theorem registerAt_eq_none {off : Nat} (h : 0x030 ≤ off) : registerAt off = none := by
  unfold registerAt
  split <;> first | rfl | (exfalso; revert h; decide)

/-- The accesses that reach no location: another width, misaligned, or unmapped (20_memory R72, R73). -/
theorem Access.location_eq_none (p : Params) (a : Access)
    (h : a.size ≠ 4 ∨ a.offset.toNat % 4 ≠ 0 ∨ (0x030 ≤ a.offset.toNat ∧ a.offset.toNat < 0x1000) ∨
      (0x1000 ≤ a.offset.toNat ∧ a.offset.toNat < 0x2000 ∧ p.capbufWords ≤ (a.offset.toNat - 0x1000) / 4) ∨
      (0x2000 ≤ a.offset.toNat ∧ a.offset.toNat < 0x3000 ∧ p.capbufWords ≤ (a.offset.toNat - 0x2000) / 4) ∨
      0x3000 ≤ a.offset.toNat) :
    a.location p = none := by
  unfold Access.location
  generalize a.offset.toNat = off at h ⊢
  split
  · rename_i hc
    simp only [Bool.and_eq_true, decide_eq_true_eq] at hc
    unfold locationAt
    split_ifs with h1 h2 h3 h4 h5
    · rw [registerAt_eq_none (by omega)]; rfl
    all_goals first | rfl | omega
  · rfl

/-- The location of a write to CMD. -/
theorem Access.location_cmd (p : Params) (a : Access) (h : a.location p = some (.register .cmd)) :
    a.size = 4 ∧ a.offset = 0 := by
  unfold Access.location at h
  split at h
  · rename_i hc
    refine ⟨by simp at hc; exact hc.1, ?_⟩
    unfold locationAt at h
    split at h
    · unfold registerAt at h
      split at h <;> simp at h
      rename_i e
      exact BitVec.eq_of_toNat_eq (by simpa using e)
    · repeat' split at h
      all_goals simp at h
  · simp at h

/-- Everything a write to CMD can do: nothing while faulted, a refusal without a clock, a fault, or a command. -/
theorem State.issueCommand_cases (s : State) (w : Word) :
    (s.fault = true ∧ s.issueCommand w = .next s) ∨
    (s.fault = false ∧ s.params.baseClockHz = 0 ∧ s.issueCommand w = .refused .clockNotFixed) ∨
    (s.fault = false ∧ ∃ k, s.issueCommand w = .next (s.raise k)) ∨
    (s.fault = false ∧ ∃ i, decodeCommand w = .ok i ∧ s.issueCommand w = exec i s) := by
  unfold State.issueCommand
  split
  · rename_i h; exact .inl ⟨h, rfl⟩
  · rename_i h
    have h : s.fault = false := by simpa using h
    split
    · rename_i h0; exact .inr (.inl ⟨h, h0, rfl⟩)
    · split
      · rcases s.gated_cases (fun s => s.raise .illegalCommand) with ⟨hf, -⟩ | ⟨-, -, e⟩ | ⟨-, -, e⟩
        · rw [h] at hf; cases hf
        · exact .inr (.inr (.inl ⟨h, _, by rw [e]⟩))
        · exact .inr (.inr (.inl ⟨h, _, by rw [e]⟩))
      · rename_i i hd; exact .inr (.inr (.inr ⟨h, i, hd, rfl⟩))

/-- Everything a host write can do: nothing while faulted, a fault, the command of CMD, a store to ARG0, a store to a
capture word. -/
theorem State.hostWrite_cases (s : State) (a : Access) :
    (s.fault = true ∧ s.hostWrite a = .next s) ∨
    (s.fault = false ∧ ∃ k, s.hostWrite a = .next (s.raise k)) ∨
    (s.fault = false ∧ a.location s.params = some (.register .cmd) ∧ s.hostWrite a = s.issueCommand a.data) ∨
    (s.fault = false ∧ a.location s.params = some (.register .arg0) ∧ s.hostWrite a = .next (s.setArg0 a.data)) ∨
    (s.fault = false ∧ s.busy = false ∧ ∃ i, a.location s.params = some (.capbuf i) ∧
      s.hostWrite a = .next ((s.capWrite i a.data).setBuf { s.buf with valid := false })) := by
  unfold State.hostWrite
  split
  · rename_i h; exact .inl ⟨h, rfl⟩
  · rename_i h
    have h : s.fault = false := by simpa using h
    split
    · exact .inr (.inl ⟨h, _, rfl⟩)
    · rename_i e; exact .inr (.inr (.inl ⟨h, e, rfl⟩))
    · rename_i e; exact .inr (.inr (.inr (.inl ⟨h, e, rfl⟩)))
    · exact .inr (.inl ⟨h, _, rfl⟩)
    · rename_i i e
      split
      · exact .inr (.inl ⟨h, _, rfl⟩)
      · rename_i hb; exact .inr (.inr (.inr (.inr ⟨h, by simpa using hb, i, e, rfl⟩)))
    · exact .inr (.inl ⟨h, _, rfl⟩)

/-- Everything a step of the capture lane can do: bring the pin levels, see the trigger, or shift in a sample. -/
theorem State.laneStep_cases (s : State) (levels : Word) :
    s.laneStep levels = .next (s.setPins levels) ∨
    (s.fault = false ∧ s.lc.phase = .wait ∧ levels.getLsbD s.cs.trigPin.toNat = s.cs.trigPol ∧
      s.laneStep levels = .next (((s.setPins levels).setLc { s.lc with phase := .run }).setCs { s.cs with trigSeen := true })) ∨
    (s.fault = false ∧ s.lc.phase = .run ∧ ∃ n, n = sampleWidth (s.cs.pinCount.toNat % 32) ∧
      s.laneStep levels = .next ((s.setPins levels).shiftIn n (sampleOf levels s.cs.pinBase.toNat n))) := by
  unfold State.laneStep State.laneInstr
  simp only [State.setPins_lc, State.setPins_cs]
  cases hp : s.lc.phase with
  | off => exact .inl rfl
  | wait =>
    simp only [exec, execWaitGpio]
    split
    · rename_i hc
      simp only [State.setPins_fault, State.setPins_lc, hp, Bool.and_eq_true, beq_iff_eq, State.pinLevel] at hc
      exact .inr (.inl ⟨by simpa using hc.1.1, trivial, hc.2, by simp only [State.setPins_lc, State.setPins_cs]⟩)
    · exact .inl rfl
  | run =>
    simp only [exec, execInPins]
    split
    · rename_i hc
      simp only [State.setPins_fault, Bool.and_eq_true] at hc
      exact .inr (.inr ⟨by simpa using hc.1.1, trivial, _, rfl, rfl⟩)
    · exact .inl rfl

/-- Everything a step of the bulk mover can do. -/
theorem State.xferStep_cases (s : State) :
    s.xferStep = s ∨
    (s.fault = false ∧ s.cs.state = .transferring ∧ s.cs.idx < s.cs.cap ∧ ∃ w rest, s.lc.rxc = w :: rest ∧
      let m := ((s.setLc { s.lc with rxc := rest }).capWrite s.cs.idx w).setCs { s.cs with idx := s.cs.idx + 1 }
      (s.cs.idx + 1 ≠ s.cs.cap ∧ s.xferStep = m) ∨ (s.cs.idx + 1 = s.cs.cap ∧ s.xferStep = m.complete)) := by
  unfold State.xferStep
  split
  · exact .inl rfl
  · rename_i hc
    simp only [Bool.or_eq_true, bne_iff_ne, ne_eq, decide_eq_true_eq, not_or, not_not, Bool.not_eq_true, not_le] at hc
    split
    · exact .inl rfl
    · rename_i w rest hr
      refine .inr ⟨hc.1.1, hc.1.2, hc.2, w, rest, hr, ?_⟩
      simp only [State.capWrite_cs, State.setLc_cs, State.setCs_cs]
      split
      · rename_i e; exact .inr ⟨e, rfl⟩
      · rename_i e; exact .inl ⟨e, rfl⟩

/-- Everything a HANDLE step can do: nothing, clear pending, or take one frame into a report or an overflow. -/
theorem State.handleStep_cases (s : State) :
    s.handleStep = s ∨
    (s.fault = false ∧ s.nt.en = true ∧ s.nt.pending = true ∧
      ((s.dec.rxd = [] ∧ s.handleStep = s.setNt { s.nt with pending := false }) ∨
       ∃ r rest, s.dec.rxd = r :: rest ∧
        ((s.nt.rpt.length < s.params.reportDepth ∧
          s.handleStep = (s.setDec { s.dec with rxd := rest }).setNt { s.nt with
            pending := false
            rpt := s.nt.rpt ++ [{ raw := r, code := (decodeFrame s.params r).1, fields := (decodeFrame s.params r).2 }] }) ∨
         (s.params.reportDepth ≤ s.nt.rpt.length ∧
          s.handleStep = (s.setDec { s.dec with rxd := rest }).setNt { s.nt with pending := false, ovf := true })))) := by
  unfold State.handleStep
  split
  · rename_i hc
    simp only [Bool.and_eq_true, Bool.not_eq_true'] at hc
    refine .inr ⟨hc.1.1, hc.1.2, hc.2, ?_⟩
    simp only [State.setNt_dec]
    split
    · rename_i e; exact .inl ⟨e, rfl⟩
    · rename_i r rest e
      refine .inr ⟨r, rest, e, ?_⟩
      by_cases hl : s.nt.rpt.length < s.params.reportDepth
      · exact .inl ⟨hl, if_pos hl⟩
      · exact .inr ⟨by omega, if_neg hl⟩
  · exact .inl rfl

end Sys2Proof.Machine
end

