-- ==== Sys2Proof/Tests/Slice0.lean ====
section
/-! SUPPORT. Tests: what WellFormed refuses, words written out from the encodings, vectors of spec/95_test_vectors.md, the
host's fixed names, and for every obligation with hypotheses a state that meets them (`witness_<Obligation>`). -/

namespace Sys2Proof.Tests

open Sys2Proof Sys2Proof.Machine

/-! ## What an ill-formed operand is (30_encoding R109) -/

theorem test_illFormed_cfgCapture_base : (Instr.cfgCapture 32 4).wellFormed = false := by decide
theorem test_illFormed_cfgCapture_count : (Instr.cfgCapture 0 64).wellFormed = false := by decide
theorem test_illFormed_runCapture : (Instr.runCapture 32 true).wellFormed = false := by decide
theorem test_illFormed_reconstruct : (Instr.reconstruct 64).wellFormed = false := by decide
theorem test_illFormed_initDecoder : (Instr.initDecoder 32).wellFormed = false := by decide
theorem test_illFormed_waitGpio : (Instr.waitGpio true 32).wellFormed = false := by decide
theorem test_illFormed_inPins : (Instr.inPins 32).wellFormed = false := by decide

/-! ## Words written out bit by bit (30_encoding R101, R102, R108) -/

theorem test_word_calcDiv : decodeCommand 0b00000001_00000000_00000000_00000001 = .ok (.calcDiv true) := by decide
theorem test_word_cfgCapture :
    decodeCommand 0b00000010_00000000_00000000_10011100 = .ok (.cfgCapture 0b11100 0b000100) := by decide
theorem test_word_cfgCapture_top :
    decodeCommand 0b00000010_00000000_00000111_11111111 = .ok (.cfgCapture 31 63) := by decide
theorem test_word_runCapture :
    decodeCommand 0b00000011_00000000_00000000_00100101 = .ok (.runCapture 0b00101 true) := by decide
theorem test_word_runCapture_low :
    decodeCommand 0b00000011_00000000_00000000_00011111 = .ok (.runCapture 31 false) := by decide
theorem test_word_releaseCapture : decodeCommand 0b00000100_00000000_00000000_00000000 = .ok .releaseCapture := by decide
theorem test_word_reconstruct :
    decodeCommand 0b00000101_00000000_00000100_00000000 = .ok (.reconstruct 0b100000) := by decide
theorem test_word_initDecoder :
    decodeCommand 0b00000110_00000000_00000000_00001010 = .ok (.initDecoder 0b01010) := by decide
theorem test_word_deinitDecoder : decodeCommand 0b00000111_00000000_00000000_00000000 = .ok .deinitDecoder := by decide
theorem test_word_pollFrame : decodeCommand 0b00001000_00000000_00000000_00000000 = .ok .pollFrame := by decide
theorem test_word_decode : decodeCommand 0b00001001_00000000_00000000_00000000 = .ok .decode := by decide
theorem test_word_setNotify : decodeCommand 0b00001010_00000000_00000000_00000001 = .ok (.setNotify true) := by decide
theorem test_word_popReport : decodeCommand 0b00001011_00000000_00000000_00000000 = .ok .popReport := by decide
theorem test_word_waitGpio : decodeLane 0b001_00000_1_00_00101 = .ok (.waitGpio true 0b00101) := by decide
theorem test_word_inPins : decodeLane 0b010_00000_000_00100 = .ok (.inPins 0b00100) := by decide

/-- 95_test_vectors L2.1: reserved opcodes and reserved bits. -/
theorem test_word_reserved :
    [0x00000000, 0x0C000000, 0xFF000000].map decodeCommand = List.replicate 3 (.error .reservedOpcode) ∧
    [0x01000002, 0x05000081, 0x03000040, 0x0A000002, 0x02000800, 0x06000020, 0x04000001].map decodeCommand =
      List.replicate 7 (.error .reservedBits) := by decide

/-- 30_encoding R108: the delay bits [12:8] and the source bits [6:5] of WAIT_GPIO, and the source bits of IN_PINS. -/
theorem test_lane_reserved :
    [0x2105, 0x2025, 0x4020, 0x0000].map decodeLane = List.replicate 4 (.error .notLaneWord) := by decide

/-- 30_encoding R109: the expansion of `CFG_CAPTURE 28, 4, 0x42FA0000`, and an operand that does not fit. -/
theorem test_assemble :
    assemble (.cfgCapture 28 4) 0x42FA0000 = some [wr .arg0 0x42FA0000, wr .cmd 0x0200009C] ∧
    assemble .popReport 0 = some [wr .cmd 0x0B000000] ∧ assemble (.cfgCapture 32 4) 0 = none := by decide

/-! ## The fixed names of the host -/

theorem test_tableWord_command : decodeTableWord 32 0x0200009C = some (.cfgCapture 28 4) := by decide
theorem test_tableWord_lane : decodeTableWord 16 0x2085 = some (.waitGpio true 5) := by decide

theorem test_fetch_command :
    step (State.reset.withFetchWord 32 0x02000080) = exec (.cfgCapture 0 4) State.reset := rfl
theorem test_fetch_lane : ∃ s, step (State.reset.withFetchWord 16 0x4004) = exec (.inPins 4) s := ⟨_, rfl⟩

/-! ## The states of the vectors: the common premises of spec/95_test_vectors.md -/

/-- The parameters of the vectors. -/
def vp : Params where
  blockBase := 0x50200000
  baseClockHz := 125000000
  nPins := 32
  nLanes := 4
  nProgSlots := 4
  nXfer := 2
  nIrq := 1
  extHeldLane := []
  extHeldProg := []
  extHeldXfer := []
  extHeldIrq := []
  capbufWords := 512
  rxcDepth := 4
  rxdDepth := 4
  reportDepth := 4
  divMax := 0x47800000
  repeatFn := []
  decPull := .none

/-- CLEAN_ENTRY with empty draws and a value in ARG0. -/
def clean (arg : Word) : State := { State.cleanEntry vp [] with arg0 := arg }

/-- A configured session of base 0 and n pins, with lane 0 and program slot 0. -/
def session (arg : Word) (n : BitVec 6) : State :=
  { clean arg with
    cs := { (clean 0).cs with state := .configuring, pinCount := n, div := 0x42FA0000, lane := some 0, prog := some 0 }
    held := { lane := [0], prog := [0], xfer := [], irq := [] }
    pinOwner := assignPins (clean 0).pinOwner 0 n.toNat .capture }

/-- A capture in flight, of `cap` words at n pins with trigger pin 5 high, `idx` words moved, and the lane as given. -/
def capturing (n : BitVec 6) (cap idx : Nat) (lc : CaptureLane) : State :=
  { session 0 n with
    cs := { (session 0 n).cs with
      state := .transferring, xfer := some 0, cap := cap, idx := idx, trigPin := 5, trigPol := true }
    held := { lane := [0], prog := [0], xfer := [0], irq := [] }
    lc := lc }

def waiting : CaptureLane := { phase := .wait, isr := 0, cnt := 0, rxc := [] }
def running (rxc : List Word) : CaptureLane := { phase := .run, isr := 0, cnt := 0, rxc := rxc }

/-- A decoder session on pin 10 with the frames given, and notification as given. -/
def decoding (rxd : List Word) (nt : Notification) : State :=
  { clean 0 with
    dec := { active := true, pin := 10, lane := some 0, prog := some 0, rxd := rxd }
    held := { lane := [0], prog := [0], xfer := [], irq := nt.line.toList }
    pinOwner := assignPins (clean 0).pinOwner 10 1 .decoder
    nt := nt }

def notifyOff (rpt : List Report) : Notification := { en := false, line := none, pending := false, rpt := rpt, ovf := false }
def notifyOn (pending : Bool) (rpt : List Report) : Notification :=
  { en := true, line := some 0, pending := pending, rpt := rpt, ovf := false }

def aReport : Report := { raw := 0xF708FB04, code := .ok, fields := 0x01000804 }
def badReport : Report := { raw := 0x12345678, code := .malformed, fields := 0 }

/-- A state that is faulted. -/
def faulted (s : State) : State := s.raise .busError

/-- A field of the next state. -/
def after {α : Type} (o : Host.Outcome State Fault Refusal) (f : State → α) : Option α :=
  match o with
  | .next s => some (f s)
  | _ => none

def results (s : State) : Word × Word × Word := (s.result, s.data0, s.data1)

/-! ## Vectors: one step each -/

/-- L1.1, L2.3: period 0 in microseconds is clamped; 4294967295 ns rounds. -/
theorem test_calcDiv_clamped : after (exec (.calcDiv true) (clean 0)) results = some (0x110, 0x42FA0000, 0) := by
  decide
theorem test_calcDiv_rounded :
    after (exec (.calcDiv false) (clean 4294967295)) results = some (0x100, 0x4E000000, 0) := by decide

/-- L2.5: accepted at DIV_MAX on the top pins; rejected just above DIV_MAX. -/
theorem test_cfgCapture_accepted :
    after (exec (.cfgCapture 28 4) (clean 0x47800000)) (fun s => (s.result, s.status, s.csCfg)) =
      some (0x200, 0x00000002, 0x0000009C) := by decide
theorem test_cfgCapture_rejected :
    after (exec (.cfgCapture 0 4) (clean 0x47800080)) (fun s => (s.result, s.status)) = some (0x202, 0) := by
  decide

/-- L2.5: RUN_CAPTURE of 2 words, and of one word more than the buffer. -/
theorem test_runCapture_accepted :
    after (exec (.runCapture 5 true) (session 2 4)) (fun s => (s.result, s.csCfg, s.csProgress)) =
      some (0x300, 0x00012880, 0x00020000) := by decide
theorem test_runCapture_tooLong :
    after (exec (.runCapture 5 true) (session 513 4)) (fun s => (s.result, s.cs.state)) =
      some (0x302, .configuring) := by decide

/-- R155: released, with every pin unowned; without a session NO_SESSION, STATUS = 0x00002800 (L2.1). -/
theorem test_releaseCapture :
    after (exec .releaseCapture (session 0 4)) (fun s => (s.result, s.cs.state, s.held.lane, s.anyOwned 0 32)) =
      some (0x400, .idle, [], false) := by decide
theorem test_releaseCapture_noSession :
    after (exec .releaseCapture (clean 0)) State.status = some 0x00002800 := by decide

/-- L2.4: two words at 4 pins, and three words at 32 pins. -/
theorem test_reconstruct_4 :
    after (exec (.reconstruct 4) (((clean 2).capWrite 0 0x87654321).capWrite 1 0x0F0F0F0F))
      (fun s => (s.planeRead 0, s.planeRead 1, s.planeInfo)) = some (0x55665555, 0x55805578, 0x00040002) := by
  decide +kernel
theorem test_reconstruct_32 :
    after (exec (.reconstruct 32) ((((clean 3).capWrite 0 1).capWrite 1 2).capWrite 2 3))
      (fun s => (s.planeRead 0, s.planeRead 1, s.planeRead 2)) = some (0x00000035, 0, 0) := by decide +kernel

/-- R211: the decoder session on pin 10; an owned pin is RESOURCE_EXHAUSTED. -/
theorem test_initDecoder :
    after (exec (.initDecoder 10) (clean 0)) (fun s => (s.result, s.decCfg, s.pinOwner[10], s.pad[10])) =
      some (0x600, 10, .decoder, .decoderInput) := by decide
theorem test_initDecoder_owned : after (exec (.initDecoder 3) (session 0 4)) results = some (0x601, 0, 0) := by
  decide

/-- R212: released; with notification enabled NOTIFY_STILL_ENABLED. -/
theorem test_deinitDecoder :
    after (exec .deinitDecoder (decoding [1] (notifyOff []))) (fun s => (s.result, s.dec.rxd, s.held.lane)) =
      some (0x700, [], []) := by decide
theorem test_deinitDecoder_enabled :
    after (exec .deinitDecoder (decoding [1] (notifyOn false []))) (fun s => (s.faultCode, s.dec.rxd)) =
      some (5, [1]) := by decide

/-- R217: the example, and without a decoder NO_DECODER, STATUS = 0x00003800 (L2.1). -/
theorem test_pollFrame :
    after (exec .pollFrame (decoding [0xBA45FF00] (notifyOff []))) (fun s => (results s, s.dec.rxd)) =
      some ((0x820, 0xBA45FF00, 0), []) := by decide
theorem test_pollFrame_noDecoder : after (exec .pollFrame (clean 0)) State.status = some 0x00003800 := by decide

/-- L1.5, L1.6: a valid frame and a malformed one. -/
theorem test_decode_valid : after (exec .decode (clean 0xBA45FF00)) results = some (0x900, 0xBA45FF00, 0x01004500) := by
  decide
theorem test_decode_malformed : after (exec .decode (clean 0xBA45FF01)) results = some (0x903, 0xBA45FF01, 0) := by
  decide

/-- R241, R242: ON claims the one line, and a second ON is DOUBLE_ENABLE. -/
theorem test_setNotify_on :
    after (exec (.setNotify true) (decoding [] (notifyOff []))) (fun s => (s.result, s.nt.line, s.held.irq)) =
      some (0xA00, some 0, [0]) := by decide
theorem test_setNotify_double :
    after (exec (.setNotify true) (decoding [] (notifyOn false []))) State.faultCode = some 4 := by decide

/-- R245: the example, and a malformed report. -/
theorem test_popReport :
    after (exec .popReport (decoding [] (notifyOff [aReport]))) results = some (0xB20, 0xF708FB04, 0x01000804) := by
  decide
theorem test_popReport_malformed :
    after (exec .popReport (decoding [] (notifyOff [badReport]))) results = some (0xB23, 0x12345678, 0) := by
  decide

/-- R160: the wait passes at the level and not below it. -/
theorem test_waitGpio :
    after (exec (.waitGpio true 5) ((capturing 4 2 0 waiting).setPins 0x20)) (fun s => (s.lc.phase, s.cs.trigSeen)) =
      some (.run, true) := by decide
theorem test_waitGpio_blocked :
    after (exec (.waitGpio true 5) ((capturing 4 2 0 waiting).setPins 0xDF)) (fun s => s.lc.phase) = some .wait := by
  decide

/-- R161: a sample enters at the high end; at 32 pins one sample is a word. -/
theorem test_inPins :
    after (exec (.inPins 4) ((capturing 4 2 0 (running [])).setPins 0xABC)) (fun s => (s.lc.isr, s.lc.cnt)) =
      some (0xC0000000, 4) := by decide
theorem test_inPins_32 :
    after (exec (.inPins 0) ((capturing 32 2 0 (running [])).setPins 0x12345678)) (fun s => s.lc.rxc) =
      some [0x12345678] := by decide

/-- R170, R171: the move that completes a capture. -/
theorem test_xfer_completes :
    after (runEvent .xfer (capturing 4 2 1 (running [7, 8]))) (fun s => (results s, s.capRead 1, s.bufInfo)) =
      some ((0x300, 2, 0), 7, 0x00040002) := by decide

/-- R244: a full report queue drops the report and sets RPT_OVF. -/
theorem test_handle_overflow :
    after (runEvent .handle (decoding [1, 2] (notifyOn true (List.replicate 4 aReport))))
      (fun s => (s.nt.ovf, s.nt.rpt.length, s.dec.rxd)) = some (true, 4, [2]) := by decide

/-- L2.2: an 8-bit read, a misaligned read, a write to STATUS, and a CAPBUF word past the end are BUS_ERROR. -/
theorem test_busErrors :
    [{ kind := .read, offset := 0x008, size := 1, data := 0 }, { kind := .read, offset := 0x00A, size := 4, data := 0 },
      wr .status 0, wrCapbuf 512 0].map (fun a => after (runEvent (.host a) (clean 0)) (fun s => (s.faultCode, s.readData)))
      = List.replicate 4 (some (8, 0)) := by decide

/-- L2.2: WR CAPBUF[3], 0xDEADBEEF, then the word is there; while BUSY it is BUSY_VIOLATION. -/
theorem test_capbuf_write :
    after (runEvent (.host (wrCapbuf 3 0xDEADBEEF)) (clean 0)) (fun s => (s.capRead 3, s.capRead 2)) =
      some (0xDEADBEEF, 0) ∧
    after (runEvent (.host (wrCapbuf 3 1)) (capturing 4 2 0 waiting)) State.faultCode = some 7 := by decide

/-! ## Witnesses: a state and operands that meet each statement's hypotheses, clause by clause -/

theorem witness_DecodeEncodeRoundTrip : (Instr.cfgCapture 31 63).wellFormed = true ∧ (Instr.inPins 0).wellFormed = true := by
  decide

theorem witness_DecodedWordReencodes :
    Sys2Proof.decode (.command 0x020007FF) = .ok (.cfgCapture 31 63) ∧
    Sys2Proof.decode (.lane 0x209F) = .ok (.waitGpio true 31) := by decide

/-- Every opcode's clause. -/
theorem witness_CommandFields :
    [0x01000001, 0x020007FF, 0x0300003F, 0x04000000, 0x050007E0, 0x0600001F, 0x07000000, 0x08000000, 0x09000000,
      0x0A000001, 0x0B000000].map decodeCommand =
    [.ok (.calcDiv true), .ok (.cfgCapture 31 63), .ok (.runCapture 31 true), .ok .releaseCapture, .ok (.reconstruct 63),
      .ok (.initDecoder 31), .ok .deinitDecoder, .ok .pollFrame, .ok .decode, .ok (.setNotify true), .ok .popReport] := by
  decide

/-- Faulted, BUSY, ready; the opcodes at the ends of the legal range. -/
theorem witness_CommandIssue :
    (clean 0).params.baseClockHz ≠ 0 ∧ (faulted (clean 0)).fault = true ∧
    (capturing 4 2 0 waiting).fault = false ∧ (capturing 4 2 0 waiting).busy = true ∧ (clean 0).ready ∧
    (0x0C000000 : Word).toNat / 2 ^ 24 = 0x0C ∧ (0x0B000000 : Word).toNat / 2 ^ 24 = 0x0B ∧
    ((0x05000081 : Word) &&& 0x00FFFFFF) &&& ~~~0x0007E0 ≠ 0 := by decide

theorem witness_LaneWordOfPhase :
    (clean 0).lc.phase = .off ∧ (capturing 4 2 0 waiting).lc.phase = .wait ∧
    (capturing 32 2 0 (running [])).lc.phase = .run ∧
    (capturing 32 2 0 (running [])).cs.pinCount.toNat ∈ [1, 2, 4, 8, 16, 32] := by decide

/-- The state with one event to come. -/
def next (e : Event) (s : State) : State := { s with sched := [e] }

theorem issues_next (w : Word) (s : State) : (next (.host (cmdWrite w)) s).issues w := ⟨_, rfl, rfl, rfl, rfl, rfl⟩

/-- StepStopsOnlyWithoutClock, its second clause: a legal word and an illegal one. -/
theorem witness_StepStopsOnlyWithoutClock :
    let unclocked := { clean 0 with params := { vp with baseClockHz := 0 } }
    (∀ w, (next (.host (cmdWrite w)) unclocked).issues w) ∧ unclocked.fault = false ∧ unclocked.params.baseClockHz = 0 ∧
    step (next (.host (cmdWrite 0x04000000)) unclocked) = .refused .clockNotFixed ∧
    step (next (.host (cmdWrite 0xFF000000)) unclocked) = .refused .clockNotFixed :=
  ⟨fun _ => issues_next _ _, by decide, by decide, rfl, rfl⟩

theorem witness_StepRunsIssuedCommand :
    let s := next (.host (cmdWrite 0x04000000)) (clean 0)
    s.issues 0x04000000 ∧ s.fault = false ∧ s.params.baseClockHz ≠ 0 ∧ decodeCommand 0x04000000 = .ok .releaseCapture :=
  ⟨issues_next _ _, by decide, by decide, by decide⟩

theorem witness_StepRunsLaneWord :
    let s := next (.lane 0x20) (capturing 4 2 0 waiting)
    s.takeEvent.1 = .lane 0x20 ∧ s.laneWord = some (.lane 0x2085) ∧
    Sys2Proof.decode (.lane 0x2085) = .ok (.waitGpio true 5) := by decide

/-- A state that meets the invariant: that of CLEAN_ENTRY at the parameters of the vectors. -/
theorem witness_InvariantKept : (clean 0).Inv ∧ ∃ t, step (next .xfer (clean 0)) = .next t := by
  refine ⟨⟨by decide, ⟨fun pool i => ?_, fun pool i => ?_, fun pool i => ?_, fun pool => ?_⟩,
    ⟨?_, ?_, ?_, ?_, ?_, ?_, ?_, ?_, ?_, ?_, ?_, ?_, ?_⟩, ⟨?_, ?_, ?_, ?_, ?_, ?_, ?_⟩, ⟨fun q => ?_, fun q => ?_⟩,
    ⟨?_, ?_, ?_⟩, ⟨by decide, ?_, ?_, ?_, ?_⟩, by intro r hr; simp [clean, State.cleanEntry] at hr, ⟨?_, ?_, ?_, ?_⟩⟩, ⟨_, rfl⟩⟩
  all_goals first
    | (cases pool <;> simp [clean, State.cleanEntry, State.heldIn, State.handles])
    | (simp [clean, State.cleanEntry, State.inSession])

/-- A step that answers a next state, for the statements about every step (ParametersConstant, Arg0Writers,
ConfigImmutableWhileBusy, FaultFreezes); with a fault set, and in a capture. -/
theorem witness_steps :
    (∃ t, step (next .latch (clean 0)) = .next t) ∧ (∃ t, step (next .latch (faulted (clean 0))) = .next t) ∧
    (faulted (clean 0)).fault = true ∧
    (∃ t, step (next .xfer (capturing 4 2 0 waiting)) = .next t) ∧
    (capturing 4 2 0 waiting).cs.state = .transferring ∧ (capturing 4 2 0 waiting).busy = true ∧
    (next .xfer (capturing 4 2 0 waiting)).takeEvent.1 = .xfer :=
  ⟨⟨_, rfl⟩, ⟨_, rfl⟩, rfl, ⟨_, rfl⟩, rfl, rfl, rfl⟩

/-- The largest period at the vectors' clock, and the smallest: the divider below 1. -/
theorem witness_CalcDivNearestEven :
    (clean 4294967295).ready ∧ (clean 4294967295).arg0.toNat = 4294967295 ∧
    ((125000000 : ℚ) * 4294967295 * (1 / 1000000) < 2 ^ 128 - 2 ^ 103) ∧ (clean 0).ready ∧
    ((125000000 : ℚ) * 1 * (1 / 1000000000) < 1) ∧ (1 : ℚ) < 2 ^ 128 - 2 ^ 103 := by
  refine ⟨by decide, by decide, by norm_num, by decide, by norm_num, by norm_num⟩

theorem witness_CalcDivCorners :
    (clean 0).ready ∧ 1 ≤ (clean 0).params.baseClockHz ∧ (clean 0).params.baseClockHz < 2 ^ 64 ∧ (clean 0).arg0 = 0 ∧
    (clean 7).arg0 ≠ 0 ∧ (clean 4294967295).ready ∧
    after (exec (.calcDiv true) (clean 4294967295)) State.data0 = some 0x52FA0000 ∧
    (f32Value (clean 0).params.divMax).lt (f32Value 0x52FA0000) = true := by decide

/-- Each way to be rejected: the count, the group one pin past the last, and dividers below 1.0, above DIV_MAX, infinite
and NaN, which are no finite value in range. -/
theorem witness_CfgCaptureRejects :
    (clean 0x42FA0000).ready ∧ (clean 0).params.wf = true ∧ 3 ∉ [1, 2, 4, 8, 16, 32] ∧ (clean 0).params.nPins < 29 + 4 ∧
    f32Value 0x3F7FFFFF = .finite (2 ^ 149 - 2 ^ 125) ∧ f32Value 0x7F800000 = .inf false ∧ f32Value 0x7FC00000 = .nan ∧
    (f32Value (clean 0).params.divMax).lt (f32Value 0x47800080) = true := by decide

/-- Accepted at both ends of the range and rejected beside them. -/
theorem witness_DividerAcceptedRange :
    vp.wf = true ∧ dividerRejected vp 0x3F800000 = false ∧ dividerRejected vp 0x3F7FFFFF = true ∧
    dividerRejected vp 0x47800000 = false ∧ dividerRejected vp 0x47800001 = true := by decide

/-- The group that ends at the last pin; a session in use; an owned pin; no free lane; no free slot; and all free. -/
theorem witness_CfgCaptureClaims :
    (clean 0x3F800000).ready ∧ (clean 0).params.wf = true ∧ 28 + 4 ≤ (clean 0).params.nPins ∧
    dividerRejected (clean 0x3F800000).params (clean 0x3F800000).arg0 = false ∧
    (clean 0).isFree .lane 0 = true ∧ (clean 0).isFree .prog 3 = true ∧ (clean 0).anyOwned 28 4 = false ∧
    (session 0 4).ready ∧ (session 0 4).cs.state = .configuring ∧
    (decoding [] (notifyOff [])).ready ∧ (decoding [] (notifyOff [])).pinOwner[10] ≠ .none ∧
    { clean 0x3F800000 with held := { lane := [0, 1, 2, 3], prog := [], xfer := [], irq := [] } }.freeIndex .lane = none ∧
    { clean 0x3F800000 with held := { lane := [], prog := [0, 1, 2, 3], xfer := [], irq := [] } }.freeIndex .prog = none := by
  decide

/-- No session; each invalid operand at its bound; no free channel; and a free one. -/
theorem witness_RunCapture :
    (clean 0).ready ∧ (clean 0).cs.state ≠ .configuring ∧
    (session 0 4).ready ∧ (session 0 4).arg0.toNat < 1 ∧
    (session 513 4).ready ∧ (session 0 4).params.capbufWords < (session 513 4).arg0.toNat ∧
    (session 512 4).arg0.toNat ≤ (session 512 4).params.capbufWords ∧ (session 512 4).params.nPins ≤ 32 ∧
    (session 512 4).isFree .xfer 0 = true ∧
    { session 512 4 with held := { lane := [0], prog := [0], xfer := [0, 1], irq := [] } }.freeIndex .xfer = none := by
  decide

theorem witness_ReleaseCapture :
    (session 0 4).fault = false ∧ (session 0 4).cs.state = .configuring ∧ (clean 0).fault = false ∧
    (clean 0).busy = false ∧ (clean 0).cs.state ≠ .configuring ∧ (capturing 4 2 0 waiting).fault = false ∧
    (capturing 4 2 0 waiting).busy = true := by decide

/-- The pin at its level, the pin not there, and a fault set. -/
theorem witness_TriggerStep :
    (capturing 4 2 0 waiting).lc.phase = .wait ∧ (capturing 4 2 0 waiting).fault = false ∧
    (0x20 : Word).getLsbD (capturing 4 2 0 waiting).cs.trigPin.toNat = (capturing 4 2 0 waiting).cs.trigPol ∧
    (0x1F : Word).getLsbD (capturing 4 2 0 waiting).cs.trigPin.toNat ≠ (capturing 4 2 0 waiting).cs.trigPol ∧
    (faulted (capturing 4 2 0 waiting)).fault = true ∧ (faulted (capturing 4 2 0 waiting)).lc.phase = .wait := by
  decide

/-- Not full, full with room, full and stalled, faulted. -/
theorem witness_SampleStep :
    (capturing 4 2 0 (running [])).lc.phase = .run ∧
    (capturing 4 2 0 (running [])).cs.pinCount.toNat ∈ [1, 2, 4, 8, 16, 32] ∧
    (capturing 4 2 0 (running [])).fault = false ∧ ¬ 32 ≤ (capturing 4 2 0 (running [])).lc.cnt + 4 ∧
    32 ≤ (capturing 32 2 0 (running [])).lc.cnt + 32 ∧
    (capturing 32 2 0 (running [1, 2, 3])).lc.rxc.length ≠ vp.rxcDepth ∧
    (capturing 32 2 0 (running [1, 2, 3, 4])).lc.rxc.length = vp.rxcDepth ∧
    (faulted (capturing 4 2 0 (running []))).fault = true := by decide

theorem witness_WaitGpioInstruction :
    (capturing 4 2 0 waiting).fault = false ∧ (capturing 4 2 0 waiting).lc.phase = .wait ∧
    (capturing 4 2 0 waiting).pins.getLsbD 31 = false ∧ (capturing 4 2 0 waiting).pins.getLsbD 31 ≠ true := by
  decide

/-- Bit count 0 stands for 32; 31 bits do not fill a word of T(31) = 31 bits twice; 4 of 32 bits. -/
theorem witness_InPinsInstruction :
    (capturing 4 2 0 (running [])).fault = false ∧ (capturing 4 2 0 (running [])).lc.phase = .run ∧
    32 - 32 % 32 ≤ (capturing 4 2 0 (running [])).lc.cnt + 32 ∧ 32 - 32 % 31 ≤ (capturing 4 2 0 (running [])).lc.cnt + 31 ∧
    ¬ 32 - 32 % 4 ≤ (capturing 4 2 0 (running [])).lc.cnt + 4 ∧
    (capturing 4 2 0 (running [])).lc.rxc.length ≠ vp.rxcDepth ∧
    (capturing 4 2 0 (running [1, 2, 3, 4])).lc.rxc.length = vp.rxcDepth := by decide

theorem witness_CaptureWordLayout :
    (capturing 16 2 0 (running [])).fault = false ∧ (capturing 16 2 0 (running [])).lc = running [] ∧
    (capturing 16 2 0 (running [])).lc.rxc.length < vp.rxcDepth ∧
    [(0x1111 : Word), 0x2222].length = 32 / (capturing 16 2 0 (running [])).cs.pinCount.toNat ∧
    (capturing 16 2 0 (running [])).cs.pinCount.toNat ∈ [1, 2, 4, 8, 16, 32] := by decide

/-- A run from a waiting lane: the trigger, one sample of 32 pins, one move. -/
theorem witness_CaptureHoldsSamplesInOrder :
    (capturing 32 1 0 waiting).fault = false ∧ (capturing 32 1 0 waiting).cs.state = .transferring ∧
    (capturing 32 1 0 waiting).lc = waiting ∧ (capturing 32 1 0 waiting).cs.idx = 0 ∧
    (capturing 32 1 0 waiting).cs.cap ≤ vp.capbufWords ∧
    after (Host.Core.run Sys2Proof.core 3
      { capturing 32 1 0 waiting with sched := [.lane 0x20, .lane 0xCAFE0020, .xfer] })
      (fun t => (t.cs.idx, t.capRead 0, t.cs.state)) = some (1, 0xCAFE0020, .released) := by decide

theorem witness_XferStep :
    (clean 0).cs.state ≠ .transferring ∧ (capturing 4 2 0 (running [])).lc.rxc = [] ∧
    (capturing 4 2 0 (running [7])).fault = false ∧ (capturing 4 2 0 (running [7])).cs.state = .transferring ∧
    (capturing 4 2 0 (running [7])).lc.rxc = 7 :: [] ∧ (capturing 4 2 0 (running [7])).cs.idx + 1 ≠ 2 ∧
    (capturing 4 2 1 (running [7])).cs.idx + 1 = (capturing 4 2 1 (running [7])).cs.cap ∧
    (capturing 4 2 1 (running [7])).cs.cap ≤ vp.capbufWords ∧ (faulted (capturing 4 2 1 (running [7]))).fault = true ∧
    (capturing 4 2 2 (running [7])).cs.cap ≤ (capturing 4 2 2 (running [7])).cs.idx := by decide

/-- The step that leaves Transferring. -/
theorem witness_TransferringLeft :
    (capturing 4 2 1 (running [7])).cs.state = .transferring ∧
    after (step (next .xfer (capturing 4 2 1 (running [7])))) (fun t => t.cs.state) = some .released := by decide

/-- ReconstructRejects: the count, 0 words, one word too many. ReconstructEffect, ReconstructRoundTrip,
ReconstructCorners: 1 word and all of them. -/
theorem witness_Reconstruct :
    (clean 0).ready ∧ (clean 0).params.wf = true ∧ 3 ∉ [1, 2, 4, 8, 16, 32] ∧ (clean 0).arg0.toNat < 1 ∧
    vp.capbufWords < (clean 513).arg0.toNat ∧ (clean 513).ready ∧
    (clean 1).ready ∧ 1 ≤ (clean 1).arg0.toNat ∧ (clean 512).ready ∧ (clean 512).arg0.toNat ≤ vp.capbufWords ∧
    32 ∈ [1, 2, 4, 8, 16, 32] := by decide

/-- Pin 32 is past the last pin and pin 31 is not; an active session; an owned pin; no free lane; no free slot. -/
theorem witness_InitDecoder :
    (clean 0).ready ∧ (clean 0).params.nPins ≤ 32 ∧ 31 < (clean 0).params.nPins ∧ (clean 0).dec.active = false ∧
    (clean 0).pinOwner[31] = .none ∧ (clean 0).isFree .lane 0 = true ∧ (clean 0).isFree .prog 0 = true ∧
    (decoding [] (notifyOff [])).ready ∧ (decoding [] (notifyOff [])).dec.active = true ∧
    (session 0 4).ready ∧ (session 0 4).dec.active = false ∧ (session 0 4).pinOwner[3] ≠ .none ∧
    { clean 0 with held := { lane := [0, 1, 2, 3], prog := [], xfer := [], irq := [] } }.freeIndex .lane = none ∧
    { clean 0 with held := { lane := [], prog := [0, 1, 2, 3], xfer := [], irq := [] } }.freeIndex .prog = none := by
  decide

/-- The hypotheses of DeinitDecoder, PollFrame, SetNotifyOn, SetNotifyOff and PopReport, clause by clause. -/
theorem witness_decoder :
    (clean 0).ready ∧ (clean 0).dec.active = false ∧
    (decoding [] (notifyOff [])).ready ∧ (decoding [] (notifyOff [])).dec.active = true ∧
    (decoding [] (notifyOff [])).dec.rxd = [] ∧ (decoding [5, 6] (notifyOff [])).dec.rxd = 5 :: [6] ∧
    (decoding [] (notifyOn false [])).ready ∧ (decoding [] (notifyOn false [])).nt.en = true ∧
    (decoding [] (notifyOff [])).nt.en = false ∧ (decoding [] (notifyOff [])).isFree .irq 0 = true ∧
    { decoding [] (notifyOff []) with held := { lane := [0], prog := [0], xfer := [], irq := [0] } }.freeIndex .irq = none ∧
    (decoding [] (notifyOff [])).nt.rpt = [] ∧ (decoding [] (notifyOff [aReport])).nt.rpt = aReport :: [] := by
  decide

/-- PlaneIterationForm: the last pin of a group. -/
theorem witness_PlaneIterationForm : 32 ∈ [1, 2, 4, 8, 16, 32] ∧ 31 < 32 ∧ 0 < 32 / 32 := by decide

/-- DecodeCommand, FrameRejection: a frame that fails an inversion, and a valid one without a repeat
field. -/
theorem witness_DecodeCommand :
    (clean 0xBA45FF01).ready ∧ frameValid (clean 0xBA45FF01).arg0 = false ∧ frameValid (clean 0xBA45FF00).arg0 = true ∧
    repeatOf (clean 0xBA45FF00).params (clean 0xBA45FF00).arg0 = .absent ∧
    (clean 0xBA45FF00).arg0 = encodeFrame 0x00 0x45 := by decide

/-- A frame at which REPEAT_FN answers as given. -/
def repeating (answer : RepeatField) : State :=
  { clean 0xBA45FF00 with params := { vp with repeatFn := [(0xBA45FF00, answer)] } }

/-- R215: a repeat field is in DATA1 with REPEAT_PRESENT, and an invalid one makes the frame malformed. -/
theorem test_decode_repeat :
    after (exec .decode (repeating (.present 0x7E))) results = some (0x900, 0xBA45FF00, 0x037E4500) ∧
    after (exec .decode (repeating .invalid)) results = some (0x903, 0xBA45FF00, 0) := by decide

theorem witness_DecodeCommand_repeat :
    (repeating .invalid).ready ∧ repeatOf (repeating .invalid).params (repeating .invalid).arg0 = .invalid ∧
    frameValid (repeating (.present 0xFF)).arg0 = true ∧
    repeatOf (repeating (.present 0xFF)).params (repeating (.present 0xFF)).arg0 = .present 0xFF := by decide

theorem witness_FrameRoundTrip :
    (clean (encodeFrame 0xFF 0x00)).ready ∧ ∀ r, repeatOf (clean (encodeFrame 0xFF 0x00)).params r = .absent :=
  ⟨by decide, fun _ => rfl⟩

/-- FrameStep, LatchStep, HandleStep: enabled, and not enabled for each reason. -/
theorem witness_agents :
    (decoding [1, 2, 3] (notifyOff [])).dec.rxd.length < vp.rxdDepth ∧
    vp.rxdDepth ≤ (decoding [1, 2, 3, 4] (notifyOff [])).dec.rxd.length ∧
    (decoding [1] (notifyOn false [])).fault = false ∧ (decoding [1] (notifyOn false [])).nt.en = true ∧
    (decoding [1] (notifyOn false [])).dec.rxd ≠ [] ∧ (decoding [1] (notifyOn false [])).nt.pending = false ∧
    (decoding [] (notifyOn true [])).nt.pending = true ∧ (decoding [] (notifyOn true [])).dec.rxd = [] ∧
    (decoding [1] (notifyOn true [])).dec.rxd = 1 :: [] ∧
    (decoding [1] (notifyOn true [aReport])).nt.rpt.length < vp.reportDepth ∧
    vp.reportDepth ≤ (decoding [1] (notifyOn true (List.replicate 4 aReport))).nt.rpt.length ∧
    (decoding [1] (notifyOff [])).nt.en = false ∧ (faulted (decoding [1] (notifyOn true []))).fault = true := by
  decide

/-- irq_out falls: the last report popped, and notification turned off. -/
theorem witness_IrqOutput :
    (decoding [] (notifyOn false [aReport])).irqOut = true ∧
    after (step (next (.host (cmdWrite 0x0B000000)) (decoding [] (notifyOn false [aReport])))) State.irqOut = some false ∧
    after (step (next (.host (cmdWrite 0x0A000000)) (decoding [] (notifyOn false [aReport])))) State.irqOut = some false := by
  decide

/-- A frame leaves its queue: to the host, to the handler, and with its session. -/
theorem witness_FrameDeliveredOnce :
    after (step (next (.host (cmdWrite 0x08000000)) (decoding [5] (notifyOff [])))) (fun t => (t.dec.rxd, t.data0)) =
      some ([], 5) ∧
    after (step (next .handle (decoding [5] (notifyOn true [])))) (fun t => (t.dec.rxd, t.nt.rpt.length)) =
      some ([], 1) ∧
    after (step (next (.host (cmdWrite 0x07000000)) (decoding [5] (notifyOff [])))) (fun t => t.dec.rxd) = some [] := by
  decide

/-- A read that faults and a command that faults. -/
theorem witness_FaultIsPrecise :
    (clean 0).fault = false ∧
    after (step (next (.host { kind := .read, offset := 0x030, size := 4, data := 0 }) (clean 0))) State.fault = some true ∧
    after (step (next (.host (cmdWrite 0x0C000000)) (clean 0))) State.faultCode = some 1 := by decide

/-- Steps that write RESULT and ARG0 (ResultWriters, Arg0Writers). -/
theorem witness_ResultWriters :
    after (step (next (.host (cmdWrite 0x09000000)) (clean 0))) State.result = some 0x903 ∧
    after (step (next (.host (wr .arg0 7)) (clean 0))) State.arg0 = some 7 := by decide

/-- The offsets where the clauses meet: 0x02C is mapped, 0x030 and 0xFFC are not, 0x17FC is word 511 and 0x1800 is past the
end, 0x3000 is past the windows. -/
theorem witness_HostBusErrors :
    (clean 0).fault = false ∧ (clean 0).params.wf = true ∧
    [0x02C, 0x030, 0xFFC, 0x1000, 0x17FC, 0x1800, 0x27FC, 0x2800, 0x3000].map (locationAt vp.capbufWords) =
      [some (.register .planeInfo), none, none, some (.capbuf 0), some (.capbuf 511), none, some (.planebuf 511), none,
        none] := by decide

/-- HostReads, its last clause: reads of a wrong width, misaligned, and at the first and last offset of each unmapped
range, with a fault set. The accesses beside them are mapped. -/
theorem witness_HostReadsFaulted :
    (clean 0).params.wf = true ∧ (faulted (clean 0)).fault = true ∧
    ([(0x008, 2), (0x00A, 4), (0x030, 4), (0xFFC, 4), (0x1800, 4), (0x1FFC, 4), (0x2800, 4), (0x2FFC, 4), (0x3000, 4),
        (0xFFFFFFFC, 4)] : List (Word × Nat)).all (fun r =>
      after (runEvent (.host { kind := .read, offset := r.1, size := r.2, data := 0 })
        ((faulted (clean 0)).setReadData 5)) (fun t => (t.readData, t.faultCode)) == some (0, 8)) ∧
    ([0x02C, 0x1000, 0x17FC, 0x27FC] : List Nat).all (fun off => (locationAt vp.capbufWords off).isSome) := by decide

/-- HostReads, HostCapbufWrites: the last word, ready, BUSY, and BUSY with a fault set. -/
theorem witness_HostReads :
    (clean 0).params.wf = true ∧ 511 < (clean 0).params.capbufWords ∧ (clean 0).busy = false ∧
    (capturing 4 2 0 waiting).busy = true ∧ (capturing 4 2 0 waiting).fault = false ∧
    (faulted (capturing 4 2 0 waiting)).busy = true ∧ (faulted (capturing 4 2 0 waiting)).fault = true ∧
    (clean 0).ready := by decide

/-- Steps that write the buffers. -/
theorem witness_BufferWriters :
    (clean 1).params.wf = true ∧
    after (step (next (.host (cmdWrite 0x05000080)) ((clean 1).capWrite 0 0x1B))) (fun t => t.planeRead 0) =
      some 0x01000103 ∧
    after (step (next .xfer (capturing 4 2 0 (running [7])))) (fun t => t.capRead 0) = some 7 ∧
    after (step (next (.host (wrCapbuf 511 9)) (clean 0))) (fun t => t.capRead 511) = some 9 := by decide +kernel

/-- StatusFields, ViewFields: queues at their largest depth. -/
theorem witness_StatusFields :
    (capturing 4 2 0 (running (List.replicate 15 0))).lc.rxc.length ≤ 15 ∧
    (decoding (List.replicate 15 0) (notifyOff (List.replicate 15 aReport))).dec.rxd.length ≤ 15 ∧
    (decoding (List.replicate 15 0) (notifyOff (List.replicate 15 aReport))).nt.rpt.length ≤ 15 ∧
    (clean 0).cs.idx ≤ 1024 ∧ (clean 0).cs.cap ≤ 1024 ∧ (clean 0).buf.words ≤ 1024 ∧ (clean 0).plane.words ≤ 1024 := by
  decide

end Sys2Proof.Tests
end

/-! The fields of a register word that `++` lays out, and the opcode of a command word. -/

namespace Sys2Proof.Machine

section
variable {v w : Nat} (x : BitVec v) (y : BitVec w)

/-! A field of `x ++ y` lies in `y` or in `x`. The widths stay out of the index of the simp set: a word of the model has
the width 32, which is the sum of its fields' widths only after evaluation. -/

theorem extractLsb'_append_low {start len : Nat} (h : start + len ≤ w) :
    BitVec.extractLsb' (n := no_index (v + w)) start len (HAppend.hAppend (γ := BitVec (no_index (v + w))) x y) =
      y.extractLsb' start len :=
  BitVec.extractLsb'_append_eq_of_add_le h

theorem extractLsb'_append_high {start len : Nat} (h : w ≤ start) :
    BitVec.extractLsb' (n := no_index (v + w)) start len (HAppend.hAppend (γ := BitVec (no_index (v + w))) x y) =
      x.extractLsb' (start - w) len :=
  BitVec.extractLsb'_append_eq_of_le h

theorem getLsbD_append_low {i : Nat} (h : i < w) :
    BitVec.getLsbD (w := no_index (v + w)) (HAppend.hAppend (γ := BitVec (no_index (v + w))) x y) i = y.getLsbD i := by
  simp [BitVec.getLsbD_append, h]

theorem getLsbD_append_high {i : Nat} (h : w ≤ i) :
    BitVec.getLsbD (w := no_index (v + w)) (HAppend.hAppend (γ := BitVec (no_index (v + w))) x y) i =
      x.getLsbD (i - w) := by
  simp [BitVec.getLsbD_append, h]

end

/-- Settles O59: each field of STATUS lies at its bits of the word's layout, and the counts fit their four bits. -/
theorem statusFields : Obligations.StatusFields := by
  intro s hrxc hrpt hrxd
  simp [State.status, extractLsb'_append_low, extractLsb'_append_high, getLsbD_append_low, getLsbD_append_high,
    -BitVec.getLsbD_eq_getElem, -BitVec.extractLsb'_toNat, State.busy_iff]
  exact ⟨by cases s.cs.state <;> rfl, by omega⟩

/-- Settles O60: each field of the five views lies at its bits of the word's layout, and the counts fit their sixteen. -/
theorem viewFields : Obligations.ViewFields := by
  intro s hidx hcap hbuf hplane
  simp [State.csCfg, State.csProgress, State.decCfg, State.bufInfo, State.planeInfo, extractLsb'_append_low,
    extractLsb'_append_high, getLsbD_append_low, getLsbD_append_high, -BitVec.getLsbD_eq_getElem,
    -BitVec.extractLsb'_toNat]
  omega

/-- RESULT.OPC of the word that result() writes (10_state R26). -/
theorem resultWord_opc (opc : BitVec 8) (code : ResultCode) (flags : ResultFlags) :
    (resultWord opc code flags).extractLsb' 8 8 = opc := by
  simp [resultWord, extractLsb'_append_low, extractLsb'_append_high]

/-- The bits of RESULT that read 0 whatever result() writes (10_state R26; 60_exceptions R270). -/
theorem resultWord_reserved (opc : BitVec 8) (code : ResultCode) (flags : ResultFlags) :
    resultWord opc code flags &&& 0xFFFF00CC = 0 := by
  have hcode : code.bits &&& 0xC#4 = 0 := by cases code <;> rfl
  calc resultWord opc code flags &&& 0xFFFF00CC
      = (0#16 ++ opc ++ 0#2 ++ BitVec.ofBool flags.present ++ BitVec.ofBool flags.clamped ++ code.bits) &&&
          (0xFFFF#16 ++ 0#8 ++ 3#2 ++ 0#1 ++ 0#1 ++ 0xC#4) := rfl
    _ = 0 := by simp only [BitVec.and_append, hcode, BitVec.and_zero, BitVec.zero_and]; rfl

/-- The bits of DATA1 that read 0 whatever frame it describes (10_state R29). -/
theorem frameFields_reserved (address data rep : Byte) (present : Bool) :
    frameFields address data rep present &&& 0xFC000000 = 0 := by
  calc frameFields address data rep present &&& 0xFC000000
      = (0#6 ++ BitVec.ofBool present ++ 1#1 ++ rep ++ data ++ address) &&&
          (0x3F#6 ++ 0#1 ++ 0#1 ++ 0#8 ++ 0#8 ++ 0#8) := rfl
    _ = 0 := by simp only [BitVec.and_append, BitVec.and_zero, BitVec.zero_and]; rfl

theorem decodeFrame_reserved (p : Params) (r : Word) : (decodeFrame p r).2 &&& 0xFC000000 = 0 := by
  unfold decodeFrame
  split
  · split
    · rfl
    · exact frameFields_reserved _ _ _ _
    · exact frameFields_reserved _ _ _ _
  · rfl

/-- The opcode of a command (30_encoding R101); a lane word has none. -/
def commandOpcode : Instr → Option (BitVec 8)
  | .calcDiv _ => some opcCalcDiv
  | .cfgCapture _ _ => some opcCfgCapture
  | .runCapture _ _ => some opcRunCapture
  | .releaseCapture => some opcReleaseCapture
  | .reconstruct _ => some opcReconstruct
  | .initDecoder _ => some opcInitDecoder
  | .deinitDecoder => some opcDeinitDecoder
  | .pollFrame => some opcPollFrame
  | .decode => some opcDecode
  | .setNotify _ => some opcSetNotify
  | .popReport => some opcPopReport
  | .waitGpio _ _ => none
  | .inPins _ => none

/-- The row of a word names a command of the word's opcode. -/
theorem opcodeRow_opcode (w : Word) (row : Format × Instr) (h : opcodeRow w = some row) :
    commandOpcode row.2 = some (w.extractLsb' 24 8) := by
  unfold opcodeRow at h
  split at h
  case h_12 => cases h
  all_goals
    rename_i e
    obtain rfl := Option.some.inj h
    exact congrArg some (BitVec.eq_of_toNat_eq e.symm)

theorem decodeCommand_opcode (w : Word) (i : Instr) (h : decodeCommand w = .ok i) :
    commandOpcode i = some (w.extractLsb' 24 8) := by
  unfold decodeCommand at h
  split at h
  · cases h
  · rename_i hrow
    split at h
    · obtain rfl := Except.ok.inj h
      exact opcodeRow_opcode w _ hrow
    · cases h

end Sys2Proof.Machine

/-! What one event can do to the block, said once: `Completes` lists the ends of a command, `EventEffect` those of
an event, and a proof about every step is a case analysis of the two. -/

namespace Sys2Proof.Machine

section
variable (s : State) (n : Nat) (v : Word)

/-! A sample writes the lane's micro-state alone. -/

theorem State.shiftIn_eq_setLc : ∃ l, s.shiftIn n v = s.setLc l := by
  unfold State.shiftIn; dsimp only; split <;> exact ⟨_, rfl⟩

@[simp] theorem State.shiftIn_arg0 : (s.shiftIn n v).arg0 = s.arg0 := by
  obtain ⟨l, e⟩ := s.shiftIn_eq_setLc n v; rw [e, State.setLc_arg0]
@[simp] theorem State.shiftIn_result : (s.shiftIn n v).result = s.result := by
  obtain ⟨l, e⟩ := s.shiftIn_eq_setLc n v; rw [e, State.setLc_result]
@[simp] theorem State.shiftIn_data0 : (s.shiftIn n v).data0 = s.data0 := by
  obtain ⟨l, e⟩ := s.shiftIn_eq_setLc n v; rw [e, State.setLc_data0]
@[simp] theorem State.shiftIn_data1 : (s.shiftIn n v).data1 = s.data1 := by
  obtain ⟨l, e⟩ := s.shiftIn_eq_setLc n v; rw [e, State.setLc_data1]
@[simp] theorem State.shiftIn_cs : (s.shiftIn n v).cs = s.cs := by
  obtain ⟨l, e⟩ := s.shiftIn_eq_setLc n v; rw [e, State.setLc_cs]

end

/-- How a command that is neither ignored nor faults can end (41_capture to 44_notification). -/
inductive State.Completes (s : State) : Instr → State → Prop
  /-- The result registers alone: every rejection, CALC_DIV, DECODE, a poll of an empty queue, SET_NOTIFY OFF while off. -/
  | result {i : Instr} {opc : BitVec 8} (code : ResultCode) (flags : ResultFlags) (d0 d1 : Word)
      (hopc : commandOpcode i = some opc) (hd1 : d1 &&& 0xFC000000 = 0) : s.Completes i (s.putResult opc code flags d0 d1)
  | configure {base n : Nat} (l p : Nat) (hn : pinCountLegal n = true) (hpins : base + n ≤ s.params.nPins)
      (hidle : s.cs.state = .idle ∨ s.cs.state = .released) (howned : s.anyOwned base n = false)
      (hl : s.freeIndex .lane = some l) (hp : s.freeIndex .prog = some p) :
      s.Completes (.cfgCapture base n) (s.configureCapture base n l p s.arg0)
  | unwind {tp : Nat} {pol : Bool} (hconf : s.cs.state = .configuring) :
      s.Completes (.runCapture tp pol) ((s.releaseSession.enter .idle).plainResult opcRunCapture .resourceExhausted)
  | start {tp : Nat} {pol : Bool} (x : Nat) (hconf : s.cs.state = .configuring) (hcap : 1 ≤ s.argCount)
      (hfit : s.argCount ≤ s.params.capbufWords) (htp : tp < s.params.nPins) (hx : s.freeIndex .xfer = some x) :
      s.Completes (.runCapture tp pol) (s.laneOff.startCapture s.argCount tp x pol)
  | release (hconf : s.cs.state = .configuring) :
      s.Completes .releaseCapture ((s.releaseSession.enter .idle).plainResult opcReleaseCapture .ok)
  | reconstruct {n : Nat} (hn : pinCountLegal n = true) (hN : 1 ≤ s.argCount) (hfit : s.argCount ≤ s.params.capbufWords) :
      s.Completes (.reconstruct n)
        (((s.planeFill (planeWord s.capRead n s.argCount) s.argCount).setPlane
          { valid := true, words := s.argCount, pinCount := BitVec.ofNat 6 n }).putResult
            opcReconstruct .ok {} (BitVec.ofNat 32 s.argCount) 0)
  | startDecoder {pin : Nat} (l p : Nat) (hpin : pin < s.params.nPins) (hoff : s.dec.active = false)
      (howned : s.anyOwned pin 1 = false) (hl : s.freeIndex .lane = some l) (hp : s.freeIndex .prog = some p) :
      s.Completes (.initDecoder pin) (s.startDecoder pin l p)
  | stopDecoder (hon : s.dec.active = true) (hen : s.nt.en = false) : s.Completes .deinitDecoder s.stopDecoder
  | pollFrame (r : Word) (rest : List Word) (hon : s.dec.active = true) (hrxd : s.dec.rxd = r :: rest) :
      s.Completes .pollFrame ((s.setDec { s.dec with rxd := rest }).putResult opcPollFrame .ok { present := true } r 0)
  | notifyOn (x : Nat) (hon : s.dec.active = true) (hen : s.nt.en = false) (hx : s.freeIndex .irq = some x) :
      s.Completes (.setNotify true)
        (((s.claim .irq x).setNt { s.nt with line := some x, pending := false, en := true }).plainResult opcSetNotify .ok)
  | notifyOff (hen : s.nt.en = true) :
      s.Completes (.setNotify false)
        (((s.release .irq s.nt.line).setNt
          { (s.release .irq s.nt.line).nt with en := false, pending := false, line := none }).plainResult opcSetNotify .ok)
  | popReport (rep : Report) (rest : List Report) (hrpt : s.nt.rpt = rep :: rest) :
      s.Completes .popReport
        ((s.setNt { s.nt with rpt := rest }).putResult opcPopReport rep.code.result { present := true } rep.raw rep.fields)

/-- A completed command leaves its opcode in RESULT.OPC (10_state R26, R27). -/
theorem State.Completes.opc {s t : State} {i : Instr} (h : s.Completes i t) :
    commandOpcode i = some (t.result.extractLsb' 8 8) := by
  cases h with
  | result code flags d0 d1 hopc hd1 => rw [hopc, State.putResult_result, resultWord_opc]
  | _ => exact congrArg some (resultWord_opc _ _ _).symm

/-- A command raises a fault or completes. -/
def State.RaisesOrCompletes (s : State) (i : Instr) (t : State) : Prop := (∃ k, t = s.raise k) ∨ s.Completes i t

theorem State.raisesOrCompletes_raise (s : State) (i : Instr) (k : FaultKind) : s.RaisesOrCompletes i (s.raise k) :=
  .inl ⟨k, rfl⟩

theorem State.raisesOrCompletes_plain (s : State) {i : Instr} {opc : BitVec 8} (hopc : commandOpcode i = some opc)
    (code : ResultCode) : s.RaisesOrCompletes i (s.plainResult opc code) :=
  .inr (.result code {} 0 0 hopc rfl)

theorem State.raisesOrCompletes_ok (s : State) {i : Instr} {opc : BitVec 8} (hopc : commandOpcode i = some opc) :
    s.RaisesOrCompletes i (s.putResult opc .ok {} 0 0) :=
  .inr (.result .ok {} 0 0 hopc rfl)

/-- The body of each command, past the gate. -/
theorem exec_gated (i : Instr) (s : State) (hi : commandOpcode i ≠ none) :
    ∃ f : State → State, exec i s = .next (s.gated f) ∧ s.RaisesOrCompletes i (f s) := by
  cases i with
  | calcDiv us => exact ⟨_, rfl, .inr (.result _ _ _ _ rfl rfl)⟩
  | cfgCapture base n =>
    refine ⟨_, rfl, ?_⟩
    split_ifs with hn hpins hdiv hst howned
    iterate 5 exact s.raisesOrCompletes_plain rfl _
    split
    · rename_i l p hl hp
      refine .inr (.configure l p (by simpa using hn) (by omega) ?_ (by simpa using howned) hl hp)
      tauto
    · exact s.raisesOrCompletes_plain rfl _
  | runCapture tp pol =>
    refine ⟨_, rfl, ?_⟩
    dsimp only
    split_ifs with hconf hbad
    · exact s.raisesOrCompletes_raise _ _
    · exact s.raisesOrCompletes_plain rfl _
    · have hconf : s.cs.state = .configuring := not_not.mp hconf
      split
      · exact .inr (.unwind hconf)
      · rename_i x hx
        exact .inr (.start x hconf (by omega) (by omega) (by omega) hx)
  | releaseCapture =>
    refine ⟨_, rfl, ?_⟩
    split_ifs with hconf
    · exact s.raisesOrCompletes_raise _ _
    · exact .inr (.release (not_not.mp hconf))
  | reconstruct n =>
    refine ⟨_, rfl, ?_⟩
    dsimp only
    split_ifs with hn hbad
    iterate 2 exact s.raisesOrCompletes_plain rfl _
    exact .inr (.reconstruct (by simpa using hn) (by omega) (by omega))
  | initDecoder pin =>
    refine ⟨_, rfl, ?_⟩
    split_ifs with hpin hon howned
    iterate 3 exact s.raisesOrCompletes_plain rfl _
    split
    · rename_i l p hl hp
      exact .inr (.startDecoder l p (by omega) (by simpa using hon) (by simpa using howned) hl hp)
    · exact s.raisesOrCompletes_plain rfl _
  | deinitDecoder =>
    refine ⟨_, rfl, ?_⟩
    split_ifs with hon hen
    iterate 2 exact s.raisesOrCompletes_raise _ _
    exact .inr (.stopDecoder (by simpa using hon) (by simpa using hen))
  | pollFrame =>
    refine ⟨_, rfl, ?_⟩
    dsimp only
    split_ifs with hon
    · exact s.raisesOrCompletes_raise _ _
    · split
      · exact s.raisesOrCompletes_ok rfl
      · rename_i r rest hrxd
        exact .inr (.pollFrame r rest (by simpa using hon) hrxd)
  | decode => exact ⟨_, rfl, .inr (.result _ _ _ _ rfl (decodeFrame_reserved _ _))⟩
  | setNotify en =>
    refine ⟨_, rfl, ?_⟩
    dsimp only
    split_ifs with hon hen hdouble hset
    iterate 2 exact s.raisesOrCompletes_raise _ _
    · obtain rfl := hen
      split
      · exact s.raisesOrCompletes_raise _ _
      · rename_i x hx
        exact .inr (.notifyOn x (by simpa using hon) (by simpa using hdouble) hx)
    · obtain rfl : en = false := by simpa using hen
      exact .inr (.notifyOff hset)
    · exact s.raisesOrCompletes_plain rfl _
  | popReport =>
    refine ⟨_, rfl, ?_⟩
    dsimp only
    split
    · exact s.raisesOrCompletes_ok rfl
    · rename_i rep rest hrpt
      exact .inr (.popReport rep rest hrpt)
  | waitGpio pol gpio => exact absurd rfl hi
  | inPins bitCount => exact absurd rfl hi

/-- All a command can do: it is ignored, it raises a fault, or it completes. -/
theorem exec_command_cases {i : Instr} {s t : State} (hi : commandOpcode i ≠ none) (h : exec i s = .next t) :
    t = s ∨ (s.fault = false ∧ ∃ k, t = s.raise k) ∨ (s.ready ∧ s.Completes i t) := by
  obtain ⟨f, hf, hbody⟩ := exec_gated i s hi
  obtain rfl : s.gated f = t := by rw [hf] at h; exact Host.Outcome.next.inj h
  rcases s.gated_cases f with ⟨-, e⟩ | ⟨hfault, -, e⟩ | ⟨hfault, hbusy, e⟩ <;> rw [e]
  · exact .inl rfl
  · exact .inr (.inl ⟨hfault, _, rfl⟩)
  · rcases hbody with ⟨k, hk⟩ | hc
    · exact .inr (.inl ⟨hfault, k, hk⟩)
    · exact .inr (.inr ⟨⟨hfault, hbusy⟩, hc⟩)

theorem registerAt_some {off : Nat} {r : Register} (h : registerAt off = some r) : off = (registerOffset r).toNat := by
  unfold registerAt at h
  split at h
  case h_13 => cases h
  all_goals obtain rfl := Option.some.inj h; rfl

/-- An access that reaches a register is a whole word at the register's offset (10_state R22). -/
theorem Access.location_register {p : Params} {a : Access} {r : Register} (h : a.location p = some (.register r)) :
    a.size = 4 ∧ a.offset = registerOffset r := by
  unfold Access.location at h
  split at h
  case isFalse => cases h
  rename_i hsize
  refine ⟨by simp at hsize; exact hsize.1, ?_⟩
  unfold locationAt at h
  split_ifs at h
  · obtain ⟨r', hr, e⟩ := Option.map_eq_some_iff.mp h
    obtain rfl := Location.register.inj e
    exact BitVec.eq_of_toNat_eq (registerAt_some hr)
  all_goals simp at h

/-- All an event can do to the block (20_memory R80). -/
inductive State.EventEffect (s : State) : Event → State → Prop
  /-- A step that is not enabled, or a write while a fault is set. -/
  | idle (e : Event) : s.EventEffect e s
  | read (a : Access) (w : Word) : s.EventEffect (.host a) (s.setReadData w)
  | readFault (a : Access) (k : FaultKind) : s.EventEffect (.host a) ((s.raise k).setReadData 0)
  | writeFault (a : Access) (k : FaultKind) : s.EventEffect (.host a) (s.raise k)
  | writeArg0 (a : Access) (hw : a.kind = .write) (hloc : a.location s.params = some (.register .arg0)) :
      s.EventEffect (.host a) (s.setArg0 a.data)
  | writeCap (a : Access) (i : Nat) (hbusy : s.busy = false) :
      s.EventEffect (.host a) ((s.capWrite i a.data).setBuf { s.buf with valid := false })
  | command (a : Access) (i : Instr) (t : State) (hw : a.kind = .write)
      (hloc : a.location s.params = some (.register .cmd)) (hdec : decodeCommand a.data = .ok i) (hready : s.ready)
      (hdone : s.Completes i t) : s.EventEffect (.host a) t
  | levels (l : Word) : s.EventEffect (.lane l) (s.setPins l)
  | trigger (l : Word) (hwait : s.lc.phase = .wait) :
      s.EventEffect (.lane l)
        (((s.setPins l).setLc { s.lc with phase := .run }).setCs { s.cs with trigSeen := true })
  | sample (l : Word) (n : Nat) (hrun : s.lc.phase = .run) (hn : n = sampleWidth (s.cs.pinCount.toNat % 32))
      (hroom : ¬ (mergeThreshold n ≤ s.lc.cnt + n ∧ s.lc.rxc.length = s.params.rxcDepth)) :
      s.EventEffect (.lane l) ((s.setPins l).shiftIn n (sampleOf l s.cs.pinBase.toNat n))
  | move (w : Word) (rest : List Word) (htrans : s.cs.state = .transferring) (hrxc : s.lc.rxc = w :: rest)
      (hmore : s.cs.idx + 1 < s.cs.cap) :
      s.EventEffect .xfer
        (((s.setLc { s.lc with rxc := rest }).capWrite s.cs.idx w).setCs { s.cs with idx := s.cs.idx + 1 })
  | finish (w : Word) (rest : List Word) (htrans : s.cs.state = .transferring) (hrxc : s.lc.rxc = w :: rest)
      (hlast : s.cs.idx + 1 = s.cs.cap) :
      s.EventEffect .xfer
        (((s.setLc { s.lc with rxc := rest }).capWrite s.cs.idx w).setCs { s.cs with idx := s.cs.idx + 1 }).complete
  | frame (f : Word) (hon : s.dec.active = true) (hroom : s.dec.rxd.length < s.params.rxdDepth) :
      s.EventEffect (.frame f) (s.setDec { s.dec with rxd := s.dec.rxd ++ [f] })
  | latch (hen : s.nt.en = true) : s.EventEffect .latch (s.setNt { s.nt with pending := true })
  | handleEmpty (hen : s.nt.en = true) : s.EventEffect .handle (s.setNt { s.nt with pending := false })
  | handleReport (r : Word) (rest : List Word) (hrxd : s.dec.rxd = r :: rest) (hen : s.nt.en = true)
      (hroom : s.nt.rpt.length < s.params.reportDepth) :
      s.EventEffect .handle ((s.setDec { s.dec with rxd := rest }).setNt { s.nt with
        pending := false
        rpt := s.nt.rpt ++ [{ raw := r, code := (decodeFrame s.params r).1, fields := (decodeFrame s.params r).2 }] })
  | handleOverflow (r : Word) (rest : List Word) (hrxd : s.dec.rxd = r :: rest) (hen : s.nt.en = true) :
      s.EventEffect .handle ((s.setDec { s.dec with rxd := rest }).setNt { s.nt with pending := false, ovf := true })
  | reset (draws : List Host.Cell) : s.EventEffect (.reset draws) (s.resetStep draws)

/-- The sample that `State.laneStep_cases` speaks of does not overfill the receive queue (41_capture R161, R166). -/
theorem State.laneStep_effect {s t : State} {l : Word} (h : s.laneStep l = .next t) : s.EventEffect (.lane l) t := by
  unfold State.laneStep State.laneInstr at h
  simp only [State.setPins_lc, State.setPins_cs] at h
  cases hp : s.lc.phase with
  | off => rw [hp] at h; obtain rfl := Host.Outcome.next.inj h; exact .levels l
  | wait =>
    simp only [hp, exec, execWaitGpio] at h
    split at h <;> obtain rfl := Host.Outcome.next.inj h
    · exact .trigger l hp
    · exact .levels l
  | run =>
    simp only [hp, exec, execInPins] at h
    split at h <;> obtain rfl := Host.Outcome.next.inj h
    · rename_i hc
      simp only [State.setPins_lc, State.setPins_params, Bool.and_eq_true, Bool.not_eq_true', Bool.and_eq_false_iff,
        beq_eq_false_iff_ne] at hc
      exact .sample l _ hp rfl fun ⟨hfull, hlen⟩ => hc.2.elim (by simp [hfull]) (absurd hlen)
    · exact .levels l

theorem State.hostRead_effect (s : State) (a : Access) : s.EventEffect (.host a) (s.hostRead a) := by
  rcases s.hostRead_cases a with ⟨w, e⟩ | ⟨k, e⟩ <;> rw [e]
  · exact .read a w
  · exact .readFault a k

theorem State.issueCommand_effect {s t : State} {a : Access} (hw : a.kind = .write)
    (hloc : a.location s.params = some (.register .cmd)) (h : s.issueCommand a.data = .next t) :
    s.EventEffect (.host a) t := by
  rcases s.issueCommand_cases a.data with ⟨-, e⟩ | ⟨-, -, e⟩ | ⟨-, k, e⟩ | ⟨-, i, hdec, e⟩ <;> rw [e] at h
  · obtain rfl := Host.Outcome.next.inj h; exact .idle _
  · cases h
  · obtain rfl := Host.Outcome.next.inj h; exact .writeFault a k
  · have hi : commandOpcode i ≠ none := by rw [decodeCommand_opcode _ _ hdec]; exact Option.some_ne_none _
    rcases exec_command_cases hi h with rfl | ⟨-, k, rfl⟩ | ⟨hready, hdone⟩
    · exact .idle _
    · exact .writeFault a k
    · exact .command a i t hw hloc hdec hready hdone

theorem State.hostWrite_effect {s t : State} {a : Access} (hw : a.kind = .write) (h : s.hostWrite a = .next t) :
    s.EventEffect (.host a) t := by
  rcases s.hostWrite_cases a with ⟨-, e⟩ | ⟨-, k, e⟩ | ⟨-, hloc, e⟩ | ⟨-, hloc, e⟩ | ⟨-, hbusy, i, -, e⟩ <;> rw [e] at h
  · obtain rfl := Host.Outcome.next.inj h; exact .idle _
  · obtain rfl := Host.Outcome.next.inj h; exact .writeFault a k
  · exact State.issueCommand_effect hw hloc h
  · obtain rfl := Host.Outcome.next.inj h; exact .writeArg0 a hw hloc
  · obtain rfl := Host.Outcome.next.inj h; exact .writeCap a i hbusy

theorem State.xferStep_effect (s : State) : s.EventEffect .xfer s.xferStep := by
  rcases s.xferStep_cases with e | ⟨-, htrans, hidx, w, rest, hrxc, ⟨hmore, e⟩ | ⟨hlast, e⟩⟩ <;> rw [e]
  · exact .idle _
  · exact .move w rest htrans hrxc (by omega)
  · exact .finish w rest htrans hrxc hlast

theorem State.frameStep_effect (s : State) (f : Word) : s.EventEffect (.frame f) (s.frameStep f) := by
  unfold State.frameStep
  split
  · rename_i hc
    simp only [Bool.and_eq_true, decide_eq_true_eq] at hc
    exact .frame f hc.1.2 hc.2
  · exact .idle _

theorem State.latchStep_effect (s : State) : s.EventEffect .latch s.latchStep := by
  unfold State.latchStep
  split
  · rename_i hc
    simp only [Bool.and_eq_true] at hc
    exact .latch hc.1.1.2
  · exact .idle _

theorem State.handleStep_effect (s : State) : s.EventEffect .handle s.handleStep := by
  rcases s.handleStep_cases with e | ⟨-, hen, -, ⟨-, e⟩ | ⟨r, rest, hrxd, ⟨hroom, e⟩ | ⟨-, e⟩⟩⟩ <;> rw [e]
  · exact .idle _
  · exact .handleEmpty hen
  · exact .handleReport r rest hrxd hen hroom
  · exact .handleOverflow r rest hrxd hen

theorem runEvent_effect {e : Event} {s t : State} (h : runEvent e s = .next t) : s.EventEffect e t := by
  cases e with
  | host a =>
    change s.hostStep a = _ at h
    unfold State.hostStep at h
    split at h
    · obtain rfl := Host.Outcome.next.inj h; exact s.hostRead_effect a
    · rename_i hw; exact State.hostWrite_effect hw h
  | lane l => exact State.laneStep_effect h
  | xfer => obtain rfl := Host.Outcome.next.inj h; exact s.xferStep_effect
  | frame f => obtain rfl := Host.Outcome.next.inj h; exact s.frameStep_effect f
  | latch => obtain rfl := Host.Outcome.next.inj h; exact s.latchStep_effect
  | handle => obtain rfl := Host.Outcome.next.inj h; exact s.handleStep_effect
  | reset draws => obtain rfl := Host.Outcome.next.inj h; exact .reset draws

end Sys2Proof.Machine

/-! The steps of the machine: who writes ARG0 and the result registers, and what a capture in flight keeps. -/

namespace Sys2Proof.Machine

section
variable (s : State)

/-! Choosing the next event moves the schedule alone. -/

@[simp] theorem State.takeEvent_snd_params : s.takeEvent.2.params = s.params := by rw [State.takeEvent_snd]
@[simp] theorem State.takeEvent_snd_arg0 : s.takeEvent.2.arg0 = s.arg0 := by rw [State.takeEvent_snd]
@[simp] theorem State.takeEvent_snd_result : s.takeEvent.2.result = s.result := by rw [State.takeEvent_snd]
@[simp] theorem State.takeEvent_snd_data0 : s.takeEvent.2.data0 = s.data0 := by rw [State.takeEvent_snd]
@[simp] theorem State.takeEvent_snd_data1 : s.takeEvent.2.data1 = s.data1 := by rw [State.takeEvent_snd]
@[simp] theorem State.takeEvent_snd_cs : s.takeEvent.2.cs = s.cs := by rw [State.takeEvent_snd]
@[simp] theorem State.takeEvent_snd_fault : s.takeEvent.2.fault = s.fault := by rw [State.takeEvent_snd]
@[simp] theorem State.takeEvent_snd_busy : s.takeEvent.2.busy = s.busy := by rw [State.takeEvent_snd]; rfl

end

theorem State.step_effect {s t : State} (h : step s = .next t) : s.takeEvent.2.EventEffect s.takeEvent.1 t :=
  runEvent_effect h

/-! ## The issue of a command (10_state R23) -/

/-- A whole word at offset 0 is CMD. -/
theorem Access.location_of_cmd (p : Params) {a : Access} (hsize : a.size = 4) (hoff : a.offset = 0) :
    a.location p = some (.register .cmd) := by
  simp [Access.location, locationAt, registerAt, hsize, hoff]

/-- A legal word written to CMD runs its command, whether or not the block is BUSY: the gate is the command's own. -/
theorem State.hostStep_cmd {s : State} {a : Access} {i : Instr} (hw : a.kind = .write) (hsize : a.size = 4)
    (hoff : a.offset = 0) (hfault : s.fault = false) (hclock : s.params.baseClockHz ≠ 0)
    (hdec : decodeCommand a.data = .ok i) : s.hostStep a = exec i s := by
  simp [State.hostStep, State.hostWrite, State.issueCommand, hw, Access.location_of_cmd _ hsize hoff, hfault, hclock, hdec]

/-- Settles O7: the next event is the CMD write, and the choice of it moves the schedule alone. -/
theorem stepRunsIssuedCommand : Obligations.StepRunsIssuedCommand := by
  rintro s w i ⟨a, hev, hw, hsize, hoff, rfl⟩ hfault hclock hdec
  refine ⟨?_, fun e rest hs => ?_, fun hs => ?_⟩
  · unfold step
    rw [hev]
    exact State.hostStep_cmd hw hsize hoff (by simpa using hfault) (by simpa using hclock) hdec
  · simp [State.takeEvent, hs]
  · simp [State.takeEvent, hs]

/-! ## ARG0 (10_state R24) -/

/-- No command writes ARG0: none has an operand there to leave (30_encoding R104). -/
theorem State.Completes.arg0 {s t : State} {i : Instr} (h : s.Completes i t) : t.arg0 = s.arg0 := by
  cases h <;> simp [State.configureCapture, State.startCapture, State.startDecoder, State.stopDecoder]

/-- Settles O54: among the effects of an event the ARG0 write alone has another ARG0, but for reset. -/
theorem arg0Writers : Obligations.Arg0Writers := by
  intro s t h
  have heff := State.step_effect h
  generalize s.takeEvent.1 = e at heff ⊢
  cases heff with
  | writeArg0 a hw hloc =>
    obtain ⟨hsize, hoff⟩ := Access.location_register hloc
    exact .inr (.inl ⟨a, rfl, hw, hsize, hoff, rfl⟩)
  | reset draws => exact .inr (.inr ⟨draws, rfl⟩)
  | command a i t hw hloc hdec hready hdone => exact .inl (by rw [hdone.arg0]; simp)
  | _ => exact .inl (by simp)

/-! ## The result registers (10_state R27) -/

theorem State.Completes.fault {s t : State} {i : Instr} (h : s.Completes i t) : t.fault = s.fault := by
  cases h <;> simp [State.configureCapture, State.startCapture, State.startDecoder, State.stopDecoder]

/-- Settles O53: a completed command carries its own opcode, a completed capture RUN_CAPTURE's, and no other effect of an
event but reset writes the result registers. -/
theorem resultWriters : Obligations.ResultWriters := by
  intro s t h
  have heff := State.step_effect h
  unfold State.issues
  generalize s.takeEvent.1 = e at heff ⊢
  cases heff with
  | command a i t hw hloc hdec hready hdone =>
    obtain ⟨hsize, hoff⟩ := Access.location_register hloc
    have hopc : some (t.result.extractLsb' 8 8) = some (a.data.extractLsb' 24 8) :=
      hdone.opc.symm.trans (decodeCommand_opcode _ _ hdec)
    refine .inr (.inl ⟨?_, a.data, ⟨a, rfl, hw, hsize, hoff, rfl⟩, Option.some.inj hopc⟩)
    rw [hdone.fault, hready.1]
  | finish w rest htrans hrxc hlast =>
    exact .inr (.inr (.inl ⟨rfl, by simp, by simp only [State.complete_result]; rfl⟩))
  | reset draws => exact .inr (.inr (.inr ⟨draws, rfl⟩))
  | _ => exact .inl (by simp)

/-! ## The configuration of a capture in flight (10_state R30, R31) -/

/-- What CS_CFG and CS_DIV show of a session record. -/
def CaptureSession.config (c : CaptureSession) : BitVec 5 × BitVec 6 × BitVec 5 × Bool × Word :=
  (c.pinBase, c.pinCount, c.trigPin, c.trigPol, c.div)

theorem State.csCfg_div_eq_of_config_eq {s t : State} (h : t.cs.config = s.cs.config) :
    t.csCfg = s.csCfg ∧ t.cs.div = s.cs.div := by
  simp only [CaptureSession.config, Prod.mk.injEq] at h
  obtain ⟨hbase, hcount, hpin, hpol, hdiv⟩ := h
  simp only [State.csCfg, hbase, hcount, hpin, hpol, hdiv, and_self]

/-- Settles O31: while BUSY no command completes, and the agents' steps write no configuration. -/
theorem configImmutableWhileBusy : Obligations.ConfigImmutableWhileBusy := by
  intro s t hbusy h hreset
  apply State.csCfg_div_eq_of_config_eq
  have heff := State.step_effect h
  generalize s.takeEvent.1 = e at heff hreset
  cases heff with
  | command a i t hw hloc hdec hready hdone =>
    have hidle : s.busy = false := by simpa using hready.2
    rw [hbusy] at hidle; cases hidle
  | reset draws => exact absurd ⟨draws, rfl⟩ hreset
  | _ => simp [CaptureSession.config]

end Sys2Proof.Machine

/-! The pools part of the invariant, one pool at a time. -/

namespace Sys2Proof.Machine

/-- One pool is exact: `State.PoolsExact` at a pool of `size` indices, with `ext` held outside, `held` held by the block,
and `handles` the handles of the block's owners (10_state R40). -/
structure PoolExact (size : Nat) (ext held : List Nat) (handles : List (Option Nat)) : Prop where
  held_iff : ∀ i, i ∈ held ↔ some i ∈ handles
  apart : ∀ i, handles.count (some i) ≤ 1
  inPool : ∀ i, i ∈ held → i < size ∧ i ∉ ext
  rising : held.Pairwise (· < ·)

theorem State.poolsExact_iff (s : State) :
    s.PoolsExact ↔ ∀ pool, PoolExact (poolSize s.params pool) (extHeld s.params pool) (s.heldIn pool) (s.handles pool) :=
  ⟨fun h pool => ⟨h.held_iff pool, h.apart pool, h.inPool pool, h.rising pool⟩,
    fun h => ⟨fun pool => (h pool).held_iff, fun pool => (h pool).apart, fun pool => (h pool).inPool,
      fun pool => (h pool).rising⟩⟩

section
variable {size : Nat} {ext held : List Nat}

/-- With no handle out, nothing is held. -/
theorem PoolExact.empty (owners : Nat) : PoolExact size ext [] (List.replicate owners none) where
  held_iff := by simp
  apart := by simp [List.count_replicate]
  inPool := by simp
  rising := .nil

/-- The order of a pool's owners does not matter. -/
theorem PoolExact.swap {a b : Option Nat} (h : PoolExact size ext held [a, b]) : PoolExact size ext held [b, a] where
  held_iff i := by rw [h.held_iff, (List.Perm.swap b a []).mem_iff]
  apart i := by rw [(List.Perm.swap a b []).count_eq]; exact h.apart i
  inPool := h.inPool
  rising := h.rising

/-- An owner without a handle takes a free index. -/
theorem PoolExact.claim {rest : List (Option Nat)} {i : Nat} (h : PoolExact size ext held (none :: rest))
    (hfree : i < size ∧ i ∉ held ∧ i ∉ ext) : PoolExact size ext (insertIndex held i) (some i :: rest) := by
  obtain ⟨hlt, hheld, hext⟩ := hfree
  have hrest : ∀ j, j ∈ held ↔ some j ∈ rest := fun j => by simpa using h.held_iff j
  refine ⟨fun j => ?_, fun j => ?_, fun j hj => ?_, pairwise_insertIndex _ _ h.rising⟩
  · simp [mem_insertIndex, hrest]
  · have hcount : rest.count (some j) ≤ 1 := by simpa using h.apart j
    have hnone : rest.count (some i) = 0 := List.count_eq_zero.mpr (mt (hrest i).mpr hheld)
    by_cases hij : i = j
    · subst hij; simp [hnone]
    · simpa [hij] using hcount
  · rcases (mem_insertIndex _ _ _).mp hj with rfl | hj
    · exact ⟨hlt, hext⟩
    · exact h.inPool j hj

/-- A held set without the index of a handle. -/
def dropHandle (held : List Nat) : Option Nat → List Nat
  | none => held
  | some i => held.filter (fun j => j != i)

theorem mem_dropHandle (held : List Nat) (o : Option Nat) (j : Nat) : j ∈ dropHandle held o ↔ j ∈ held ∧ o ≠ some j := by
  cases o with
  | none => simp [dropHandle]
  | some i => simp [dropHandle, @eq_comm _ i]

theorem pairwise_dropHandle (o : Option Nat) (h : held.Pairwise (· < ·)) : (dropHandle held o).Pairwise (· < ·) := by
  cases o with
  | none => exact h
  | some i => exact h.filter _

/-- An owner gives its handle back. -/
theorem PoolExact.release {rest : List (Option Nat)} {o : Option Nat} (h : PoolExact size ext held (o :: rest)) :
    PoolExact size ext (dropHandle held o) (none :: rest) := by
  refine ⟨fun j => ?_, fun j => ?_, fun j hj => ?_, pairwise_dropHandle o h.rising⟩
  · have hj := h.apart j
    rw [List.count_cons] at hj
    rw [mem_dropHandle, h.held_iff j]
    by_cases ho : o = some j
    · have hnot : some j ∉ rest := List.count_eq_zero.mp (by simp [ho] at hj; simpa using hj)
      simp [ho, hnot]
    · simp [ho, Ne.symm ho]
  · have := h.apart j
    rw [List.count_cons] at this ⊢
    simp; omega
  · exact h.inPool j ((mem_dropHandle _ _ _).mp hj).1

end

/-- Releasing a handle writes the held sets alone. -/
theorem State.release_eq_setHeld (s : State) (pool : Pool) (o : Option Nat) :
    s.release pool o = s.setHeld (s.held.set pool (dropHandle (s.heldIn pool) o)) := by
  cases o with
  | none => cases pool <;> rfl
  | some i => rfl

end Sys2Proof.Machine

/-! The invariant of the block under each group of effects: the registers, the buffers, the lane, the queues, and
the claims and releases of the sessions. -/

namespace Sys2Proof.Machine

section
variable {s : State}

/-! ## Effects on the registers and the model's own fields -/

theorem State.Inv.withRegisters (h : s.Inv) {t : State}
    (ht : t = { s with
      arg0 := t.arg0, result := t.result, data0 := t.data0, data1 := t.data1, fault := t.fault, faultCode := t.faultCode
      pins := t.pins, readData := t.readData, sched := t.sched, drawIx := t.drawIx })
    (hreg : t.RegistersExact) : t.Inv := by
  rw [ht] at hreg ⊢
  exact
    { params := h.params
      pools := { h.pools with }
      sequencer := { h.sequencer with }
      decoder := { h.decoder with }
      pins := { h.pins with }
      queues := { h.queues with }
      buffers := { h.buffers with }
      reports := h.reports
      registers := hreg }

theorem State.Inv.takeEvent (h : s.Inv) : s.takeEvent.2.Inv := by
  rw [State.takeEvent_snd]
  exact h.withRegisters rfl { h.registers with }

theorem State.Inv.setArg0 (h : s.Inv) (w : Word) : (s.setArg0 w).Inv := h.withRegisters rfl { h.registers with }

theorem State.Inv.setPins (h : s.Inv) (l : Word) : (s.setPins l).Inv := h.withRegisters rfl { h.registers with }

theorem State.Inv.setReadData (h : s.Inv) (w : Word) : (s.setReadData w).Inv := h.withRegisters rfl { h.registers with }

/-- The codes that 60_exceptions R272 lists are 1 to 8. -/
theorem FaultKind.bits_range (k : FaultKind) : k.bits ≠ 0 ∧ k.bits.toNat ≤ 8 := by cases k <;> decide

theorem State.Inv.raise (h : s.Inv) (k : FaultKind) : (s.raise k).Inv := by
  cases hf : s.fault with
  | true => rwa [State.raise_of_fault s k hf]
  | false =>
    rw [State.raise_of_clear s k hf]
    exact h.withRegisters rfl { h.registers with
      fault_iff := iff_of_true rfl k.bits_range.1
      faultCode := k.bits_range.2 }

theorem State.Inv.putResult (h : s.Inv) (opc : BitVec 8) (code : ResultCode) (flags : ResultFlags) (d0 d1 : Word)
    (hd1 : d1 &&& 0xFC000000 = 0) : (s.putResult opc code flags d0 d1).Inv :=
  h.withRegisters rfl { h.registers with
    result := resultWord_reserved opc code flags
    data1 := hd1 }

theorem State.Inv.plainResult (h : s.Inv) (opc : BitVec 8) (code : ResultCode) : (s.plainResult opc code).Inv :=
  h.putResult opc code {} 0 0 rfl

/-! ## Effects on the buffers -/

theorem State.Inv.setBuffers (h : s.Inv) {m : Mem} {b p : BufferInfo}
    (hbuf : (((s.setMem m).setBuf b).setPlane p).BuffersExact) : (((s.setMem m).setBuf b).setPlane p).Inv where
  params := h.params
  pools := { h.pools with }
  sequencer := { h.sequencer with }
  decoder := { h.decoder with }
  pins := { h.pins with }
  queues := { h.queues with }
  buffers := hbuf
  reports := h.reports
  registers := { h.registers with }

theorem State.Inv.setMem (h : s.Inv) {m : Mem} (hm : Mem.wf s.params.capbufWords m = true) : (s.setMem m).Inv :=
  h.setBuffers { h.buffers with mem := hm }

theorem State.Inv.setBuf (h : s.Inv) {b : BufferInfo}
    (hvalid : b.valid = true → 1 ≤ b.words ∧ pinCountLegal b.pinCount.toNat = true)
    (hwords : b.words ≤ s.params.capbufWords) : (s.setBuf b).Inv :=
  h.setBuffers (m := s.mem) (b := b) (p := s.plane) { h.buffers with buf := hvalid, bufWords := hwords }

/-- Contents no longer vouched for are of any pin count. -/
theorem State.Inv.invalidateBuf (h : s.Inv) : (s.setBuf { s.buf with valid := false }).Inv :=
  h.setBuf (fun hv => nomatch hv) h.buffers.bufWords

theorem State.Inv.setPlane (h : s.Inv) {p : BufferInfo} (hwords : 1 ≤ p.words) (hfit : p.words ≤ s.params.capbufWords)
    (hcount : pinCountLegal p.pinCount.toNat = true) : (s.setPlane p).Inv :=
  h.setBuffers { h.buffers with plane := fun _ => ⟨hwords, hcount⟩, planeWords := hfit }

theorem State.capWrite_eq_setMem (s : State) (i : Nat) (w : Word) : s.capWrite i w = s.setMem (s.capWrite i w).mem := by
  unfold State.capWrite; split <;> rfl

theorem State.Inv.capWrite (h : s.Inv) (i : Nat) (w : Word) : (s.capWrite i w).Inv := by
  rw [State.capWrite_eq_setMem]
  exact h.setMem (s.wf_capWrite i w h.buffers.mem)

theorem State.planeFill_eq_setMem (s : State) (ws : Nat → Word) (N : Nat) :
    s.planeFill ws N = s.setMem (s.planeFill ws N).mem := by
  apply State.ext <;> simp

theorem State.Inv.planeFill (h : s.Inv) (ws : Nat → Word) (N : Nat) : (s.planeFill ws N).Inv := by
  rw [State.planeFill_eq_setMem]
  exact h.setMem (s.wf_planeFill ws N h.buffers.mem)

/-! ## Effects on the capture lane and the session's progress -/

/-- The lane and the session record change, but not the handles, the pin group or the session's existence. -/
theorem State.Inv.setLane (h : s.Inv) {l : CaptureLane} {c : CaptureSession} (hstate : c.state = s.cs.state)
    (hgroup : c.pinBase = s.cs.pinBase ∧ c.pinCount = s.cs.pinCount)
    (hhandles : c.lane = s.cs.lane ∧ c.prog = s.cs.prog ∧ c.xfer = s.cs.xfer)
    (hseq : ((s.setLc l).setCs c).SequencerExact) (hrxc : l.rxc.length ≤ s.params.rxcDepth) :
    ((s.setLc l).setCs c).Inv := by
  obtain ⟨st, pb, pc, dv, tp, pol, ln, pr, xf, cap, idx, seen⟩ := c
  obtain ⟨rfl, rfl⟩ := hgroup
  obtain ⟨rfl, rfl, rfl⟩ := hhandles
  obtain rfl := hstate
  exact
    { params := h.params
      pools := { h.pools with }
      sequencer := hseq
      decoder := { h.decoder with }
      pins := { h.pins with }
      queues := { h.queues with rxc := hrxc }
      buffers := { h.buffers with }
      reports := h.reports
      registers := { h.registers with } }

theorem State.Inv.trigger (h : s.Inv) (hwait : s.lc.phase = .wait) :
    ((s.setLc { s.lc with phase := .run }).setCs { s.cs with trigSeen := true }).Inv := by
  obtain ⟨-, hcnt, -, -⟩ := h.sequencer.waitClear hwait
  have htrans : s.cs.state = .transferring := h.sequencer.phase_iff.mp (by simp [hwait])
  refine h.setLane rfl ⟨rfl, rfl⟩ ⟨rfl, rfl, rfl⟩ { h.sequencer with
    phase_iff := by simpa using htrans
    offClear := fun e => by cases e
    waitClear := fun e => by cases e
    runSeen := fun _ => rfl
    merging := ⟨h.sequencer.merging.1, fun _ => by simp [hcnt]⟩ } h.queues.rxc

/-- With a legal pin count IN_PINS samples that many pins, and its words fill exactly (30_encoding R108, 41_capture
R162). -/
theorem sampleWidth_of_legal {n : Nat} (h : pinCountLegal n = true) :
    sampleWidth (n % 32) = n ∧ mergeThreshold n = 32 := by
  simp only [pinCountLegal, Bool.or_eq_true, decide_eq_true_eq] at h
  rcases h with ((((rfl | rfl) | rfl) | rfl) | rfl) | rfl <;> decide

theorem State.Inv.shiftIn (h : s.Inv) (hrun : s.lc.phase = .run) (v : Word) {n : Nat}
    (hn : n = sampleWidth (s.cs.pinCount.toNat % 32))
    (hroom : ¬ (mergeThreshold n ≤ s.lc.cnt + n ∧ s.lc.rxc.length = s.params.rxcDepth)) : (s.shiftIn n v).Inv := by
  have htrans : s.cs.state = .transferring := h.sequencer.phase_iff.mp (by simp [hrun])
  obtain ⟨hlegal, -⟩ := h.sequencer.group (.inr htrans)
  obtain ⟨hwidth, hthreshold⟩ := sampleWidth_of_legal hlegal
  obtain rfl : n = s.cs.pinCount.toNat := hn.trans hwidth
  obtain ⟨-, hdvd⟩ := h.sequencer.merging
  have key (l : CaptureLane) (hp : l.phase = .run) (hcnt : l.cnt < 32) (hl : s.cs.pinCount.toNat ∣ l.cnt)
      (hrxc : l.rxc.length ≤ s.params.rxcDepth) : (s.setLc l).Inv :=
    h.setLane (l := l) (c := s.cs) rfl ⟨rfl, rfl⟩ ⟨rfl, rfl, rfl⟩ { h.sequencer with
      phase_iff := by simpa [hp] using htrans
      offClear := fun e => by simp [hp] at e
      waitClear := fun e => by simp [hp] at e
      runSeen := fun _ => h.sequencer.runSeen hrun
      merging := ⟨hcnt, fun _ => hl⟩ } hrxc
  unfold State.shiftIn
  dsimp only
  rw [hthreshold] at hroom ⊢
  have hrxc := h.queues.rxc
  split
  · exact key _ hrun (by simp) (by simp) (by simp; omega)
  · exact key _ hrun (by simp; omega) (Nat.dvd_add (hdvd hrun) dvd_rfl) hrxc

theorem State.Inv.popRxc (h : s.Inv) {w : Word} {rest : List Word} (hrxc : s.lc.rxc = w :: rest) :
    (s.setLc { s.lc with rxc := rest }).Inv := by
  have hne : s.lc.rxc ≠ [] := by simp [hrxc]
  have hlen := h.queues.rxc
  refine h.setLane (l := { s.lc with rxc := rest }) (c := s.cs) rfl ⟨rfl, rfl⟩ ⟨rfl, rfl, rfl⟩ { h.sequencer with
    offClear := fun e => absurd (h.sequencer.offClear e).2.2 hne
    waitClear := fun e => absurd (h.sequencer.waitClear e).2.2.1 hne } ?_
  rw [hrxc, List.length_cons] at hlen
  exact Nat.le_of_succ_le hlen

theorem State.Inv.setIdx (h : s.Inv) {i : Nat} (hle : i ≤ s.cs.cap) (hlt : s.cs.state = .transferring → i < s.cs.cap) :
    (s.setCs { s.cs with idx := i }).Inv :=
  h.setLane (l := s.lc) rfl ⟨rfl, rfl⟩ ⟨rfl, rfl, rfl⟩
    { h.sequencer with progress := hlt, capacity := ⟨hle, h.sequencer.capacity.2⟩ } h.queues.rxc

/-! ## Effects on the frame queue and the report queue -/

theorem State.Inv.setQueues (h : s.Inv) (rxd : List Word) (rpt : List Report) (pending ovf : Bool)
    (hrxd : rxd.length ≤ s.params.rxdDepth) (hidle : s.dec.active = false → rxd = [])
    (hpending : pending = true → s.nt.en = true) (hrpt : rpt.length ≤ s.params.reportDepth)
    (hreports : ∀ r ∈ rpt, decodeFrame s.params r.raw = (r.code, r.fields)) :
    ((s.setDec { s.dec with rxd := rxd }).setNt { s.nt with pending := pending, rpt := rpt, ovf := ovf }).Inv where
  params := h.params
  pools := { h.pools with }
  sequencer := { h.sequencer with }
  decoder := { h.decoder with idleEmpty := hidle, pending := hpending }
  pins := { h.pins with }
  queues := { h.queues with rxd := hrxd, rpt := hrpt }
  buffers := { h.buffers with }
  reports := hreports
  registers := { h.registers with }

theorem State.Inv.pushFrame (h : s.Inv) (f : Word) (hon : s.dec.active = true)
    (hroom : s.dec.rxd.length < s.params.rxdDepth) : (s.setDec { s.dec with rxd := s.dec.rxd ++ [f] }).Inv :=
  h.setQueues (s.dec.rxd ++ [f]) s.nt.rpt s.nt.pending s.nt.ovf (by simpa using hroom) (by simp [hon]) h.decoder.pending h.queues.rpt h.reports

/-- The rest of the frame queue meets what the invariant asks of it. -/
theorem State.Inv.rxd_tail (h : s.Inv) {r : Word} {rest : List Word} (hrxd : s.dec.rxd = r :: rest) :
    rest.length ≤ s.params.rxdDepth ∧ (s.dec.active = false → rest = []) := by
  have hlen := h.queues.rxd
  rw [hrxd, List.length_cons] at hlen
  exact ⟨Nat.le_of_succ_le hlen, fun hoff => by simpa [hrxd] using h.decoder.idleEmpty hoff⟩

theorem State.Inv.popFrame (h : s.Inv) {r : Word} {rest : List Word} (hrxd : s.dec.rxd = r :: rest) :
    (s.setDec { s.dec with rxd := rest }).Inv :=
  h.setQueues rest s.nt.rpt s.nt.pending s.nt.ovf (h.rxd_tail hrxd).1 (h.rxd_tail hrxd).2 h.decoder.pending h.queues.rpt h.reports

theorem State.Inv.setPending (h : s.Inv) (pending : Bool) (hen : s.nt.en = true) :
    (s.setNt { s.nt with pending := pending }).Inv :=
  h.setQueues s.dec.rxd s.nt.rpt pending s.nt.ovf h.queues.rxd h.decoder.idleEmpty (fun _ => hen) h.queues.rpt h.reports

theorem State.Inv.popReport (h : s.Inv) {rep : Report} {rest : List Report} (hrpt : s.nt.rpt = rep :: rest) :
    (s.setNt { s.nt with rpt := rest }).Inv := by
  have hlen := h.queues.rpt
  rw [hrpt, List.length_cons] at hlen
  exact h.setQueues s.dec.rxd rest s.nt.pending s.nt.ovf h.queues.rxd h.decoder.idleEmpty h.decoder.pending
    (Nat.le_of_succ_le hlen) fun r hr => h.reports r (by simp [hrpt, hr])

theorem State.Inv.handleReport (h : s.Inv) {r : Word} {rest : List Word} (hrxd : s.dec.rxd = r :: rest)
    (hroom : s.nt.rpt.length < s.params.reportDepth) :
    ((s.setDec { s.dec with rxd := rest }).setNt { s.nt with
      pending := false
      rpt := s.nt.rpt ++ [{ raw := r, code := (decodeFrame s.params r).1, fields := (decodeFrame s.params r).2 }] }).Inv := by
  refine h.setQueues rest _ false s.nt.ovf (h.rxd_tail hrxd).1 (h.rxd_tail hrxd).2 (by simp) (by simpa using hroom) ?_
  intro rep hrep
  rcases List.mem_append.mp hrep with hold | hnew
  · exact h.reports rep hold
  · obtain rfl := List.mem_singleton.mp hnew; rfl

theorem State.Inv.handleOverflow (h : s.Inv) {r : Word} {rest : List Word} (hrxd : s.dec.rxd = r :: rest) :
    ((s.setDec { s.dec with rxd := rest }).setNt { s.nt with pending := false, ovf := true }).Inv :=
  h.setQueues rest _ false true (h.rxd_tail hrxd).1 (h.rxd_tail hrxd).2 (by simp) h.queues.rpt h.reports

end

end Sys2Proof.Machine

/-! The invariant of the block under the commands that open and close a session or the notification binding. -/

namespace Sys2Proof.Machine

/-! ## The parts of the invariant that a claim or a release moves -/

section
variable {s : State}

theorem State.poolsExact_of_each {t : State}
    (hlane : PoolExact t.params.nLanes t.params.extHeldLane t.held.lane [t.cs.lane, t.dec.lane])
    (hprog : PoolExact t.params.nProgSlots t.params.extHeldProg t.held.prog [t.cs.prog, t.dec.prog])
    (hxfer : PoolExact t.params.nXfer t.params.extHeldXfer t.held.xfer [t.cs.xfer])
    (hirq : PoolExact t.params.nIrq t.params.extHeldIrq t.held.irq [t.nt.line]) : t.PoolsExact :=
  t.poolsExact_iff.mpr fun
    | .lane => hlane
    | .prog => hprog
    | .xfer => hxfer
    | .irq => hirq

theorem State.PoolsExact.lane (h : s.PoolsExact) :
    PoolExact s.params.nLanes s.params.extHeldLane s.held.lane [s.cs.lane, s.dec.lane] := s.poolsExact_iff.mp h .lane

theorem State.PoolsExact.prog (h : s.PoolsExact) :
    PoolExact s.params.nProgSlots s.params.extHeldProg s.held.prog [s.cs.prog, s.dec.prog] := s.poolsExact_iff.mp h .prog

theorem State.PoolsExact.xfer (h : s.PoolsExact) :
    PoolExact s.params.nXfer s.params.extHeldXfer s.held.xfer [s.cs.xfer] := s.poolsExact_iff.mp h .xfer

theorem State.PoolsExact.irq (h : s.PoolsExact) :
    PoolExact s.params.nIrq s.params.extHeldIrq s.held.irq [s.nt.line] := s.poolsExact_iff.mp h .irq

theorem none_of_not_isSome {α : Type} {o : Option α} {P : Prop} (h : o.isSome ↔ P) (hP : ¬ P) : o = none := by
  cases o with
  | none => rfl
  | some a => exact absurd (h.mp rfl) hP

/-- Outside a capture in flight, with the lane off and clear, no more than the session's own facts are left to show. -/
theorem State.sequencerExact_of_laneOff {t : State} (hlc : t.lc = { phase := .off, isr := 0, cnt := 0, rxc := [] })
    (hstate : t.cs.state = .idle ∨ t.cs.state = .configuring ∨ t.cs.state = .released)
    (hlane : t.cs.lane.isSome ↔ t.inSession) (hprog : t.cs.prog.isSome ↔ t.inSession) (hxfer : t.cs.xfer = none)
    (hgroup : t.inSession →
      pinCountLegal t.cs.pinCount.toNat = true ∧ t.cs.pinBase.toNat + t.cs.pinCount.toNat ≤ t.params.nPins)
    (hcapacity : t.cs.idx ≤ t.cs.cap ∧ t.cs.cap ≤ t.params.capbufWords) : t.SequencerExact := by
  have hnot : t.cs.state ≠ .transferring := fun e => by simp [e] at hstate
  exact
    { notTransient := ⟨fun e => by simp [e] at hstate, fun e => by simp [e] at hstate⟩
      lane_iff := hlane
      prog_iff := hprog
      xfer_iff := by simp [hxfer, hnot]
      phase_iff := by simp [hlc, hnot]
      offClear := by simp [hlc]
      waitClear := by simp [hlc]
      runSeen := by simp [hlc]
      merging := by simp [hlc]
      group := hgroup
      trigger := fun e => absurd e hnot
      progress := fun e => absurd e hnot
      capacity := hcapacity }

theorem pinCountLegal_range {n : Nat} (h : pinCountLegal n = true) : 1 ≤ n ∧ n ≤ 32 := by
  simp only [pinCountLegal, Bool.or_eq_true, decide_eq_true_eq] at h
  omega

theorem Params.nPins_le {p : Params} (h : p.wf = true) : p.nPins ≤ 32 := by
  simp only [Params.wf, Bool.and_eq_true, decide_eq_true_eq] at h
  tauto

/-- The pins that have an owner after an assignment of it. -/
theorem assignPins_eq_self_iff (m : Vector PinOwner 32) (base n : Nat) (o : PinOwner) (q : Fin 32) :
    (assignPins m base n o)[q] = o ↔ (base ≤ q.val ∧ q.val < base + n) ∨ m[q] = o := by
  rw [Fin.getElem_fin, getElem_assignPins]
  split <;> simp_all

/-- The pins that have another owner after an assignment. -/
theorem assignPins_eq_iff (m : Vector PinOwner 32) (base n : Nat) {o o' : PinOwner} (hne : o' ≠ o) (q : Fin 32) :
    (assignPins m base n o)[q] = o' ↔ ¬ (base ≤ q.val ∧ q.val < base + n) ∧ m[q] = o' := by
  rw [Fin.getElem_fin, getElem_assignPins]
  split <;> simp_all [hne.symm]

@[simp] theorem State.claim_held (s : State) (pool : Pool) (i : Nat) :
    (s.claim pool i).held = s.held.set pool (insertIndex (s.heldIn pool) i) := rfl

/-! ## The capture session -/

theorem State.configureCapture_eq (s : State) (base n l p : Nat) (dv : Word) :
    s.configureCapture base n l p dv = State.plainResult
      { s with
        held := { s.held with lane := insertIndex s.held.lane l, prog := insertIndex s.held.prog p }
        pinOwner := assignPins s.pinOwner base n .capture
        pad := assignPins s.pad base n .captureInput
        cs := { s.cs with
          state := .configuring, lane := some l, prog := some p, pinBase := BitVec.ofNat 5 base
          pinCount := BitVec.ofNat 6 n, div := dv }
        lc := { phase := .off, isr := 0, cnt := 0, rxc := [] } } opcCfgCapture .ok := by
  apply State.ext
  case held => simp [State.configureCapture, Held.set, State.heldIn]
  all_goals simp [State.configureCapture]

theorem State.Inv.configureCapture (h : s.Inv) {base n l p : Nat} (dv : Word) (hn : pinCountLegal n = true)
    (hpins : base + n ≤ s.params.nPins) (hidle : s.cs.state = .idle ∨ s.cs.state = .released)
    (howned : s.anyOwned base n = false) (hl : s.freeIndex .lane = some l) (hp : s.freeIndex .prog = some p) :
    (s.configureCapture base n l p dv).Inv := by
  have hout : ¬ s.inSession := by rcases hidle with e | e <;> simp [State.inSession, e]
  have htrans : s.cs.state ≠ .transferring := fun e => hout (.inr e)
  have hrange := pinCountLegal_range hn
  have hnPins := Params.nPins_le h.params
  have hbase : (BitVec.ofNat 5 base).toNat = base := by simp; omega
  have hcount : (BitVec.ofNat 6 n).toNat = n := by simp; omega
  have hlane := h.pools.lane
  have hprog := h.pools.prog
  rw [none_of_not_isSome h.sequencer.lane_iff hout] at hlane
  rw [none_of_not_isSome h.sequencer.prog_iff hout] at hprog
  rw [State.configureCapture_eq]
  apply State.Inv.plainResult
  exact
    { params := h.params
      pools := State.poolsExact_of_each (hlane.claim (s.freeIndex_some _ _ hl)) (hprog.claim (s.freeIndex_some _ _ hp))
        h.pools.xfer h.pools.irq
      sequencer := State.sequencerExact_of_laneOff rfl (.inr (.inl rfl)) (by simp [State.inSession])
        (by simp [State.inSession]) (none_of_not_isSome h.sequencer.xfer_iff htrans)
        (fun _ => by simpa only [hbase, hcount] using ⟨hn, hpins⟩) h.sequencer.capacity
      decoder := { h.decoder with }
      pins :=
        { capture := fun q => by
            have hnot : s.pinOwner[q] ≠ .capture := fun e => hout ((h.pins.capture q).mp e).1
            simp only [assignPins_eq_self_iff, hnot, or_false, State.inSession, hbase, hcount, true_or, true_and]
          decoder := fun q => by
            have hfree := (s.anyOwned_eq_false base n).mp howned q
            rw [assignPins_eq_iff _ _ _ (by simp), ← h.pins.decoder q]
            refine and_iff_right_of_imp fun hdec hin => ?_
            rw [hfree hin.1 hin.2] at hdec
            cases hdec }
      queues := { h.queues with rxc := Nat.zero_le _ }
      buffers := { h.buffers with }
      reports := h.reports
      registers := { h.registers with } }

theorem State.releaseSession_enter_eq (s : State) (c : CsState) :
    s.releaseSession.enter c =
      { s with
        held := { s.held with
          xfer := dropHandle s.held.xfer s.cs.xfer
          lane := dropHandle s.held.lane s.cs.lane
          prog := dropHandle s.held.prog s.cs.prog }
        pinOwner := assignPins s.pinOwner s.cs.pinBase.toNat s.cs.pinCount.toNat .none
        cs := { s.cs with state := c, xfer := none, lane := none, prog := none }
        lc := { phase := .off, isr := 0, cnt := 0, rxc := [] } } := by
  apply State.ext
  case held =>
    simp only [State.releaseSession, State.release_eq_setHeld]
    rfl
  all_goals simp

/-- A session ends: its handles and pins go back, and the sequencer rests. -/
theorem State.Inv.endSession (h : s.Inv) (hin : s.inSession) {c : CsState} (hc : c = .idle ∨ c = .released) :
    (s.releaseSession.enter c).Inv := by
  have hout : c ≠ .configuring ∧ c ≠ .transferring := by rcases hc with rfl | rfl <;> simp
  rw [State.releaseSession_enter_eq]
  exact
    { params := h.params
      pools := State.poolsExact_of_each h.pools.lane.release h.pools.prog.release h.pools.xfer.release h.pools.irq
      sequencer := State.sequencerExact_of_laneOff rfl (hc.imp_right .inr) (by simp [State.inSession, hout])
        (by simp [State.inSession, hout]) rfl (by simp [State.inSession, hout]) h.sequencer.capacity
      decoder := { h.decoder with }
      pins :=
        { capture := fun q => by
            simp only [assignPins_eq_iff _ _ _ (show PinOwner.capture ≠ .none by simp), h.pins.capture q, hin,
              State.inSession, hout, or_self, true_and, false_and, not_and_self]
          decoder := fun q => by
            rw [assignPins_eq_iff _ _ _ (by simp), ← h.pins.decoder q]
            refine and_iff_right_of_imp fun hdec hown => ?_
            rw [(h.pins.capture q).mpr ⟨hin, hown⟩] at hdec
            cases hdec }
      queues := { h.queues with rxc := Nat.zero_le _ }
      buffers := { h.buffers with }
      reports := h.reports
      registers := { h.registers with } }

theorem State.laneOff_startCapture_eq (s : State) (cap tp x : Nat) (pol : Bool) :
    s.laneOff.startCapture cap tp x pol = State.plainResult
      { s with
        held := { s.held with xfer := insertIndex s.held.xfer x }
        cs := { s.cs with
          state := .transferring, xfer := some x, cap := cap, idx := 0, trigPin := BitVec.ofNat 5 tp, trigPol := pol
          trigSeen := false }
        lc := { phase := .wait, isr := 0, cnt := 0, rxc := [] }
        buf := { s.buf with valid := false } } opcRunCapture .ok := by
  apply State.ext
  case held => simp [State.startCapture, Held.set, State.heldIn]
  all_goals simp [State.startCapture]

theorem State.Inv.startCapture (h : s.Inv) {cap tp x : Nat} (pol : Bool) (hconf : s.cs.state = .configuring)
    (hcap : 1 ≤ cap) (hfit : cap ≤ s.params.capbufWords) (htp : tp < s.params.nPins) (hx : s.freeIndex .xfer = some x) :
    (s.laneOff.startCapture cap tp x pol).Inv := by
  have hnPins := Params.nPins_le h.params
  have hpin : (BitVec.ofNat 5 tp).toNat = tp := by simp; omega
  have hxfer := h.pools.xfer
  rw [none_of_not_isSome h.sequencer.xfer_iff (by simp [hconf])] at hxfer
  rw [State.laneOff_startCapture_eq]
  apply State.Inv.plainResult
  exact
    { params := h.params
      pools := State.poolsExact_of_each h.pools.lane h.pools.prog (hxfer.claim (s.freeIndex_some _ _ hx)) h.pools.irq
      sequencer :=
        { notTransient := by simp
          lane_iff := by simpa [State.inSession, hconf] using h.sequencer.lane_iff
          prog_iff := by simpa [State.inSession, hconf] using h.sequencer.prog_iff
          xfer_iff := by simp
          phase_iff := by simp
          offClear := by simp
          waitClear := by simp
          runSeen := by simp
          merging := by simp
          group := fun _ => h.sequencer.group (.inl hconf)
          trigger := fun _ => by simpa only [hpin] using htp
          progress := fun _ => hcap
          capacity := ⟨Nat.zero_le _, hfit⟩ }
      decoder := { h.decoder with }
      pins :=
        { capture := fun q => by simpa [State.inSession, hconf] using h.pins.capture q
          decoder := h.pins.decoder }
      queues := { h.queues with rxc := Nat.zero_le _ }
      buffers := { h.invalidateBuf.buffers with }
      reports := h.reports
      registers := { h.registers with } }

/-- Complete() with the words counted: the session ends, and the buffer holds the capture (41_capture R171). -/
theorem State.complete_setIdx (s : State) (i : Nat) : (s.setCs { s.cs with idx := i }).complete =
    (((s.releaseSession.enter .released).setCs { (s.releaseSession.enter .released).cs with idx := i }).setBuf
      { valid := true, words := s.cs.cap, pinCount := s.cs.pinCount }).putResult
        opcRunCapture .ok {} (BitVec.ofNat 32 s.cs.cap) 0 := by
  unfold State.complete State.releaseSession
  simp only [State.release_eq_setHeld]
  rfl

/-- The last move: the count reaches the capacity, where no session may stand, in the step that ends the session. -/
theorem State.Inv.complete (h : s.Inv) (htrans : s.cs.state = .transferring) :
    (s.setCs { s.cs with idx := s.cs.cap }).complete.Inv := by
  have hidx := h.sequencer.progress htrans
  have hend : (s.releaseSession.enter .released).Inv := h.endSession (.inr htrans) (.inr rfl)
  rw [State.complete_setIdx]
  refine State.Inv.putResult (State.Inv.setBuf (hend.setIdx ?_ ?_) (fun _ => ⟨?_, ?_⟩) ?_) _ _ _ _ _ rfl
  · simp
  · simp
  · show 1 ≤ s.cs.cap; omega
  · exact (h.sequencer.group (.inr htrans)).1
  · simpa using h.sequencer.capacity.2

/-! ## The decoder session -/

theorem State.startDecoder_eq (s : State) (pin l p : Nat) : s.startDecoder pin l p = State.plainResult
    { s with
      held := { s.held with lane := insertIndex s.held.lane l, prog := insertIndex s.held.prog p }
      pinOwner := assignPins s.pinOwner pin 1 .decoder
      pad := assignPins s.pad pin 1 .decoderInput
      dec := { active := true, pin := BitVec.ofNat 5 pin, lane := some l, prog := some p, rxd := [] } }
    opcInitDecoder .ok := rfl

theorem State.Inv.startDecoder (h : s.Inv) {pin l p : Nat} (hpin : pin < s.params.nPins) (hoff : s.dec.active = false)
    (howned : s.anyOwned pin 1 = false) (hl : s.freeIndex .lane = some l) (hp : s.freeIndex .prog = some p) :
    (s.startDecoder pin l p).Inv := by
  have hnot : ¬ s.dec.active = true := by simp [hoff]
  have hnPins := Params.nPins_le h.params
  have hbits : (BitVec.ofNat 5 pin).toNat = pin := by simp; omega
  have hlane := h.pools.lane
  have hprog := h.pools.prog
  rw [none_of_not_isSome h.decoder.lane_iff hnot] at hlane
  rw [none_of_not_isSome h.decoder.prog_iff hnot] at hprog
  rw [State.startDecoder_eq]
  apply State.Inv.plainResult
  exact
    { params := h.params
      pools := State.poolsExact_of_each (hlane.swap.claim (s.freeIndex_some _ _ hl)).swap
        (hprog.swap.claim (s.freeIndex_some _ _ hp)).swap h.pools.xfer h.pools.irq
      sequencer := { h.sequencer with }
      decoder := { h.decoder with
        lane_iff := by simp
        prog_iff := by simp
        pin := fun _ => by simpa only [hbits] using hpin
        idleEmpty := fun _ => rfl
        binding := fun _ => rfl }
      pins :=
        { capture := fun q => by
            have hfree := (s.anyOwned_eq_false pin 1).mp howned q
            rw [assignPins_eq_iff _ _ _ (by simp)]
            refine Iff.trans (and_iff_right_of_imp fun hcap hin => ?_) (h.pins.capture q)
            rw [hfree hin.1 hin.2] at hcap
            cases hcap
          decoder := fun q => by
            have hnone : s.pinOwner[q] ≠ .decoder := fun e => hnot ((h.pins.decoder q).mp e).1
            simp only [assignPins_eq_self_iff, hnone, or_false, hbits, true_and]
            omega }
      queues := { h.queues with rxd := Nat.zero_le _ }
      buffers := { h.buffers with }
      reports := h.reports
      registers := { h.registers with } }

theorem State.stopDecoder_eq (s : State) : s.stopDecoder = State.plainResult
    { s with
      held := { s.held with
        lane := dropHandle s.held.lane s.dec.lane
        prog := dropHandle s.held.prog s.dec.prog }
      pinOwner := assignPins s.pinOwner s.dec.pin.toNat 1 .none
      dec := { s.dec with active := false, lane := none, prog := none, rxd := [] } } opcDeinitDecoder .ok := by
  unfold State.stopDecoder
  simp only [State.release_eq_setHeld]
  rfl

theorem State.Inv.stopDecoder (h : s.Inv) (hon : s.dec.active = true) (hen : s.nt.en = false) : s.stopDecoder.Inv := by
  rw [State.stopDecoder_eq]
  apply State.Inv.plainResult
  exact
    { params := h.params
      pools := State.poolsExact_of_each h.pools.lane.swap.release.swap h.pools.prog.swap.release.swap h.pools.xfer
        h.pools.irq
      sequencer := { h.sequencer with }
      decoder := { h.decoder with
        lane_iff := by simp
        prog_iff := by simp
        pin := by simp
        idleEmpty := fun _ => rfl
        binding := by simp [hen] }
      pins :=
        { capture := fun q => by
            rw [assignPins_eq_iff _ _ _ (by simp)]
            refine Iff.trans (and_iff_right_of_imp fun hcap hin => ?_) (h.pins.capture q)
            rw [(h.pins.decoder q).mpr ⟨hon, by omega⟩] at hcap
            cases hcap
          decoder := fun q => by
            simp only [assignPins_eq_iff _ _ _ (show PinOwner.decoder ≠ .none by simp), h.pins.decoder q,
              Bool.false_eq_true, false_and, iff_false]
            omega }
      queues := { h.queues with rxd := Nat.zero_le _ }
      buffers := { h.buffers with }
      reports := h.reports
      registers := { h.registers with } }

/-! ## The notification binding -/

theorem State.Inv.notifyOn (h : s.Inv) {x : Nat} (hon : s.dec.active = true) (hen : s.nt.en = false)
    (hx : s.freeIndex .irq = some x) :
    ((s.claim .irq x).setNt { s.nt with line := some x, pending := false, en := true }).Inv := by
  have hirq := h.pools.irq
  rw [none_of_not_isSome h.decoder.line_iff (by simp [hen])] at hirq
  exact
    { params := h.params
      pools := State.poolsExact_of_each h.pools.lane h.pools.prog h.pools.xfer (hirq.claim (s.freeIndex_some _ _ hx))
      sequencer := { h.sequencer with }
      decoder := { h.decoder with
        binding := fun _ => hon
        line_iff := by simp
        pending := by simp }
      pins := { h.pins with }
      queues := { h.queues with }
      buffers := { h.buffers with }
      reports := h.reports
      registers := { h.registers with } }

theorem State.Inv.notifyOff (h : s.Inv) :
    ((s.release .irq s.nt.line).setNt
      { (s.release .irq s.nt.line).nt with en := false, pending := false, line := none }).Inv := by
  rw [State.release_eq_setHeld]
  exact
    { params := h.params
      pools := State.poolsExact_of_each h.pools.lane h.pools.prog h.pools.xfer h.pools.irq.release
      sequencer := { h.sequencer with }
      decoder := { h.decoder with
        binding := by simp
        line_iff := by simp
        pending := by simp }
      pins := { h.pins with }
      queues := { h.queues with }
      buffers := { h.buffers with }
      reports := h.reports
      registers := { h.registers with } }

end

end Sys2Proof.Machine

/-! The invariant of the block is kept by every step. -/

namespace Sys2Proof.Machine

theorem State.Inv.completes {s t : State} {i : Instr} (h : s.Inv) (hdone : s.Completes i t) : t.Inv := by
  cases hdone with
  | result code flags d0 d1 hopc hd1 => exact h.putResult _ code flags d0 d1 hd1
  | configure l p hn hpins hidle howned hl hp => exact h.configureCapture s.arg0 hn hpins hidle howned hl hp
  | unwind hconf => exact (h.endSession (.inl hconf) (.inl rfl)).plainResult _ _
  | start x hconf hcap hfit htp hx => exact h.startCapture _ hconf hcap hfit htp hx
  | release hconf => exact (h.endSession (.inl hconf) (.inl rfl)).plainResult _ _
  | @reconstruct n hn hN hfit =>
    have hcount : (BitVec.ofNat 6 n).toNat = n := by
      have := pinCountLegal_range hn
      simp; omega
    have hplanes := h.planeFill (planeWord s.capRead n s.argCount) s.argCount
    exact (hplanes.setPlane hN (by simpa using hfit) (by simpa only [hcount] using hn)).putResult _ _ _ _ _ rfl
  | startDecoder l p hpin hoff howned hl hp => exact h.startDecoder hpin hoff howned hl hp
  | stopDecoder hon hen => exact h.stopDecoder hon hen
  | pollFrame r rest hon hrxd => exact (h.popFrame hrxd).putResult _ _ _ _ _ rfl
  | notifyOn x hon hen hx => exact (h.notifyOn hon hen hx).plainResult _ _
  | notifyOff hen => exact h.notifyOff.plainResult _ _
  | popReport rep rest hrpt =>
    have hfields : rep.fields = (decodeFrame s.params rep.raw).2 := by rw [h.reports rep (by simp [hrpt])]
    exact (h.popReport hrpt).putResult _ _ _ _ _ (hfields ▸ decodeFrame_reserved _ _)

/-- The state of 70_reset_and_hazards R300 meets the invariant whatever the parameters in their ranges and the draws. -/
theorem State.cleanEntry_inv {p : Params} (hp : p.wf = true) (draws : List Host.Cell) :
    (State.cleanEntry p draws).Inv := by
  exact
    { params := hp
      pools := State.poolsExact_of_each (.empty 2) (.empty 2) (.empty 1) (.empty 1)
      sequencer := State.sequencerExact_of_laneOff rfl (.inl rfl) (by simp [State.cleanEntry, State.inSession])
        (by simp [State.cleanEntry, State.inSession]) rfl (by simp [State.cleanEntry, State.inSession])
        ⟨le_rfl, Nat.zero_le _⟩
      decoder := by constructor <;> simp [State.cleanEntry]
      pins := by constructor <;> simp [State.cleanEntry, State.inSession]
      queues := by constructor <;> simp [State.cleanEntry]
      buffers := by constructor <;> simp [State.cleanEntry, Mem.wf_ofDraws]
      reports := by simp [State.ReportsExact, State.cleanEntry]
      registers := by constructor <;> simp [State.cleanEntry] }

theorem State.Inv.resetStep {s : State} (h : s.Inv) (draws : List Host.Cell) : (s.resetStep draws).Inv :=
  have hclean := State.cleanEntry_inv h.params draws
  hclean.withRegisters rfl { hclean.registers with }

theorem State.Inv.event {s t : State} {e : Event} (h : s.Inv) (heff : s.EventEffect e t) : t.Inv := by
  cases heff with
  | idle => exact h
  | read a w => exact h.setReadData w
  | readFault a k => exact (h.raise k).setReadData 0
  | writeFault a k => exact h.raise k
  | writeArg0 a hw hloc => exact h.setArg0 a.data
  | writeCap a i hbusy =>
    have hwrite := (h.capWrite i a.data).invalidateBuf
    rwa [State.capWrite_buf] at hwrite
  | command a i t hw hloc hdec hready hdone => exact h.completes hdone
  | levels l => exact h.setPins l
  | trigger l hwait => exact (h.setPins l).trigger hwait
  | sample l n hrun hn hroom => exact (h.setPins l).shiftIn hrun _ hn hroom
  | move w rest htrans hrxc hmore =>
    have hwrite := (h.popRxc hrxc).capWrite s.cs.idx w
    have hidx := hwrite.setIdx (i := s.cs.idx + 1) (by simpa using hmore.le) (by simpa using fun _ => hmore)
    simpa using hidx
  | finish w rest htrans hrxc hlast =>
    have hwrite := (h.popRxc hrxc).capWrite s.cs.idx w
    have hdone := hwrite.complete (by simpa using htrans)
    simpa [hlast] using hdone
  | frame f hon hroom => exact h.pushFrame f hon hroom
  | latch hen => exact h.setPending true hen
  | handleEmpty hen => exact h.setPending false hen
  | handleReport r rest hrxd hen hroom => exact h.handleReport hrxd hroom
  | handleOverflow r rest hrxd hen => exact h.handleOverflow hrxd
  | reset draws => exact h.resetStep draws

/-- Settles O13: the choice of the event moves the schedule alone, and each effect of an event keeps the invariant. -/
theorem invariantKept : Obligations.InvariantKept := fun _ _ h hstep => h.takeEvent.event (State.step_effect hstep)

end Sys2Proof.Machine

/-! The accesses of the host port: where a mapped access lands, and what reads and writes of the registers and the windows
do. -/

namespace Sys2Proof.Machine

theorem Params.capbufWords_le {p : Params} (h : p.wf = true) : p.capbufWords ≤ 1024 := by
  simp only [Params.wf, Bool.and_eq_true, decide_eq_true_eq] at h
  tauto

/-! ## The location of an access (10_state R22) -/

/-- A whole word at a register's offset reaches the register. -/
theorem Access.location_of_register (p : Params) {a : Access} {r : Register} (hsize : a.size = 4)
    (hoff : a.offset = registerOffset r) : a.location p = some (.register r) := by
  unfold Access.location
  rw [hsize, hoff]
  cases r <;> rfl

/-- The accesses that reach a capture word. -/
theorem Access.location_eq_capbuf_iff (p : Params) (a : Access) (i : Nat) :
    a.location p = some (.capbuf i) ↔
      a.size = 4 ∧ a.offset.toNat = capOffset i ∧ i < p.capbufWords ∧ i < 1024 := by
  unfold Access.location locationAt capOffset
  generalize a.offset.toNat = off
  split_ifs <;> simp_all <;> omega

theorem Access.location_capbuf {p : Params} {a : Access} {i : Nat} (hp : p.wf = true) (hi : i < p.capbufWords)
    (hsize : a.size = 4) (hoff : a.offset = BitVec.ofNat 32 (0x1000 + 4 * i)) : a.location p = some (.capbuf i) := by
  have hlt := hi.trans_le (Params.capbufWords_le hp)
  refine (Access.location_eq_capbuf_iff p a i).mpr ⟨hsize, ?_, hi, hlt⟩
  rw [hoff, BitVec.toNat_ofNat, Nat.mod_eq_of_lt (by omega), capOffset]

theorem Access.location_planebuf {p : Params} {a : Access} {i : Nat} (hp : p.wf = true) (hi : i < p.capbufWords)
    (hsize : a.size = 4) (hoff : a.offset = BitVec.ofNat 32 (0x2000 + 4 * i)) : a.location p = some (.planebuf i) := by
  have hlt := hi.trans_le (Params.capbufWords_le hp)
  have hoff : a.offset.toNat = 0x2000 + 4 * i := by rw [hoff, BitVec.toNat_ofNat, Nat.mod_eq_of_lt (by omega)]
  have hloc : locationAt p.capbufWords (0x2000 + 4 * i) = some (.planebuf i) := by
    simp [locationAt, hi, show ¬ 0x2000 + 4 * i < 0x1000 by omega, show 0x2000 + 4 * i < 0x3000 by omega]
  rw [Access.location, hoff, hloc, if_pos (by simp [hsize])]

/-! ## What an access does -/

theorem runEvent_read (s : State) {a : Access} (h : a.kind = .read) : runEvent (.host a) s = .next (s.hostRead a) := by
  simp [runEvent, State.hostStep, h]

theorem runEvent_write (s : State) {a : Access} (h : a.kind = .write) : runEvent (.host a) s = s.hostWrite a := by
  simp [runEvent, State.hostStep, h]

section
variable (s : State) {a : Access}

theorem State.hostRead_of_unmapped (h : a.location s.params = none) :
    s.hostRead a = (s.raise .busError).setReadData 0 := by simp [State.hostRead, h]

theorem State.hostRead_register {r : Register} (h : a.location s.params = some (.register r)) :
    s.hostRead a = s.setReadData (s.readRegister r) := by simp [State.hostRead, h]

theorem State.hostRead_planebuf {i : Nat} (h : a.location s.params = some (.planebuf i)) :
    s.hostRead a = s.setReadData (s.planeRead i) := by simp [State.hostRead, h]

theorem State.hostRead_capbuf {i : Nat} (h : a.location s.params = some (.capbuf i)) :
    s.hostRead a = if s.busy then (s.raise .busyViolation).setReadData 0 else s.setReadData (s.capRead i) := by
  simp [State.hostRead, h]

theorem State.hostWrite_of_fault (hf : s.fault = true) : s.hostWrite a = .next s := if_pos hf

theorem State.hostWrite_of_unmapped (hf : s.fault = false) (h : a.location s.params = none) :
    s.hostWrite a = .next (s.raise .busError) := by simp [State.hostWrite, hf, h]

/-- The read-only registers and PLANEBUF (20_memory R74, R76), and what lies unmapped among them. -/
theorem State.hostWrite_of_readOnly (hf : s.fault = false)
    (h : (0x008 ≤ a.offset.toNat ∧ a.offset.toNat < 0x030) ∨ (0x2000 ≤ a.offset.toNat ∧ a.offset.toNat < 0x3000)) :
    s.hostWrite a = .next (s.raise .busError) := by
  unfold State.hostWrite
  rw [if_neg (by simp [hf])]
  split
  case h_2 hloc => simp [(Access.location_register hloc).2, registerOffset] at h
  case h_3 hloc => simp [(Access.location_register hloc).2, registerOffset] at h
  case h_5 i hloc =>
    obtain ⟨-, hoff, -, hi⟩ := (Access.location_eq_capbuf_iff _ _ _).mp hloc
    simp only [capOffset] at hoff
    omega
  all_goals rfl

theorem State.hostWrite_arg0 (hf : s.fault = false) (h : a.location s.params = some (.register .arg0)) :
    s.hostWrite a = .next (s.setArg0 a.data) := by simp [State.hostWrite, hf, h]

theorem State.hostWrite_cmd (hf : s.fault = false) (h : a.location s.params = some (.register .cmd)) :
    s.hostWrite a = s.issueCommand a.data := by simp [State.hostWrite, hf, h]

theorem State.hostWrite_capbuf (hf : s.fault = false) {i : Nat} (h : a.location s.params = some (.capbuf i)) :
    s.hostWrite a = .next (if s.busy then s.raise .busyViolation
      else (s.capWrite i a.data).setBuf { s.buf with valid := false }) := by
  cases hb : s.busy <;> simp [State.hostWrite, hf, h, hb]

end

/-- Settles O55: each clause names the location of its accesses, and the port's answer there. -/
theorem hostBusErrors : Obligations.HostBusErrors := by
  intro s a hfault _
  dsimp only
  refine ⟨fun hk hun => ?_, fun hk h => ?_, fun hk hmap hoff => ?_, fun hk hmap hoff => ?_⟩
  · rw [runEvent_read s hk, s.hostRead_of_unmapped (Access.location_eq_none _ _ hun), State.raise_of_clear _ _ hfault]
    rfl
  · have hbus : s.hostWrite a = .next (s.raise .busError) :=
      h.elim (fun hun => s.hostWrite_of_unmapped hfault (Access.location_eq_none _ _ hun)) (s.hostWrite_of_readOnly hfault)
    rw [runEvent_write s hk, hbus, State.raise_of_clear _ _ hfault]
    rfl
  · have hloc := Access.location_of_register s.params (r := .arg0) (by tauto) (BitVec.eq_of_toNat_eq hoff)
    rw [runEvent_write s hk, s.hostWrite_arg0 hfault hloc]
    rfl
  · have hloc := Access.location_of_register s.params (r := .cmd) (by tauto) (BitVec.eq_of_toNat_eq hoff)
    rw [runEvent_write s hk, s.hostWrite_cmd hfault hloc]

/-- Settles O56: a read of a mapped word writes `readData` alone, and a fault already set is the only thing that keeps a
faulting read from recording its own. -/
theorem hostReads : Obligations.HostReads := by
  intro s d hwf
  dsimp only
  refine ⟨?_, fun i hi => ?_, fun i hi => ?_, fun a hk hfault hun => ?_⟩
  · have hreg (r : Register) :
        runEvent (.host { kind := .read, offset := registerOffset r, size := 4, data := d }) s =
          .next { s with readData := s.readRegister r } := by
      rw [runEvent_read s rfl, s.hostRead_register (Access.location_of_register _ rfl rfl)]
      rfl
    simp only [List.forall_mem_cons]
    exact ⟨hreg .cmd, hreg .arg0, hreg .status, hreg .result, hreg .data0, hreg .data1, hreg .csCfg, hreg .csDiv,
      hreg .csProgress, hreg .decCfg, hreg .bufInfo, hreg .planeInfo, by simp⟩
  · rw [runEvent_read s rfl, s.hostRead_planebuf (Access.location_planebuf hwf hi rfl rfl)]
    rfl
  · rw [runEvent_read s rfl, s.hostRead_capbuf (Access.location_capbuf hwf hi rfl rfl)]
    refine ⟨fun hb => ?_, fun hb hf => ?_, fun hb hf => ?_⟩
    · simp [hb, State.setReadData]
    · rw [if_pos hb, State.raise_of_clear _ _ hf]; rfl
    · rw [if_pos hb, State.raise_of_fault _ _ hf]; rfl
  · rw [runEvent_read s hk, s.hostRead_of_unmapped (Access.location_eq_none _ _ hun), State.raise_of_fault _ _ hfault]
    rfl

/-- A word written leaves every byte outside it. -/
theorem Mem.byte_setWord_of_apart (m : Mem) (w : Word) {a x : Nat} (h : x < a ∨ a + 4 ≤ x) :
    Mem.byte (Mem.setWord m a w) x = Mem.byte m x := by
  rw [Mem.byte_setWord, if_neg (by omega), if_neg (by omega), if_neg (by omega), if_neg (by omega)]

/-- Settles O57: the port's answer at a CAPBUF word, and the bytes that `Mem.setWord` leaves. -/
theorem hostCapbufWrites : Obligations.HostCapbufWrites := by
  intro s i v hwf hi
  dsimp only
  have hcap (hf : s.fault = false) := s.hostWrite_capbuf (a := ⟨.write, BitVec.ofNat 32 (0x1000 + 4 * i), 4, v⟩) hf
    (Access.location_capbuf hwf hi rfl rfl)
  rw [runEvent_write s rfl]
  refine ⟨fun ⟨hf, hb⟩ => ⟨Mem.setWord s.mem (capOffset i) v, ?_, Mem.word_setWord _ _ _,
    fun _ => Mem.byte_setWord_of_apart _ _⟩, fun hf hb => ?_, fun hf => s.hostWrite_of_fault hf⟩
  · rw [hcap hf, if_neg (by simp [hb]), State.capWrite, if_pos hi]; rfl
  · rw [hcap hf, if_pos hb, State.raise_of_clear _ _ hf]; rfl

end Sys2Proof.Machine

/-! The steps of the machine: who writes the two buffers, and how a frame leaves the decoder's queue. -/

namespace Sys2Proof.Machine

section
variable (s : State)

@[simp] theorem State.takeEvent_snd_dec : s.takeEvent.2.dec = s.dec := by rw [State.takeEvent_snd]
@[simp] theorem State.takeEvent_snd_lc : s.takeEvent.2.lc = s.lc := by rw [State.takeEvent_snd]
@[simp] theorem State.takeEvent_snd_nt : s.takeEvent.2.nt = s.nt := by rw [State.takeEvent_snd]
@[simp] theorem State.takeEvent_snd_mem : s.takeEvent.2.mem = s.mem := by rw [State.takeEvent_snd]

/-! A sample leaves the buffers, the decoder and the schedule. -/

@[simp] theorem State.shiftIn_params (n : Nat) (v : Word) : (s.shiftIn n v).params = s.params := by
  obtain ⟨l, e⟩ := s.shiftIn_eq_setLc n v; rw [e, State.setLc_params]
@[simp] theorem State.shiftIn_mem (n : Nat) (v : Word) : (s.shiftIn n v).mem = s.mem := by
  obtain ⟨l, e⟩ := s.shiftIn_eq_setLc n v; rw [e, State.setLc_mem]
@[simp] theorem State.shiftIn_dec (n : Nat) (v : Word) : (s.shiftIn n v).dec = s.dec := by
  obtain ⟨l, e⟩ := s.shiftIn_eq_setLc n v; rw [e, State.setLc_dec]
@[simp] theorem State.shiftIn_sched (n : Nat) (v : Word) : (s.shiftIn n v).sched = s.sched := by
  obtain ⟨l, e⟩ := s.shiftIn_eq_setLc n v; rw [e, State.setLc_sched]

end

/-! ## The buffers (20_memory R70) -/

theorem State.capWrite_setLc (s : State) (l : CaptureLane) (i : Nat) (w : Word) :
    (s.setLc l).capWrite i w = (s.capWrite i w).setLc l := by
  unfold State.capWrite
  rw [State.setLc_params]
  split_ifs <;> rfl

/-- All a command can do to the buffers: RECONSTRUCT fills plane words, up to its word count. -/
theorem State.Completes.mem {s t : State} {i : Instr} (h : s.Completes i t) :
    t.mem = s.mem ∨ ∃ n ws, i = .reconstruct n ∧ s.argCount ≤ s.params.capbufWords ∧
      t.mem = (s.planeFill ws s.argCount).mem := by
  cases h with
  | reconstruct hn hN hfit => exact .inr ⟨_, _, rfl, hfit, rfl⟩
  | _ => exact .inl (by simp [State.configureCapture, State.startCapture, State.startDecoder, State.stopDecoder])

/-- All an event can do to the buffers. -/
inductive State.MemEffect (s : State) : Event → Mem → Prop
  | keep {e : Event} {m : Mem} (hm : m = s.mem) : s.MemEffect e m
  | write (a : Access) (i : Nat) (hw : a.kind = .write) (hloc : a.location s.params = some (.capbuf i)) :
      s.MemEffect (.host a) (s.capWrite i a.data).mem
  | reconstruct (a : Access) (n : Nat) (ws : Nat → Word) (hw : a.kind = .write)
      (hloc : a.location s.params = some (.register .cmd)) (hdec : decodeCommand a.data = .ok (.reconstruct n))
      (hfit : s.argCount ≤ s.params.capbufWords) : s.MemEffect (.host a) (s.planeFill ws s.argCount).mem
  | move (w : Word) (rest : List Word) (hrxc : s.lc.rxc = w :: rest) : s.MemEffect .xfer (s.capWrite s.cs.idx w).mem
  | reset (draws : List Host.Cell) (m : Mem) : s.MemEffect (.reset draws) m

theorem State.issueCommand_memEffect {s t : State} {a : Access} (hw : a.kind = .write)
    (hloc : a.location s.params = some (.register .cmd)) (h : s.issueCommand a.data = .next t) :
    s.MemEffect (.host a) t.mem := by
  rcases s.issueCommand_cases a.data with ⟨-, e⟩ | ⟨-, -, e⟩ | ⟨-, k, e⟩ | ⟨-, i, hdec, e⟩ <;> rw [e] at h
  · obtain rfl := Host.Outcome.next.inj h; exact .keep rfl
  · cases h
  · obtain rfl := Host.Outcome.next.inj h; exact .keep (by simp)
  · have hi : commandOpcode i ≠ none := by rw [decodeCommand_opcode _ _ hdec]; exact Option.some_ne_none _
    rcases exec_command_cases hi h with rfl | ⟨-, k, rfl⟩ | ⟨-, hdone⟩
    · exact .keep rfl
    · exact .keep (by simp)
    · rcases hdone.mem with e | ⟨n, ws, rfl, hfit, e⟩
      · exact .keep e
      · exact e ▸ .reconstruct a n ws hw hloc hdec hfit

theorem State.hostStep_memEffect {s t : State} {a : Access} (h : s.hostStep a = .next t) :
    s.MemEffect (.host a) t.mem := by
  unfold State.hostStep at h
  split at h
  · obtain rfl := Host.Outcome.next.inj h
    rcases s.hostRead_cases a with ⟨w, e⟩ | ⟨k, e⟩ <;> exact .keep (by simp [e])
  · rename_i hw
    rcases s.hostWrite_cases a with ⟨-, e⟩ | ⟨-, k, e⟩ | ⟨-, hloc, e⟩ | ⟨-, hloc, e⟩ | ⟨-, -, i, hloc, e⟩ <;> rw [e] at h
    · obtain rfl := Host.Outcome.next.inj h; exact .keep rfl
    · obtain rfl := Host.Outcome.next.inj h; exact .keep (by simp)
    · exact State.issueCommand_memEffect hw hloc h
    · obtain rfl := Host.Outcome.next.inj h; exact .keep rfl
    · obtain rfl := Host.Outcome.next.inj h; exact .write a i hw hloc

theorem runEvent_memEffect {s t : State} {e : Event} (h : runEvent e s = .next t) : s.MemEffect e t.mem := by
  cases e with
  | host a => exact State.hostStep_memEffect h
  | xfer =>
    cases runEvent_effect h with
    | idle => exact .keep rfl
    | move w rest htrans hrxc hmore => rw [State.capWrite_setLc]; exact .move w rest hrxc
    | finish w rest htrans hrxc hlast => rw [State.complete_mem, State.capWrite_setLc]; exact .move w rest hrxc
  | reset draws => exact .reset draws _
  | _ => cases runEvent_effect h <;> exact .keep (by simp)

/-- Who writes a plane word. -/
theorem State.MemEffect.plane_writer {s t : State} {e : Event} {i : Nat} (h : s.MemEffect e t.mem)
    (hwf : s.params.wf = true) (hne : t.planeRead i ≠ s.planeRead i) :
    (∃ a n, e = .host a ∧ a.kind = .write ∧ a.location s.params = some (.register .cmd) ∧
      decodeCommand a.data = .ok (.reconstruct n) ∧ i < s.argCount) ∨ ∃ draws, e = .reset draws := by
  have hle := Params.capbufWords_le hwf
  unfold State.planeRead at hne
  generalize t.mem = m at h hne
  cases h with
  | keep hm => exact absurd (by rw [hm]) hne
  | write a j hw hloc => exact absurd (s.planeRead_capWrite j i a.data hle) hne
  | reconstruct a n ws hw hloc hdec hfit =>
    refine .inl ⟨a, n, rfl, hw, hloc, hdec, ?_⟩
    by_contra hge
    exact hne ((s.planeRead_planeFill ws _ i hfit).trans (if_neg hge))
  | move w rest hrxc => exact absurd (s.planeRead_capWrite _ i w hle) hne
  | reset draws => exact .inr ⟨draws, rfl⟩

/-- A capture word that a write of a word changes is the word written. -/
theorem State.capRead_capWrite_of_changed (s : State) {i j : Nat} {w : Word} (hi : i < s.params.capbufWords)
    (hne : (s.capWrite j w).capRead i ≠ s.capRead i) : i = j ∧ (s.capWrite j w).capRead i = w := by
  obtain rfl : i = j := by
    by_contra hij
    exact hne (s.capRead_capWrite_of_ne j i w hij)
  exact ⟨rfl, s.capRead_capWrite_self i w hi⟩

/-- Who writes a capture word. -/
theorem State.MemEffect.cap_writer {s t : State} {e : Event} {i : Nat} (h : s.MemEffect e t.mem)
    (hwf : s.params.wf = true) (hi : i < s.params.capbufWords) (hne : t.capRead i ≠ s.capRead i) :
    (e = .xfer ∧ i = s.cs.idx ∧ ∃ rest, s.lc.rxc = t.capRead i :: rest) ∨
    (∃ a, e = .host a ∧ a.kind = .write ∧ a.location s.params = some (.capbuf i) ∧ t.capRead i = a.data) ∨
    ∃ draws, e = .reset draws := by
  have hle := Params.capbufWords_le hwf
  unfold State.capRead at hne ⊢
  generalize t.mem = m at h hne
  cases h with
  | keep hm => exact absurd (by rw [hm]) hne
  | write a j hw hloc =>
    obtain ⟨rfl, hword⟩ := s.capRead_capWrite_of_changed hi hne
    exact .inr (.inl ⟨a, rfl, hw, hloc, hword⟩)
  | reconstruct a n ws hw hloc hdec hfit => exact absurd (s.capRead_planeFill ws _ i (by omega)) hne
  | move w rest hrxc =>
    obtain ⟨hidx, hword⟩ := s.capRead_capWrite_of_changed hi hne
    exact .inl ⟨rfl, hidx, rest, hrxc.trans (congrArg (· :: rest) hword.symm)⟩
  | reset draws => exact .inr (.inr ⟨draws, rfl⟩)

/-- Settles O58: of the effects on the buffers RECONSTRUCT's alone is on plane words, below its count, and the effect of a
move or a host write is on one capture word. -/
theorem bufferWriters : Obligations.BufferWriters := by
  intro s t i hwf hi h
  have heff : s.takeEvent.2.MemEffect s.takeEvent.1 t.mem := runEvent_memEffect h
  have hwf' : s.takeEvent.2.params.wf = true := by simpa using hwf
  have hplane : s.takeEvent.2.planeRead i = s.planeRead i := by simp [State.planeRead]
  have hcap : s.takeEvent.2.capRead i = s.capRead i := by simp [State.capRead]
  rw [← hplane, ← hcap]
  constructor <;> intro hne
  · rcases heff.plane_writer hwf' hne with ⟨a, n, hev, hw, hloc, hdec, hlt⟩ | hreset
    · obtain ⟨hsize, hoff⟩ := Access.location_register hloc
      exact .inl ⟨a.data, n, ⟨a, hev, hw, hsize, hoff, rfl⟩, hdec, by simpa [State.argCount] using hlt⟩
    · exact .inr hreset
  · rcases heff.cap_writer hwf' (by simpa using hi) hne with ⟨hev, hidx, rest, hrxc⟩ | ⟨a, hev, hw, hloc, hword⟩ | hreset
    · exact .inl ⟨hev, by simpa using hidx, rest, by simpa using hrxc⟩
    · obtain ⟨-, hoff, -⟩ := (Access.location_eq_capbuf_iff _ _ _).mp hloc
      exact .inr (.inl ⟨a, hev, hw, hoff, hword⟩)
    · exact .inr (.inr hreset)

/-! ## The decoder's queue (20_memory R82) -/

/-- A word whose lower 24 bits are clear is its top byte over zeros. -/
theorem eq_append_zero_of_low_clear {w : Word} (h : w &&& 0x00FFFFFF = 0) : w = w.extractLsb' 24 8 ++ 0#24 := by
  have hlow : w.toNat % 2 ^ 24 = 0 := by
    rw [← Nat.and_two_pow_sub_one_eq_mod]
    exact congrArg BitVec.toNat h
  apply BitVec.eq_of_toNat_eq
  change w.toNat = BitVec.toNat (w := 8 + 24) (w.extractLsb' 24 8 ++ 0#24)
  rw [BitVec.toNat_append]
  simp [Nat.shiftRight_eq_div_pow, Nat.shiftLeft_eq]
  omega

/-- The format of a command (30_encoding R101); a lane word has none. -/
def commandFormat : Instr → Option Format
  | .calcDiv _ => some .fDiv
  | .cfgCapture _ _ => some .fCfg
  | .runCapture _ _ => some .fRun
  | .reconstruct _ => some .fRec
  | .initDecoder _ => some .fPin
  | .setNotify _ => some .fEn
  | .releaseCapture | .deinitDecoder | .pollFrame | .decode | .popReport => some .fN
  | .waitGpio _ _ | .inPins _ => none

theorem opcodeRow_format {w : Word} {fmt : Format} {i : Instr} (h : opcodeRow w = some (fmt, i)) :
    commandFormat i = some fmt := by
  unfold opcodeRow at h
  split at h
  case h_12 => cases h
  all_goals obtain ⟨rfl, rfl⟩ := Prod.mk.inj (Option.some.inj h); rfl

/-- A command without operands has one word: its opcode (30_encoding R102, R105). -/
theorem decodeCommand_fN {w : Word} {i : Instr} {opc : BitVec 8} (h : decodeCommand w = .ok i)
    (hfmt : commandFormat i = some .fN) (hopc : commandOpcode i = some opc) : w = opc ++ 0#24 := by
  obtain rfl : opc = w.extractLsb' 24 8 := Option.some.inj (hopc.symm.trans (decodeCommand_opcode w i h))
  unfold decodeCommand at h
  split at h
  · cases h
  · rename_i fmt j hrow
    split at h
    · rename_i hmask
      obtain rfl := Except.ok.inj h
      obtain rfl : Format.fN = fmt := Option.some.inj (hfmt.symm.trans (opcodeRow_format hrow))
      rw [show ~~~Format.fN.fieldMask = BitVec.allOnes 32 from rfl, BitVec.and_allOnes] at hmask
      exact eq_append_zero_of_low_clear hmask
    · cases h


/-- All a command can do to the decoder's queue. -/
theorem State.Completes.rxd {s t : State} {i : Instr} (h : s.Completes i t) :
    t.dec.rxd = s.dec.rxd ∨
    (i = .pollFrame ∧ ∃ r, s.dec.rxd = r :: t.dec.rxd ∧ t.result = 0x00000820 ∧ t.data0 = r ∧ t.nt = s.nt) ∨
    (t.dec.rxd = [] ∧ (i = .deinitDecoder ∨ ∃ pin, i = .initDecoder pin)) := by
  cases h with
  | pollFrame r rest hon hrxd => exact .inr (.inl ⟨rfl, r, hrxd, rfl, rfl, rfl⟩)
  | startDecoder l p => exact .inr (.inr ⟨rfl, .inr ⟨_, rfl⟩⟩)
  | stopDecoder => exact .inr (.inr ⟨rfl, .inl rfl⟩)
  | _ => exact .inl (by simp [State.configureCapture, State.startCapture])

/-- Settles O50: of the effects of an event POLL_FRAME's and the handler's take the head of the queue, and only a frame's
arrival, the start or end of the session and reset write it beside them. -/
theorem frameDeliveredOnce : Obligations.FrameDeliveredOnce := by
  intro s t h
  have heff := State.step_effect h
  unfold State.issues
  generalize s.takeEvent.1 = e at heff ⊢
  cases heff with
  | command a i t hw hloc hdec hready hdone =>
    obtain ⟨hsize, hoff⟩ := Access.location_register hloc
    have hissue (w : Word) (hdata : a.data = w) :
        ∃ b : Access, Event.host a = .host b ∧ b.kind = .write ∧ b.size = 4 ∧ b.offset = 0x000 ∧ b.data = w :=
      ⟨a, rfl, hw, hsize, hoff, hdata⟩
    rcases hdone.rxd with e | ⟨rfl, r, hrxd, hresult, hdata0, hnt⟩ | ⟨hempty, rfl | ⟨pin, rfl⟩⟩
    · exact .inl (by simpa using e)
    · exact .inr (.inr (.inl ⟨r, by simpa using hrxd,
        .inl ⟨hissue _ (decodeCommand_fN hdec rfl rfl), hresult, hdata0, by simpa using hnt⟩⟩))
    · exact .inr (.inr (.inr ⟨hempty, .inl (hissue _ (decodeCommand_fN hdec rfl rfl))⟩))
    · exact .inr (.inr (.inr ⟨hempty, .inr (.inl ⟨a.data, pin, hissue _ rfl, hdec⟩)⟩))
  | frame f => exact .inr (.inl ⟨f, rfl, by simp⟩)
  | handleReport r rest hrxd =>
    exact .inr (.inr (.inl ⟨r, by simpa using hrxd, .inr ⟨rfl, by simp, by simp, .inl (by simp)⟩⟩))
  | handleOverflow r rest hrxd =>
    exact .inr (.inr (.inl ⟨r, by simpa using hrxd, .inr ⟨rfl, by simp, by simp, .inr (by simp)⟩⟩))
  | reset draws => exact .inr (.inr (.inr ⟨rfl, .inr (.inr ⟨draws, rfl⟩)⟩))
  | _ => exact .inl (by simp)

end Sys2Proof.Machine

/-! The merge of samples into words (41_capture R161 to R163): the samples laid end to end, `n` bits each, are the bits of
the words, 32 each. -/

namespace Sys2Proof.Machine

/-- Bit `b` of the samples of pins base .. base+n-1, laid end to end from the first one's lowest pin. -/
def sampleBit (n base : Nat) (samples : List Word) (b : Nat) : Bool :=
  (samples.getD (b / n) 0).getLsbD (base + b % n)

/-- The words hold the first of the samples' bits. -/
def WordsHold (n base : Nat) (samples words : List Word) : Prop :=
  32 * words.length ≤ samples.length * n ∧
    ∀ i < words.length, ∀ b < 32, (words.getD i 0).getLsbD b = sampleBit n base samples (32 * i + b)

/-- The words hold the samples' bits, but for the last `cnt`, which stand at the high end of the merge `isr`. -/
structure LaneHolds (n base : Nat) (samples words : List Word) (isr : Word) (cnt : Nat) : Prop where
  count : samples.length * n = 32 * words.length + cnt
  whole : WordsHold n base samples words
  merge : ∀ b < cnt, isr.getLsbD (32 - cnt + b) = sampleBit n base samples (32 * words.length + b)

section
variable {n base : Nat}

theorem sampleBit_append_of_lt {samples : List Word} {b : Nat} (l : Word) (hb : b < samples.length * n) :
    sampleBit n base (samples ++ [l]) b = sampleBit n base samples b := by
  unfold sampleBit
  rw [List.getD_append _ _ _ _ (Nat.div_lt_of_lt_mul (by rwa [Nat.mul_comm]))]

theorem sampleBit_append_last {p : Nat} (samples : List Word) (l : Word) (hp : p < n) :
    sampleBit n base (samples ++ [l]) (samples.length * n + p) = l.getLsbD (base + p) := by
  have hdiv : (samples.length * n + p) / n = samples.length := by
    rw [Nat.mul_comm, Nat.mul_add_div (by omega), Nat.div_eq_of_lt hp, Nat.add_zero]
  have hmod : (samples.length * n + p) % n = p := by
    rw [Nat.mul_comm, Nat.mul_add_mod, Nat.mod_eq_of_lt hp]
  simp [sampleBit, hdiv, hmod]

/-- The bit of pin base + p in the sample that stands at place `j` of word `i` (41_capture R163). -/
theorem sampleBit_of_place (samples : List Word) {i j p : Nat} (hn : n ∣ 32) (hp : p < n) :
    sampleBit n base samples (32 * i + (p + j * n)) = (samples.getD (i * (32 / n) + j) 0).getLsbD (base + p) := by
  have hsum : 32 * i + (p + j * n) = n * (i * (32 / n) + j) + p := by
    calc 32 * i + (p + j * n) = (n * (32 / n)) * i + (p + j * n) := by rw [Nat.mul_div_cancel' hn]
      _ = n * (i * (32 / n) + j) + p := by ring
  rw [sampleBit, hsum, Nat.mul_add_div (by omega), Nat.div_eq_of_lt hp, Nat.add_zero, Nat.mul_add_mod,
    Nat.mod_eq_of_lt hp]

/-- The sample of the pins as the lane shifts it in (41_capture R161). -/
theorem sampleOf_getLsbD (levels : Word) (i : Nat) :
    (sampleOf levels base n).getLsbD i = (decide (i < n) && levels.getLsbD (base + i)) := by
  have hmask : (BitVec.ofNat 32 (2 ^ n - 1)).getLsbD i = (decide (i < 32) && decide (i < n)) := by
    simp [BitVec.getLsbD_ofNat, Nat.testBit_two_pow_sub_one]
  rw [sampleOf, BitVec.getLsbD_and, BitVec.getLsbD_ushiftRight, hmask]
  by_cases hi : i < 32
  · simp [hi, Bool.and_comm]
  · simp [hi, BitVec.getLsbD_of_ge levels (base + i) (by omega)]

/-- The merge with a sample shifted in from the high end. -/
def mergeSample (n base : Nat) (isr levels : Word) : Word := (isr >>> n) ||| (sampleOf levels base n <<< (32 - n))

/-- Below the sample the old merge stands, `n` places lower. -/
theorem mergeSample_getLsbD_low (isr levels : Word) {k : Nat} (hk : k < 32 - n) :
    (mergeSample n base isr levels).getLsbD k = isr.getLsbD (n + k) := by
  simp [mergeSample, BitVec.getLsbD_shiftLeft, hk, -BitVec.getLsbD_eq_getElem]

theorem mergeSample_getLsbD_high (isr levels : Word) {p : Nat} (hn : n ≤ 32) (hp : p < n) :
    (mergeSample n base isr levels).getLsbD (32 - n + p) = levels.getLsbD (base + p) := by
  have hold : isr.getLsbD (n + (32 - n + p)) = false := BitVec.getLsbD_of_ge _ _ (by omega)
  simp [mergeSample, BitVec.getLsbD_shiftLeft, sampleOf_getLsbD, hold, hp, -BitVec.getLsbD_eq_getElem]
  omega

theorem WordsHold.append_sample {samples words : List Word} (h : WordsHold n base samples words) (l : Word) :
    WordsHold n base (samples ++ [l]) words := by
  obtain ⟨hlen, hbits⟩ := h
  refine ⟨by simp [Nat.add_mul]; omega, fun i hi b hb => ?_⟩
  rw [hbits i hi b hb, sampleBit_append_of_lt _ (by omega)]

/-- Leaving out the last words leaves words that hold the samples. -/
theorem WordsHold.of_append {samples words rest : List Word} (h : WordsHold n base samples (words ++ rest)) :
    WordsHold n base samples words := by
  obtain ⟨hlen, hbits⟩ := h
  rw [List.length_append] at hlen hbits
  refine ⟨by omega, fun i hi b hb => ?_⟩
  rw [← hbits i (by omega) b hb, List.getD_append _ _ _ _ hi]

theorem WordsHold.length_le {samples words : List Word} (h : WordsHold n base samples words) (hn : n ∣ 32) :
    words.length * (32 / n) ≤ samples.length := by
  obtain ⟨m, hm⟩ := hn
  have hpos : 0 < n := Nat.pos_of_mul_pos_right (hm ▸ by decide : 0 < n * m)
  have hlen := h.1
  rw [hm] at hlen ⊢
  rw [Nat.mul_div_cancel_left m hpos]
  exact Nat.le_of_mul_le_mul_right (by linarith) hpos

/-- Bit p + j*n of a word is the level of pin base + p in the word's sample `j` (41_capture R163). -/
theorem WordsHold.getLsbD_place {samples words : List Word} (h : WordsHold n base samples words) (hn : n ∣ 32)
    {i p j : Nat} (hi : i < words.length) (hp : p < n) (hj : j < 32 / n) :
    (words.getD i 0).getLsbD (p + j * n) = (samples.getD (i * (32 / n) + j) 0).getLsbD (base + p) := by
  have hbit : p + j * n < 32 := by
    calc p + j * n < n + j * n := by omega
      _ = (j + 1) * n := by ring
      _ ≤ 32 / n * n := Nat.mul_le_mul_right n hj
      _ = 32 := Nat.div_mul_cancel hn
  rw [h.2 i hi _ hbit, sampleBit_of_place samples hn hp]

theorem LaneHolds.nil : LaneHolds n base [] [] 0 0 := ⟨by simp, by simp [WordsHold], by simp⟩

/-- A SAMPLE step's shift, before a full merge is pushed. -/
theorem LaneHolds.sample {samples words : List Word} {isr : Word} {cnt : Nat}
    (h : LaneHolds n base samples words isr cnt) (levels : Word) (hroom : cnt + n ≤ 32) :
    LaneHolds n base (samples ++ [levels]) words (mergeSample n base isr levels) (cnt + n) where
  count := by rw [List.length_append, List.length_singleton, Nat.add_mul, h.count]; omega
  whole := h.whole.append_sample levels
  merge b hb := by
    by_cases hold : b < cnt
    · rw [sampleBit_append_of_lt _ (by rw [h.count]; omega), ← h.merge b hold, mergeSample_getLsbD_low _ _ (by omega)]
      congr 1; omega
    · obtain ⟨p, rfl⟩ := Nat.exists_eq_add_of_le (Nat.le_of_not_lt hold)
      rw [show 32 * words.length + (cnt + p) = samples.length * n + p by rw [h.count]; omega,
        sampleBit_append_last _ _ (by omega), show 32 - (cnt + n) + (cnt + p) = 32 - n + p by omega,
        mergeSample_getLsbD_high _ _ (by omega) (by omega)]

/-- A full merge is the next word. -/
theorem LaneHolds.push {samples words : List Word} {isr : Word} (h : LaneHolds n base samples words isr 32) :
    LaneHolds n base samples (words ++ [isr]) 0 0 where
  count := by rw [h.count, List.length_append, List.length_singleton]; omega
  whole := by
    refine ⟨by rw [h.count, List.length_append, List.length_singleton]; omega, fun i hi b hb => ?_⟩
    rw [List.length_append, List.length_singleton] at hi
    obtain hlt | rfl : i < words.length ∨ i = words.length := by omega
    · rw [List.getD_append _ _ _ _ hlt, h.whole.2 i hlt b hb]
    · rw [List.getD_append_right _ _ _ _ le_rfl, ← h.merge b hb]; simp
  merge b hb := absurd hb (Nat.not_lt_zero b)

/-- The merge never overfills: it grows by `n`, which divides 32. -/
theorem LaneHolds.room {samples words : List Word} {isr : Word} {cnt : Nat}
    (h : LaneHolds n base samples words isr cnt) (hn : n ∣ 32) (hcnt : cnt < 32) : cnt + n ≤ 32 := by
  have hdvd : n ∣ cnt := (Nat.dvd_add_right (hn.mul_right words.length)).mp (h.count ▸ Dvd.intro_left _ rfl)
  obtain ⟨k, rfl⟩ := hdvd
  obtain ⟨m, hm⟩ := hn
  rw [hm] at hcnt ⊢
  calc n * k + n = n * (k + 1) := by ring
    _ ≤ n * m := Nat.mul_le_mul_left n (Nat.lt_of_mul_lt_mul_left hcnt)

end

end Sys2Proof.Machine

/-! The words of one capture: along a run, what the buffer, the receive queue and the merge hold are the samples taken
since the trigger. -/

namespace Sys2Proof.Machine

/-! ## Runs -/

theorem State.Completes.sched {s t : State} {i : Instr} (h : s.Completes i t) : t.sched = s.sched := by
  cases h <;> simp [State.configureCapture, State.startCapture, State.startDecoder, State.stopDecoder]

/-- No agent writes the schedule of the events to come. -/
theorem runEvent_sched {e : Event} {s t : State} (h : runEvent e s = .next t) : t.sched = s.sched := by
  cases runEvent_effect h with
  | command a i t hw hloc hdec hready hdone => exact hdone.sched
  | reset draws => rfl
  | _ => simp

/-- A run of one step more takes the step first. -/
theorem run_succ {M : Host.Core} {k : Nat} {s t : M.State} (h : M.run (k + 1) s = .next t) :
    ∃ u, M.step s = .next u ∧ M.run k u = .next t := by
  rw [Host.Core.run] at h
  split at h
  · rename_i u hu; exact ⟨u, hu, h⟩
  · cases h
  · cases h

theorem step_of_sched {s : State} {e : Event} {rest : List Event} (h : s.sched = e :: rest) :
    step s = runEvent e { s with sched := rest } := by
  simp [step, State.takeEvent, h]

/-- A property of the events so far and the state that the events of a run keep, and that does not speak of the
schedule, holds at the run's end. -/
theorem Runs.keeps {P : List Event → State → Prop} {s t : State} {evs : List Event} (hrun : Runs s evs t)
    (hsched : ∀ hist u l, P hist u → P hist { u with sched := l })
    (hstep : ∀ hist e u v, e ∈ evs → P hist u → runEvent e u = .next v → P (hist ++ [e]) v) (h0 : P [] s) :
    P evs t := by
  suffices key : ∀ (todo hist : List Event) (u : State), (∀ e ∈ todo, e ∈ evs) → u.sched = todo ++ s.sched → P hist u →
      Host.Core.run Sys2Proof.core todo.length u = .next t → P (hist ++ todo) t from
    key evs [] _ (fun _ => id) rfl (hsched _ _ _ h0) hrun
  intro todo
  induction todo with
  | nil =>
    intro hist u _ _ hP hend
    obtain rfl := Host.Outcome.next.inj hend
    simpa using hP
  | cons e todo ih =>
    intro hist u hmem hu hP hend
    obtain ⟨v, hv, hend⟩ := run_succ hend
    have hv := (step_of_sched hu).symm.trans hv
    have hPv := hstep hist e _ v (hmem e (by simp)) (hsched _ _ _ hP) hv
    simpa using ih (hist ++ [e]) v (fun x hx => hmem x (by simp [hx])) (runEvent_sched hv) hPv hend

/-! ## The samples since the trigger (41_capture R160) -/

theorem laneLevels_append (a b : List Event) : laneLevels (a ++ b) = laneLevels a ++ laneLevels b := by
  induction a with
  | nil => rfl
  | cons e a ih => cases e <;> simp [laneLevels, ih]

/-- The samples are, in order, levels that lane events brought after the one that saw the trigger. -/
def SampledAfterTrigger (pin : Nat) (pol : Bool) (evs : List Event) (samples : List Word) : Prop :=
  ∃ before after levels, evs = before ++ .lane levels :: after ∧ levels.getLsbD pin = pol ∧
    samples.Sublist (laneLevels after)

section
variable {pin : Nat} {pol : Bool} {evs : List Event} {samples : List Word}

theorem SampledAfterTrigger.trigger {l : Word} (evs : List Event) (hl : l.getLsbD pin = pol) :
    SampledAfterTrigger pin pol (evs ++ [.lane l]) [] := ⟨evs, [], l, rfl, hl, List.nil_sublist _⟩

theorem SampledAfterTrigger.event (h : SampledAfterTrigger pin pol evs samples) (e : Event) :
    SampledAfterTrigger pin pol (evs ++ [e]) samples := by
  obtain ⟨before, after, levels, rfl, hl, hsub⟩ := h
  refine ⟨before, after ++ [e], levels, by simp, hl, ?_⟩
  rw [laneLevels_append]
  exact hsub.trans (List.sublist_append_left _ _)

theorem SampledAfterTrigger.sample (h : SampledAfterTrigger pin pol evs samples) (l : Word) :
    SampledAfterTrigger pin pol (evs ++ [.lane l]) (samples ++ [l]) := by
  obtain ⟨before, after, levels, rfl, hl, hsub⟩ := h
  refine ⟨before, after ++ [.lane l], levels, by simp, hl, ?_⟩
  rw [laneLevels_append]
  exact hsub.append (List.Sublist.refl _)

end

theorem pinCountLegal_dvd {n : Nat} (h : pinCountLegal n = true) : n ∣ 32 := by
  simp only [pinCountLegal, Bool.or_eq_true, decide_eq_true_eq] at h
  rcases h with ((((rfl | rfl) | rfl) | rfl) | rfl) | rfl <;> decide

/-! ## What the block holds of a capture -/

/-- The capture words moved so far. -/
def State.captured (s : State) : List Word := (List.range s.cs.idx).map s.capRead

@[simp] theorem State.length_captured (s : State) : s.captured.length = s.cs.idx := by simp [State.captured]

/-- Two states agree on the capture: the session, the lane, the buffers. -/
structure State.SameCapture (s t : State) : Prop where
  params : t.params = s.params
  cs : t.cs = s.cs
  lc : t.lc = s.lc
  mem : t.mem = s.mem

theorem State.SameCapture.captured {s t : State} (h : s.SameCapture t) : t.captured = s.captured := by
  have hread : t.capRead = s.capRead := funext fun i => by rw [State.capRead, State.capRead, h.mem]
  rw [State.captured, State.captured, h.cs, hread]

/-- The host's reads and the agents of the decoder and of the notification leave a capture alone. -/
theorem runEvent_sameCapture {e : Event} {s t : State}
    (he : (∃ f, e = .frame f) ∨ e = .latch ∨ e = .handle ∨ ∃ a, e = .host a ∧ a.kind = .read)
    (h : runEvent e s = .next t) : s.SameCapture t := by
  rcases he with ⟨f, rfl⟩ | rfl | rfl | ⟨a, rfl, hk⟩
  iterate 3 cases runEvent_effect h <;> constructor <;> simp
  · rw [runEvent_read s hk] at h
    obtain rfl := Host.Outcome.next.inj h
    rcases s.hostRead_cases a with ⟨w, e⟩ | ⟨k, e⟩ <;> rw [e] <;> constructor <;> simp

/-- A move carries the head of the receive queue to the end of the captured words. -/
theorem State.captured_move (s : State) (rest : List Word) (w : Word) (hidx : s.cs.idx < s.params.capbufWords) :
    (((s.setLc { s.lc with rxc := rest }).capWrite s.cs.idx w).setCs { s.cs with idx := s.cs.idx + 1 }).captured =
      s.captured ++ [w] := by
  rw [State.capWrite_setLc]
  change (List.range (s.cs.idx + 1)).map (s.capWrite s.cs.idx w).capRead = _
  rw [List.range_succ, List.map_append, List.map_singleton, s.capRead_capWrite_self _ _ hidx, State.captured]
  congr 1
  refine List.map_congr_left fun i hi => s.capRead_capWrite_of_ne _ _ _ ?_
  exact (List.mem_range.mp hi).ne

theorem State.captured_complete (s : State) : s.complete.captured = s.captured := by
  have hread : s.complete.capRead = s.capRead := funext fun i => by rw [State.capRead, State.complete_mem, State.capRead]
  rw [State.captured, hread, State.complete_cs, State.captured]

/-- Where a capture stands that started with the session record `c`, after the events `evs`: it waits for its trigger; or
the words moved, the words waiting and the merge hold the samples; or it has ended, and the words moved hold samples. -/
inductive State.Capturing (c : CaptureSession) (evs : List Event) (s : State) : Prop
  | waiting (hcfg : s.cs.config = c.config) (hfit : s.cs.cap ≤ s.params.capbufWords) (hidx : s.cs.idx = 0)
      (hlc : s.lc = { phase := .wait, isr := 0, cnt := 0, rxc := [] })
  | running (samples : List Word) (hcfg : s.cs.config = c.config) (hfit : s.cs.cap ≤ s.params.capbufWords)
      (hrun : s.lc.phase = .run) (hcnt : s.lc.cnt < 32)
      (hsam : SampledAfterTrigger c.trigPin.toNat c.trigPol evs samples)
      (hlane : LaneHolds c.pinCount.toNat c.pinBase.toNat samples (s.captured ++ s.lc.rxc) s.lc.isr s.lc.cnt)
  | ended (samples : List Word) (hoff : s.lc.phase = .off) (hrest : s.cs.state = .released)
      (hsam : SampledAfterTrigger c.trigPin.toNat c.trigPol evs samples)
      (hwords : WordsHold c.pinCount.toNat c.pinBase.toNat samples s.captured)

section
variable {c : CaptureSession} {evs : List Event} {s t : State}

theorem State.Capturing.of_same (h : s.Capturing c evs) (hsame : s.SameCapture t) : t.Capturing c evs := by
  have hcap := hsame.captured
  obtain ⟨hparams, hcs, hlc, -⟩ := hsame
  cases h with
  | waiting hcfg hfit hidx hwait => exact .waiting (hcs ▸ hcfg) (hcs ▸ hparams ▸ hfit) (hcs ▸ hidx) (hlc ▸ hwait)
  | running samples hcfg hfit hrun hcnt hsam hlane =>
    exact .running samples (hcs ▸ hcfg) (hcs ▸ hparams ▸ hfit) (hlc ▸ hrun) (hlc ▸ hcnt) hsam (hcap ▸ hlc ▸ hlane)
  | ended samples hoff hrest hsam hwords => exact .ended samples (hlc ▸ hoff) (hcs ▸ hrest) hsam (hcap ▸ hwords)

/-- An event that leaves the capture as it is joins the events so far. -/
theorem State.Capturing.event (h : s.Capturing c evs) (e : Event) : s.Capturing c (evs ++ [e]) := by
  cases h with
  | waiting hcfg hfit hidx hlc => exact .waiting hcfg hfit hidx hlc
  | running samples hcfg hfit hrun hcnt hsam hlane => exact .running samples hcfg hfit hrun hcnt (hsam.event e) hlane
  | ended samples hoff hrest hsam hwords => exact .ended samples hoff hrest (hsam.event e) hwords

theorem CaptureSession.config_eq {c d : CaptureSession} (h : c.config = d.config) :
    c.pinBase = d.pinBase ∧ c.pinCount = d.pinCount ∧ c.trigPin = d.trigPin ∧ c.trigPol = d.trigPol := by
  simp only [CaptureSession.config, Prod.mk.injEq] at h
  obtain ⟨hbase, hcount, hpin, hpol, -⟩ := h
  exact ⟨hbase, hcount, hpin, hpol⟩

theorem State.sameCapture_setPins (s : State) (l : Word) : s.SameCapture (s.setPins l) := by constructor <;> rfl

/-- The sample's word is pushed when its merge is full (41_capture R161). -/
theorem State.Capturing.sample {samples : List Word} {l : Word} {n : Nat} (hn : n = c.pinCount.toNat)
    (hlegal : pinCountLegal n = true) (hcfg : s.cs.config = c.config) (hfit : s.cs.cap ≤ s.params.capbufWords)
    (hrun : s.lc.phase = .run) (hcnt : s.lc.cnt < 32)
    (hsam : SampledAfterTrigger c.trigPin.toNat c.trigPol evs samples)
    (hlane : LaneHolds c.pinCount.toNat c.pinBase.toNat samples (s.captured ++ s.lc.rxc) s.lc.isr s.lc.cnt) :
    ((s.setPins l).shiftIn n (sampleOf l c.pinBase.toNat n)).Capturing c (evs ++ [.lane l]) := by
  subst hn
  have hdvd : c.pinCount.toNat ∣ 32 := pinCountLegal_dvd hlegal
  have hroom := hlane.room hdvd hcnt
  have hmerge := hlane.sample l hroom
  unfold State.shiftIn
  dsimp only
  rw [(sampleWidth_of_legal hlegal).2]
  split
  · rename_i hfull
    have hfull : s.lc.cnt + c.pinCount.toNat = 32 := le_antisymm hroom hfull
    rw [hfull] at hmerge
    refine .running _ hcfg hfit hrun (by simp) (hsam.sample l) ?_
    have := hmerge.push
    rw [List.append_assoc] at this
    exact this
  · rename_i hpart
    exact .running _ hcfg hfit hrun (Nat.lt_of_not_le hpart) (hsam.sample l) hmerge

theorem State.Capturing.lane (h : s.Capturing c evs) (hlegal : pinCountLegal c.pinCount.toNat = true) {l : Word}
    (hstep : s.laneStep l = .next t) : t.Capturing c (evs ++ [.lane l]) := by
  rcases s.laneStep_cases l with e | ⟨-, hphase, hlevel, e⟩ | ⟨-, hphase, n, hn, e⟩ <;>
    obtain rfl := Host.Outcome.next.inj (e.symm.trans hstep)
  · exact (h.of_same (s.sameCapture_setPins l)).event _
  · cases h with
    | waiting hcfg hfit hidx hlc =>
      obtain ⟨hbase, hcount, hpin, hpol⟩ := CaptureSession.config_eq hcfg
      refine .running [] hcfg hfit rfl (by simp [hlc]) (.trigger evs (by rw [← hpin, ← hpol]; exact hlevel)) ?_
      simpa [State.captured, hidx, hlc] using LaneHolds.nil
    | running samples hcfg hfit hrun => simp [hrun] at hphase
    | ended samples hoff => simp [hoff] at hphase
  · cases h with
    | waiting hcfg hfit hidx hlc => simp [hlc] at hphase
    | running samples hcfg hfit hrun hcnt hsam hlane =>
      obtain ⟨hbase, hcount, hpin, hpol⟩ := CaptureSession.config_eq hcfg
      rw [hcount, (sampleWidth_of_legal hlegal).1] at hn
      rw [hbase]
      exact .sample hn (hn ▸ hlegal) hcfg hfit hrun hcnt hsam hlane
    | ended samples hoff => simp [hoff] at hphase

/-- A move passes the words of the receive queue on to the buffer; the last one keeps those moved (41_capture R170,
R171). -/
theorem State.Capturing.xfer (h : s.Capturing c evs) : s.xferStep.Capturing c (evs ++ [.xfer]) := by
  rcases s.xferStep_cases with e | ⟨-, htrans, hidx, w, rest, hrxc, hmove⟩
  · rw [e]; exact h.event _
  · cases h with
    | waiting hcfg hfit hidx hlc => simp [hlc] at hrxc
    | running samples hcfg hfit hrun hcnt hsam hlane =>
      have hcap := s.captured_move rest w (hidx.trans_le hfit)
      rw [hrxc, List.append_cons, ← hcap] at hlane
      rcases hmove with ⟨-, e⟩ | ⟨-, e⟩ <;> rw [e]
      · rw [State.capWrite_setLc] at hlane ⊢
        exact .running samples hcfg (by simpa using hfit) hrun hcnt (hsam.event _) hlane
      · refine .ended samples (by simp) (by simp) (hsam.event _) ?_
        rw [State.captured_complete]
        exact hlane.whole.of_append
    | ended samples hoff hrest => simp [hrest] at htrans

/-- Every event of the block's agents and of the host's reads keeps what a capture holds. -/
theorem runEvent_capturing (hlegal : pinCountLegal c.pinCount.toNat = true) (h : s.Capturing c evs) {e : Event}
    (he : (∃ levels, e = .lane levels) ∨ e = .xfer ∨ (∃ f, e = .frame f) ∨ e = .latch ∨ e = .handle ∨
      ∃ a, e = .host a ∧ a.kind = .read) (hstep : runEvent e s = .next t) : t.Capturing c (evs ++ [e]) := by
  rcases he with ⟨l, rfl⟩ | rfl | he
  · exact h.lane hlegal hstep
  · obtain rfl := Host.Outcome.next.inj hstep
    exact h.xfer
  · exact (h.of_same (runEvent_sameCapture he hstep)).event e

/-- The words moved hold samples, once there are any. -/
theorem State.Capturing.captured (h : s.Capturing c evs) (hidx : 0 < s.cs.idx) :
    ∃ samples, SampledAfterTrigger c.trigPin.toNat c.trigPol evs samples ∧
      WordsHold c.pinCount.toNat c.pinBase.toNat samples s.captured := by
  cases h with
  | waiting hcfg hfit hzero => omega
  | running samples hcfg hfit hrun hcnt hsam hlane => exact ⟨samples, hsam, hlane.whole.of_append⟩
  | ended samples hoff hrest hsam hwords => exact ⟨samples, hsam, hwords⟩

end

/-- Settles O28: what a capture holds is kept along the run, and the bits of the samples laid end to end are read off by
word, sample and pin. -/
theorem captureHoldsSamplesInOrder : Obligations.CaptureHoldsSamplesInOrder := by
  intro s t evs _ _ hlc hidx hfit hcount hevs hrun hmoved
  have hlegal : pinCountLegal s.cs.pinCount.toNat = true := by simpa [pinCountLegal, or_assoc] using hcount
  have hdvd := pinCountLegal_dvd hlegal
  have hcap : t.Capturing s.cs evs := hrun.keeps (P := fun hist u => u.Capturing s.cs hist)
    (fun hist u l h => h.of_same ⟨rfl, rfl, rfl, rfl⟩)
    (fun hist e u v he h hstep => runEvent_capturing hlegal h (hevs e he) hstep) (.waiting rfl hfit hidx hlc)
  obtain ⟨samples, ⟨before, after, levels, rfl, hlevel, hsub⟩, hwords⟩ := hcap.captured hmoved
  have hlen := hwords.length_le hdvd
  rw [State.length_captured] at hlen
  refine ⟨before, after, levels, samples, rfl, hlevel, hsub, hlen, fun i p j hi hp hj => ?_⟩
  rw [← hwords.getLsbD_place hdvd (by simpa using hi) hp hj]
  simp [State.captured, hi]

end Sys2Proof.Machine

/-! The encoding of the instructions (30_encoding): a field cut out of a word and put back, the row of an opcode against
`encode`, and what a write to CMD makes of a legal and of an illegal word. -/

namespace Sys2Proof.Machine

/-! ## Fields of a word -/

section
variable {m : Nat} (w : BitVec m)

/-- A bit read off a word as a number (30_encoding R103). -/
theorem getLsbD_eq_div_mod (i : Nat) : w.getLsbD i = (w.toNat / 2 ^ i % 2 == 1) := by
  rw [BitVec.getLsbD, Nat.testBit_eq_decide_div_mod_eq]; rfl

theorem ofNat_bit_getLsbD (i : Nat) : BitVec.ofNat m (bit (w.getLsbD i)) = (w.extractLsb' i 1).setWidth m := by
  rw [← BitVec.ofNat_toNat, getLsbD_eq_div_mod, BitVec.extractLsb'_toNat, Nat.shiftRight_eq_div_pow, pow_one]
  rcases Nat.mod_two_eq_zero_or_one (w.toNat / 2 ^ i) with e | e <;> rw [e] <;> rfl

/-- A field put back at its place is the word masked to the field. -/
theorem setWidth_extractLsb'_shiftLeft (lo n : Nat) :
    (w.extractLsb' lo n).setWidth m <<< lo = w &&& BitVec.ofNat m (2 ^ n - 1) <<< lo := by
  apply BitVec.eq_of_getLsbD_eq
  intro i hi
  simp only [BitVec.getLsbD_setWidth, BitVec.getLsbD_extractLsb', BitVec.getLsbD_and, BitVec.getLsbD_shiftLeft,
    BitVec.getLsbD_ofNat, Nat.testBit_two_pow_sub_one]
  by_cases hlo : i < lo
  · simp [hlo]
  · simp [hi, hlo, show i - lo < m by omega, show lo + (i - lo) = i by omega, Bool.and_comm]

theorem setWidth_extractLsb'_zero (n : Nat) : (w.extractLsb' 0 n).setWidth m = w &&& BitVec.ofNat m (2 ^ n - 1) := by
  simpa only [BitVec.shiftLeft_zero] using setWidth_extractLsb'_shiftLeft w 0 n

/-- A word has no bit outside a mask exactly when masking leaves it. -/
theorem and_not_eq_zero_iff (mask : BitVec m) : w &&& ~~~mask = 0 ↔ w &&& mask = w := by
  constructor <;> intro h
  · calc w &&& mask = w &&& mask ||| w &&& ~~~mask := by rw [h]; simp
      _ = w := by rw [← BitVec.and_or_distrib_left, BitVec.or_not_self, BitVec.and_allOnes]
  · rw [← h, BitVec.and_assoc, BitVec.and_not_self]; exact BitVec.and_zero

end

section
variable {m k : Nat} (x : BitVec k) {lo n place : Nat}

/-! The fields of a word that `encode` lays out with `|||` and `<<<`: each operand is the field at its own place and is
absent from every other. -/

@[simp] theorem extractLsb'_setWidth_shiftLeft_self (h : lo + k ≤ m) : (x.setWidth m <<< lo).extractLsb' lo k = x := by
  apply BitVec.eq_of_getLsbD_eq
  intro i hi
  simp [hi, show lo + i < m by omega]

@[simp] theorem extractLsb'_setWidth_shiftLeft_apart (h : lo + n ≤ place ∨ place + k ≤ lo) :
    (x.setWidth m <<< place).extractLsb' lo n = 0 := by
  apply BitVec.eq_of_getLsbD_eq
  intro i hi
  simp only [BitVec.getLsbD_extractLsb', BitVec.getLsbD_shiftLeft, BitVec.getLsbD_setWidth]
  rcases h with h | h
  · simp [show lo + i < place by omega]
  · simp [BitVec.getLsbD_of_ge x (lo + i - place) (by omega)]

@[simp] theorem extractLsb'_setWidth_self (h : k ≤ m) : (x.setWidth m).extractLsb' 0 k = x := by
  simpa using extractLsb'_setWidth_shiftLeft_self x (lo := 0) (by omega)

@[simp] theorem extractLsb'_setWidth_apart (h : k ≤ lo) : (x.setWidth m).extractLsb' lo n = 0 := by
  simpa using extractLsb'_setWidth_shiftLeft_apart x (place := 0) (.inr (by omega))

end

/-- An operand that fits its field is the field's value. -/
theorem exists_eq_toNat {a n : Nat} (h : a < 2 ^ n) : ∃ x : BitVec n, a = x.toNat := ⟨BitVec.ofNatLT a h, rfl⟩

theorem field_eq_div_mod (w : Word) (lo n : Nat) : field w lo n = w.toNat / 2 ^ lo % 2 ^ n := by
  rw [field, BitVec.extractLsb'_toNat, Nat.shiftRight_eq_div_pow]

theorem opcode_eq_div (w : Word) : (w.extractLsb' 24 8).toNat = w.toNat / 2 ^ 24 := by
  rw [BitVec.extractLsb'_toNat, Nat.shiftRight_eq_div_pow, Nat.mod_eq_of_lt (by omega)]

/-! ## The command words (30_encoding R101, R102) -/

theorem decodeCommand_eq_ok_iff_row {w : Word} {i : Instr} : decodeCommand w = .ok i ↔
    ∃ fmt, opcodeRow w = some (fmt, i) ∧ w &&& 0x00FFFFFF &&& ~~~fmt.fieldMask = 0 := by
  unfold decodeCommand
  split
  · rename_i hrow; simp [hrow]
  · split <;> simp_all

/-- The instruction that a word's row reads is well formed, and its own word is that word without the reserved bits. -/
theorem encode_of_opcodeRow {w : Word} {fmt : Format} {i : Instr} (h : opcodeRow w = some (fmt, i)) :
    i.wellFormed = true ∧ encode i = .command (w &&& 0xFF000000 ||| w &&& fmt.fieldMask) := by
  have hlow : field w 0 5 < 32 := BitVec.isLt _
  have hhigh : field w 5 6 < 64 := BitVec.isLt _
  have hword := congrArg (· ||| w &&& fmt.fieldMask) (setWidth_extractLsb'_shiftLeft w 24 8)
  rw [← BitVec.ofNat_toNat] at hword
  unfold opcodeRow at h
  split at h
  case h_12 => cases h
  all_goals
    rename_i e
    rw [e] at hword
    obtain ⟨rfl, rfl⟩ := Prod.mk.inj (Option.some.inj h)
    refine ⟨by simp [Instr.wellFormed, hlow, hhigh], ?_⟩
    simpa [encode, field, ofNat_bit_getLsbD, setWidth_extractLsb'_shiftLeft, setWidth_extractLsb'_zero,
      Format.fieldMask, BitVec.or_assoc, ← BitVec.and_or_distrib_left, -BitVec.extractLsb'_toNat,
      -BitVec.getLsbD_eq_getElem] using hword

theorem reserved_clear_iff {w : Word} {fmt : Format} {i : Instr} (h : opcodeRow w = some (fmt, i)) :
    w &&& 0x00FFFFFF &&& ~~~fmt.fieldMask = 0 ↔ encode i = .command w := by
  have hmask : w &&& 0x00FFFFFF &&& ~~~fmt.fieldMask = w &&& ~~~(0xFF000000 ||| fmt.fieldMask) := by
    rw [BitVec.not_or, ← BitVec.and_assoc]; rfl
  rw [hmask, and_not_eq_zero_iff, BitVec.and_or_distrib_left, (encode_of_opcodeRow h).2, InstrWord.command.injEq]

/-- A word decodes to the instruction its row reads exactly when it is that instruction's word. -/
theorem decodeCommand_eq_ok_iff {w : Word} {i : Instr} :
    decodeCommand w = .ok i ↔ (∃ fmt, opcodeRow w = some (fmt, i)) ∧ encode i = .command w := by
  rw [decodeCommand_eq_ok_iff_row, ← exists_and_right]
  exact exists_congr fun fmt => and_congr_right reserved_clear_iff

/-- The row of the word of a well-formed command reads that command's operands. -/
theorem opcodeRow_of_encode {i : Instr} {w : Word} (hwf : i.wellFormed = true) (henc : encode i = .command w) :
    ∃ fmt, opcodeRow w = some (fmt, i) := by
  cases i with
  | cfgCapture base count =>
    obtain ⟨hbase, hcount⟩ : base < 2 ^ 5 ∧ count < 2 ^ 6 := by simpa [Instr.wellFormed] using hwf
    obtain ⟨base, rfl⟩ := exists_eq_toNat hbase
    obtain ⟨count, rfl⟩ := exists_eq_toNat hcount
    obtain rfl := InstrWord.command.inj henc
    refine ⟨.fCfg, ?_⟩
    simp [opcodeRow, field, BitVec.extractLsb'_or, -BitVec.extractLsb'_toNat]
  | runCapture pin pol =>
    obtain ⟨pin, rfl⟩ := exists_eq_toNat (n := 5) (by simpa [Instr.wellFormed] using hwf)
    obtain rfl := InstrWord.command.inj henc
    refine ⟨.fRun, ?_⟩
    cases pol <;> simp [opcodeRow, field, bit, BitVec.extractLsb'_or, -BitVec.extractLsb'_toNat]
  | reconstruct count =>
    obtain ⟨count, rfl⟩ := exists_eq_toNat (n := 6) (by simpa [Instr.wellFormed] using hwf)
    obtain rfl := InstrWord.command.inj henc
    refine ⟨.fRec, ?_⟩
    simp [opcodeRow, field, BitVec.extractLsb'_or, -BitVec.extractLsb'_toNat]
  | initDecoder pin =>
    obtain ⟨pin, rfl⟩ := exists_eq_toNat (n := 5) (by simpa [Instr.wellFormed] using hwf)
    obtain rfl := InstrWord.command.inj henc
    refine ⟨.fPin, ?_⟩
    simp [opcodeRow, field, BitVec.extractLsb'_or, -BitVec.extractLsb'_toNat]
  | calcDiv b | setNotify b => cases b <;> obtain rfl := InstrWord.command.inj henc <;> exact ⟨_, rfl⟩
  | waitGpio pol gpio | inPins bitCount => cases henc
  | _ => obtain rfl := InstrWord.command.inj henc; exact ⟨_, rfl⟩

/-! ## The lane words (30_encoding R108) -/

theorem decodeLane_waitGpio {w : BitVec 16} (h : w &&& 0xFF60 = 0x2000) :
    decodeLane w = .ok (.waitGpio (w.getLsbD 7) (w.extractLsb' 0 5).toNat) := if_pos h

theorem decodeLane_inPins {w : BitVec 16} (h : w &&& 0xFFE0 = 0x4000) :
    decodeLane w = .ok (.inPins (w.extractLsb' 0 5).toNat) := by
  have hsource : w &&& 0xFF60 = 0x4000 :=
    calc w &&& 0xFF60 = w &&& 0xFFE0 &&& 0xFF60 := by rw [BitVec.and_assoc]; rfl
      _ = 0x4000 := by rw [h]; rfl
  rw [decodeLane, hsource, h]
  rfl

theorem decodeLane_ok_cases {w : BitVec 16} {i : Instr} (h : decodeLane w = .ok i) :
    (w &&& 0xFF60 = 0x2000 ∧ i = .waitGpio (w.getLsbD 7) (w.extractLsb' 0 5).toNat) ∨
    (w &&& 0xFFE0 = 0x4000 ∧ i = .inPins (w.extractLsb' 0 5).toNat) := by
  unfold decodeLane at h
  split_ifs at h with hwait hin
  · exact .inl ⟨hwait, (Except.ok.inj h).symm⟩
  · exact .inr ⟨hin, (Except.ok.inj h).symm⟩

theorem encode_waitGpio_of_fixed {w : BitVec 16} (h : w &&& 0xFF60 = 0x2000) :
    encode (.waitGpio (w.getLsbD 7) (w.extractLsb' 0 5).toNat) = .lane w := by
  refine congrArg InstrWord.lane ?_
  calc 0x2000 ||| BitVec.ofNat 16 (bit (w.getLsbD 7)) <<< 7 ||| BitVec.ofNat 16 (w.extractLsb' 0 5).toNat
      = w &&& 0xFF60 ||| w &&& 0x0080 ||| w &&& 0x001F := by
        rw [ofNat_bit_getLsbD, BitVec.ofNat_toNat, setWidth_extractLsb'_shiftLeft, setWidth_extractLsb'_zero, h]; rfl
    _ = w := by simp only [← BitVec.and_or_distrib_left]; exact BitVec.and_allOnes

theorem encode_inPins_of_fixed {w : BitVec 16} (h : w &&& 0xFFE0 = 0x4000) :
    encode (.inPins (w.extractLsb' 0 5).toNat) = .lane w := by
  refine congrArg InstrWord.lane ?_
  calc 0x4000 ||| BitVec.ofNat 16 (w.extractLsb' 0 5).toNat
      = w &&& 0xFFE0 ||| w &&& 0x001F := by rw [BitVec.ofNat_toNat, setWidth_extractLsb'_zero, h]; rfl
    _ = w := by rw [← BitVec.and_or_distrib_left]; exact BitVec.and_allOnes

theorem decode_encode_waitGpio {pol : Bool} {gpio : Nat} (hwf : (Instr.waitGpio pol gpio).wellFormed = true) :
    Sys2Proof.decode (encode (.waitGpio pol gpio)) = .ok (.waitGpio pol gpio) := by
  have hfixed := beq_iff_eq.mp (Laws.FixedBits.waitGpio pol gpio hwf)
  obtain ⟨gpio, rfl⟩ := exists_eq_toNat (n := 5) (by simpa [Instr.wellFormed] using hwf)
  refine (decodeLane_waitGpio hfixed).trans ?_
  cases pol <;> simp [bit, BitVec.extractLsb'_or, -BitVec.extractLsb'_toNat]

theorem decode_encode_inPins {bitCount : Nat} (hwf : (Instr.inPins bitCount).wellFormed = true) :
    Sys2Proof.decode (encode (.inPins bitCount)) = .ok (.inPins bitCount) := by
  have hfixed := beq_iff_eq.mp (Laws.FixedBits.inPins bitCount hwf)
  obtain ⟨n, rfl⟩ := exists_eq_toNat (n := 5) (by simpa [Instr.wellFormed] using hwf)
  refine (decodeLane_inPins hfixed).trans ?_
  simp [BitVec.extractLsb'_or, -BitVec.extractLsb'_toNat]

/-! ## Decoding against encoding -/

/-- Settles O1: the row of a well-formed command's word reads back its operands, and a lane word carries its fixed
bits. -/
theorem decodeEncodeRoundTrip : Obligations.DecodeEncodeRoundTrip := by
  intro i hwf
  cases henc : encode i with
  | command w => exact decodeCommand_eq_ok_iff.mpr ⟨opcodeRow_of_encode hwf henc, henc⟩
  | lane w =>
    rw [← henc]
    cases i with
    | waitGpio pol gpio => exact decode_encode_waitGpio hwf
    | inPins bitCount => exact decode_encode_inPins hwf
    | _ => cases henc

/-- Settles O2: the fields a word's row reads, put back at their places, make the word. -/
theorem decodedWordReencodes : Obligations.DecodedWordReencodes := by
  rintro (w | w) i h
  · obtain ⟨⟨fmt, hrow⟩, henc⟩ := decodeCommand_eq_ok_iff.mp h
    exact ⟨(encode_of_opcodeRow hrow).1, henc⟩
  · have hlow : (w.extractLsb' 0 5).toNat < 32 := BitVec.isLt _
    rcases decodeLane_ok_cases h with ⟨hfixed, rfl⟩ | ⟨hfixed, rfl⟩
    · exact ⟨decide_eq_true hlow, encode_waitGpio_of_fixed hfixed⟩
    · exact ⟨decide_eq_true hlow, encode_inPins_of_fixed hfixed⟩

/-- Settles O3, row by row of the opcodes. -/
theorem commandFields : Obligations.CommandFields := by
  intro w i h opc
  obtain ⟨⟨fmt, hrow⟩, -⟩ := decodeCommand_eq_ok_iff.mp h
  unfold opcodeRow at hrow
  split at hrow
  case h_12 => cases hrow
  all_goals
    rename_i e
    obtain ⟨-, rfl⟩ := Prod.mk.inj (Option.some.inj hrow)
    replace e : opc = _ := (opcode_eq_div w).symm.trans e
    clear_value opc
    simp [e, field_eq_div_mod, getLsbD_eq_div_mod, -BitVec.getLsbD_eq_getElem]

/-- Settles O5: each word evaluated by the decoder. -/
theorem sampleWordsDecode : Obligations.SampleWordsDecode := by
  unfold Obligations.SampleWordsDecode
  decide

/-! ## The issue of a command (30_encoding R100, R105) -/

/-- FIELDMASK of an opcode's format (30_encoding R101, R102). -/
def opcodeMask (opc : Nat) : Word :=
  if opc = 0x01 then 0x000001 else if opc = 0x02 then 0x0007FF else if opc = 0x03 then 0x00003F
  else if opc = 0x05 then 0x0007E0 else if opc = 0x06 then 0x00001F else if opc = 0x0A then 0x000001 else 0

/-- An illegal command word: its opcode is reserved or a reserved bit is set (30_encoding R105). -/
def IllegalCommand (w : Word) : Prop :=
  w.toNat / 2 ^ 24 = 0 ∨ 0x0C ≤ w.toNat / 2 ^ 24 ∨ w &&& 0x00FFFFFF &&& ~~~opcodeMask (w.toNat / 2 ^ 24) ≠ 0

theorem opcodeRow_eq_none_iff (w : Word) : opcodeRow w = none ↔ w.toNat / 2 ^ 24 = 0 ∨ 0x0C ≤ w.toNat / 2 ^ 24 := by
  rw [← opcode_eq_div]
  unfold opcodeRow
  split
  case h_12 => exact iff_of_true rfl (by grind)
  all_goals
    rename_i e
    simp [e, -BitVec.extractLsb'_toNat]

theorem opcodeRow_fieldMask {w : Word} {fmt : Format} {i : Instr} (h : opcodeRow w = some (fmt, i)) :
    fmt.fieldMask = opcodeMask (w.toNat / 2 ^ 24) := by
  rw [← opcode_eq_div]
  unfold opcodeRow at h
  split at h
  case h_12 => cases h
  all_goals
    rename_i e
    obtain ⟨rfl, -⟩ := Prod.mk.inj (Option.some.inj h)
    rw [e]
    rfl

theorem exists_decodeCommand_iff (w : Word) : (∃ i, decodeCommand w = .ok i) ↔ ¬ IllegalCommand w := by
  simp only [decodeCommand_eq_ok_iff_row, IllegalCommand, ← or_assoc, ← opcodeRow_eq_none_iff, not_or, not_not]
  constructor
  · rintro ⟨i, fmt, hrow, hclear⟩
    exact ⟨by simp [hrow], opcodeRow_fieldMask hrow ▸ hclear⟩
  · rintro ⟨hrow, hclear⟩
    obtain ⟨⟨fmt, i⟩, hrow⟩ := Option.ne_none_iff_exists'.mp hrow
    exact ⟨i, fmt, hrow, opcodeRow_fieldMask hrow ▸ hclear⟩

section
variable (s : State) {w : Word} (hclock : s.params.baseClockHz ≠ 0) (hfault : s.fault = false)
include hclock hfault

theorem State.issueCommand_legal {i : Instr} (hdec : decodeCommand w = .ok i) : s.issueCommand w = exec i s := by
  simp [State.issueCommand, hfault, hclock, hdec]

theorem State.issueCommand_illegal (hdec : ¬ ∃ i, decodeCommand w = .ok i) :
    s.issueCommand w = .next (s.gated fun s => s.raise .illegalCommand) := by
  unfold State.issueCommand
  rw [if_neg (by simp [hfault]), if_neg hclock]
  split
  · rfl
  · rename_i i hi; exact absurd ⟨i, hi⟩ hdec

/-- BUSY comes before decoding: a legal word meets it in the gate of its command, an illegal one in the gate of its
fault. -/
theorem State.issueCommand_busy (hbusy : s.busy = true) : s.issueCommand w = .next (s.raise .busyViolation) := by
  by_cases hdec : ∃ i, decodeCommand w = .ok i
  · obtain ⟨i, hdec⟩ := hdec
    have hcommand : commandOpcode i ≠ none := by rw [decodeCommand_opcode _ _ hdec]; exact Option.some_ne_none _
    obtain ⟨f, hexec, -⟩ := exec_gated i s hcommand
    rw [s.issueCommand_legal hclock hfault hdec, hexec, s.gated_of_busy _ hfault hbusy]
  · rw [s.issueCommand_illegal hclock hfault hdec, s.gated_of_busy _ hfault hbusy]

end

/-- Settles O4: the write reaches `State.issueCommand`, and the word decodes exactly when it is legal. -/
theorem commandIssue : Obligations.CommandIssue := by
  intro s w hclock opc fieldMask illegal write
  have hlegal : (∃ i, decodeCommand w = .ok i) ↔ ¬ illegal := exists_decodeCommand_iff w
  have hcmd (hfault : s.fault = false) : write = s.issueCommand w :=
    (runEvent_write s rfl).trans (s.hostWrite_cmd hfault (Access.location_of_register _ rfl rfl))
  refine ⟨fun hfault => (runEvent_write s rfl).trans (s.hostWrite_of_fault hfault), fun hfault hbusy => ?_,
    fun ⟨hfault, hbusy⟩ hill => ?_, fun ⟨hfault, hbusy⟩ hok => ?_⟩
  · rw [hcmd hfault, s.issueCommand_busy hclock hfault hbusy, State.raise_of_clear _ _ hfault]
    rfl
  · rw [hcmd hfault, s.issueCommand_illegal hclock hfault fun h => hlegal.mp h hill, s.gated_of_ready _ hfault hbusy,
      State.raise_of_clear _ _ hfault]
    rfl
  · obtain ⟨i, hdec⟩ := hlegal.mpr hok
    exact ⟨i, hdec, (hcmd hfault).trans (s.issueCommand_legal hclock hfault hdec)⟩

/-! ## The lane's instructions (41_capture R160, R161, R165, R166) -/

/-- Settles O6: the lane's instruction in each phase, encoded. -/
theorem laneWordOfPhase : Obligations.LaneWordOfPhase := by
  intro s
  refine ⟨fun h => ?_, fun h => ?_, fun h _ => ?_⟩
  · simp [State.laneWord, State.laneInstr, h]
  · cases hp : s.cs.trigPol <;> simp [State.laneWord, State.laneInstr, h, encode, hp, bit]
  · simp [State.laneWord, State.laneInstr, h, encode]

/-- WAIT_GPIO while the lane waits: the TRIGGER step once the pin is at the level (41_capture R160, R165). -/
theorem exec_waitGpio_of_wait {s : State} (hfault : s.fault = false) (hphase : s.lc.phase = .wait) (pol : Bool)
    (gpio : Nat) :
    exec (.waitGpio pol gpio) s = .next (if s.pins.getLsbD gpio = pol then
      (s.setLc { s.lc with phase := .run }).setCs { s.cs with trigSeen := true } else s) := by
  simp [exec, execWaitGpio, State.pinLevel, hfault, hphase]

/-- Settles O25, by the two sides of the level. -/
theorem waitGpioInstruction : Obligations.WaitGpioInstruction := by
  intro pol gpio s hfault hphase
  rw [exec_waitGpio_of_wait hfault hphase]
  refine ⟨fun hlevel => ?_, fun hlevel => ?_⟩
  · rw [if_pos hlevel]; rfl
  · rw [if_neg hlevel]

/-- IN_PINS in the sample loop: one SAMPLE step, unless its word finds the receive queue full (41_capture R161,
R166). -/
theorem exec_inPins_of_run {s : State} (hfault : s.fault = false) (hphase : s.lc.phase = .run) (bitCount : Nat) :
    exec (.inPins bitCount) s = .next (if mergeThreshold (sampleWidth bitCount) ≤ s.lc.cnt + sampleWidth bitCount ∧
        s.lc.rxc.length = s.params.rxcDepth then s
      else s.shiftIn (sampleWidth bitCount) (sampleOf s.pins s.cs.pinBase.toNat (sampleWidth bitCount))) := by
  rw [← ite_not]
  simp [exec, execInPins, hfault, hphase, imp_iff_not_or]

section
variable (s : State) {n : Nat} (v : Word)

theorem State.shiftIn_of_full (h : mergeThreshold n ≤ s.lc.cnt + n) :
    s.shiftIn n v = s.setLc
      { s.lc with rxc := s.lc.rxc ++ [(s.lc.isr >>> n) ||| (v <<< (32 - n))], isr := 0, cnt := 0 } := if_pos h

theorem State.shiftIn_of_not_full (h : ¬ mergeThreshold n ≤ s.lc.cnt + n) :
    s.shiftIn n v = s.setLc { s.lc with isr := (s.lc.isr >>> n) ||| (v <<< (32 - n)), cnt := s.lc.cnt + n } := if_neg h

end

/-- Settles O26: a stalled sample, one that completes a word, and one that does not. -/
theorem inPinsInstruction : Obligations.InPinsInstruction := by
  intro bitCount s _ hfault hphase n full v isr
  rw [exec_inPins_of_run hfault hphase]
  refine ⟨fun hfull hlen => ?_, fun hfull hlen => ?_, fun hfull => ?_⟩
  · rw [if_pos ⟨hfull, hlen⟩]
  · rw [if_neg fun h => hlen h.2, s.shiftIn_of_full (n := sampleWidth bitCount) _ hfull]; rfl
  · rw [if_neg fun h => hfull h.1, s.shiftIn_of_not_full (n := sampleWidth bitCount) _ hfull]; rfl

end Sys2Proof.Machine

/-! The divider (40_divider): what the finite binary32 patterns stand for, rounding to the nearest whole number with ties
to even, and from the two that RNE32 (00_scope R7) gives the nearest pattern. -/

namespace Sys2Proof.Machine

/-! ## The finite binary32 patterns -/

/-- `c` is the significand and `2 ^ j` the weight of its last bit, in units of 2^-149, of a finite binary32 value: 24 bits,
the first of them set unless the value is subnormal. -/
def IsSignificand (j c : Nat) : Prop := c < 2 ^ 24 ∧ (j = 0 ∨ 2 ^ 23 ≤ c)

theorem IsSignificand.lt_of_exponent_lt {j k c q : Nat} (hq : IsSignificand k q) (hc : c < 2 ^ 24) (hjk : j < k) :
    c * 2 ^ j < q * 2 ^ k := by
  have hbit : 2 ^ 23 ≤ q := hq.2.resolve_left (by omega)
  calc c * 2 ^ j < 2 ^ 24 * 2 ^ j := by gcongr
    _ = 2 ^ 23 * 2 ^ (j + 1) := by ring
    _ ≤ q * 2 ^ k := by gcongr <;> omega

theorem IsSignificand.unique {j k c q : Nat} (hc : IsSignificand j c) (hq : IsSignificand k q)
    (h : c * 2 ^ j = q * 2 ^ k) : j = k ∧ c = q := by
  obtain hlt | rfl | hgt := lt_trichotomy j k
  · exact absurd h (hq.lt_of_exponent_lt hc.1 hlt).ne
  · exact ⟨rfl, Nat.eq_of_mul_eq_mul_right (by positivity) h⟩
  · exact absurd h (hc.lt_of_exponent_lt hq.1 hgt).ne'

/-- The significand that an exponent field `e` and a fraction `f` give. -/
theorem exists_isSignificand_of_fields (e : Nat) {f : Nat} (hf : f < 2 ^ 23) :
    ∃ j c, IsSignificand j c ∧ (if e = 0 then f else (2 ^ 23 + f) * 2 ^ (e - 1)) = c * 2 ^ j ∧
      e * 2 ^ 23 + f = j * 2 ^ 23 + c := by
  obtain _ | e := e
  · exact ⟨0, f, ⟨by omega, .inl rfl⟩, by simp⟩
  · exact ⟨e, 2 ^ 23 + f, ⟨by omega, .inr (by omega)⟩, rfl, by omega⟩

/-- A finite pattern has a significand, and a positive one is read off from it. -/
theorem exists_isSignificand {w : Word} {m : Int} (h : f32Value w = .finite m) :
    ∃ j c, IsSignificand j c ∧ m.natAbs = c * 2 ^ j ∧ (0 < m → w.toNat = j * 2 ^ 23 + c) := by
  have hw := w.isLt
  obtain ⟨j, c, hc, hmag, hfields⟩ :=
    exists_isSignificand_of_fields (w.toNat / 2 ^ 23 % 256) (Nat.mod_lt w.toNat (Nat.two_pow_pos 23))
  refine ⟨j, c, hc, ?_⟩
  simp only [f32Value, getLsbD_eq_div_mod, hmag, beq_iff_eq] at h
  generalize c * 2 ^ j = mag at h ⊢
  split_ifs at h with hspecial hfrac hneg <;> cases h
  · exact ⟨by omega, by omega⟩
  · exact ⟨rfl, by omega⟩

theorem f32Value_injective_of_pos {v w : Word} {m : Int} (hm : 0 < m) (hv : f32Value v = .finite m)
    (hw : f32Value w = .finite m) : v = w := by
  obtain ⟨j, c, hc, hmc, hvc⟩ := exists_isSignificand hv
  obtain ⟨k, q, hq, hmq, hwq⟩ := exists_isSignificand hw
  obtain ⟨rfl, rfl⟩ := hc.unique hq (hmc.symm.trans hmq)
  exact BitVec.eq_of_toNat_eq ((hvc hm).trans (hwq hm).symm)

theorem f32Value_of_fields {v : Word} {e f : Nat} (hv : v.toNat = e * 2 ^ 23 + (2 ^ 23 + f)) (he : e < 254)
    (hf : f < 2 ^ 23) : f32Value v = .finite ((2 ^ 23 + f) * 2 ^ e : Nat) := by
  have hexp : v.toNat / 2 ^ 23 % 256 = e + 1 := by omega
  have hfrac : v.toNat % 2 ^ 23 = f := by omega
  have hsign : ¬ v.toNat / 2 ^ 31 % 2 = 1 := by omega
  have hspecial : e + 1 ≠ 255 := by omega
  simp only [f32Value, getLsbD_eq_div_mod, hexp, hfrac, beq_iff_eq, if_neg hsign, if_neg hspecial,
    if_neg (Nat.succ_ne_zero e), Nat.add_sub_cancel]

/-- A significand of 24 bits, laid over the exponent: the top bit adds 1 to it, and so does rounding up to 25 bits. -/
theorem f32Value_of_toNat {v : Word} {k q : Nat} (hv : v.toNat = k * 2 ^ 23 + q) (hlow : 2 ^ 23 ≤ q)
    (hhigh : q ≤ 2 ^ 24) (hfinite : v.toNat < 0x7F800000) : f32Value v = .finite (q * 2 ^ k : Nat) := by
  obtain ⟨f, rfl⟩ := Nat.exists_eq_add_of_le hlow
  obtain heq | hlt := (show f ≤ 2 ^ 23 by omega).eq_or_lt
  · subst heq
    rw [f32Value_of_fields (e := k + 1) (f := 0) (hv.trans (by ring)) (by omega) (by omega),
      show (2 ^ 23 + 0) * 2 ^ (k + 1) = (2 ^ 23 + 2 ^ 23) * 2 ^ k by ring]
  · exact f32Value_of_fields hv (by omega) hlt

/-! ## Rounding to the nearest whole number, ties to even -/

section
variable {num den : Nat} (hden : 0 < den)
include hden

/-- Off by half at most, and by half only to an even number. -/
theorem roundHalfEven_error : |2 * (roundHalfEven num den * den - num : ℤ)| ≤ den ∧
    (|2 * (roundHalfEven num den * den - num : ℤ)| = den → roundHalfEven num den % 2 = 0) := by
  have hdiv : (num / den * den + num % den : ℤ) = num := mod_cast Nat.div_add_mod' num den
  have hmod : num % den < den := Nat.mod_lt _ hden
  unfold roundHalfEven
  dsimp only
  split_ifs with hdown hup
  · grind
  · grind
  · obtain heven | hodd := Nat.mod_two_eq_zero_or_one (num / den)
    · rw [heven]; grind
    · rw [hodd]; grind

theorem le_roundHalfEven {a : Nat} (h : a * den ≤ num) : a ≤ roundHalfEven num den := by
  have herr := (abs_le.mp (roundHalfEven_error (num := num) hden).1).1
  have : 2 * a * den ≤ (2 * roundHalfEven num den + 1) * den := by
    zify at h ⊢; linarith
  have := Nat.le_of_mul_le_mul_right this hden
  omega

theorem roundHalfEven_le {b : Nat} (h : 2 * num < (2 * b + 1) * den) : roundHalfEven num den ≤ b := by
  have herr := (abs_le.mp (roundHalfEven_error (num := num) hden).1).2
  have : 2 * roundHalfEven num den * den < (2 * b + 2) * den := by
    zify at h ⊢; linarith
  have := Nat.lt_of_mul_lt_mul_right this
  omega

theorem roundHalfEven_nearest (j : ℤ) :
    |(roundHalfEven num den * den - num : ℤ)| ≤ |j * den - num| ∧
    (|(roundHalfEven num den * den - num : ℤ)| = |j * den - num| → j ≠ roundHalfEven num den →
      roundHalfEven num den % 2 = 0) := by
  obtain ⟨herr, heven⟩ := roundHalfEven_error (num := num) hden
  obtain rfl | hne := eq_or_ne j (roundHalfEven num den)
  · simp
  have hapart : (den : ℤ) ≤ |j * den - roundHalfEven num den * den| := by
    rw [← sub_mul, abs_mul, Nat.abs_cast]
    exact le_mul_of_one_le_left (by positivity) (Int.one_le_abs (sub_ne_zero.mpr hne))
  have htriangle := abs_sub_le (j * den : ℤ) num (roundHalfEven num den * den)
  rw [abs_sub_comm (num : ℤ)] at htriangle
  rw [abs_mul, abs_two] at herr heven
  exact ⟨by linarith, fun heq _ => heven (by linarith)⟩

end

/-! ## RNE32 of a value of at least 1.0 -/

/-- The exponent of the last bit that `rne32` keeps, in units of 2^-149. -/
def rneExponent (num den : Nat) : Nat := Nat.log2 (num * 2 ^ 149 / den) - 23

/-- The weight of that bit, in parts of 2^-149 / `den`. -/
def rneUnit (num den : Nat) : Nat := den * 2 ^ rneExponent num den

/-- The significand that `rne32` rounds to. -/
def rneSignificand (num den : Nat) : Nat := roundHalfEven (num * 2 ^ 149) (rneUnit num den)

/-- The value of `rne32`, in units of 2^-149. -/
def rneValue (num den : Nat) : ℤ := rneSignificand num den * 2 ^ rneExponent num den

/-- How far `m` units of 2^-149 are from `num / den`, in parts of 2^-149 / `den`. -/
def scaledError (num den : Nat) (m : ℤ) : ℤ := |m * den - (num * 2 ^ 149 : Nat)|

section
variable {num den : Nat} (hden : 0 < den)
include hden

theorem abs_sub_eq_scaledError (m : ℤ) :
    |(m : ℚ) / 2 ^ 149 - (num : ℚ) / (den : ℚ)| = (scaledError num den m : ℚ) / (2 ^ 149 * den) := by
  have hden : (0 : ℚ) < den := mod_cast hden
  rw [div_sub_div _ _ (by positivity) hden.ne', abs_div, abs_of_pos (show (0 : ℚ) < 2 ^ 149 * den by positivity),
    scaledError, mul_comm (2 ^ 149 : ℚ) num]
  push_cast
  rfl

theorem rneUnit_pos : 0 < rneUnit num den := Nat.mul_pos hden (Nat.two_pow_pos _)

/-- Of the multiples of the last bit's weight none is nearer than the one with the significand of `rne32`. -/
theorem rneSignificand_nearest (t : ℤ) :
    scaledError num den (rneValue num den) ≤ scaledError num den (t * 2 ^ rneExponent num den) ∧
    (scaledError num den (rneValue num den) = scaledError num den (t * 2 ^ rneExponent num den) →
      t ≠ rneSignificand num den → rneSignificand num den % 2 = 0) := by
  have hscale (j : ℤ) : scaledError num den (j * 2 ^ rneExponent num den) =
      |j * rneUnit num den - (num * 2 ^ 149 : Nat)| := by
    simp only [scaledError, rneUnit]; push_cast; ring_nf
  simp only [rneValue, hscale]
  exact roundHalfEven_nearest (rneUnit_pos hden) t

/-- Below halfway from the largest finite value to 2^128, no value rounds up to 2^128. -/
theorem rneSignificand_lt_of_top (hfinite : num < (2 ^ 128 - 2 ^ 103) * den) (hk : rneExponent num den = 253) :
    rneSignificand num den < 2 ^ 24 := by
  rw [rneSignificand, rneUnit, hk]
  exact Nat.lt_succ_of_le (roundHalfEven_le (b := 2 ^ 24 - 1) (by positivity) (by omega))

variable (hone : den ≤ num)
include hone

/-- The value lies between the powers of 2 that 24 significant bits give. -/
theorem rneExponent_spec : 126 ≤ rneExponent num den ∧
    2 ^ 23 * rneUnit num den ≤ num * 2 ^ 149 ∧ num * 2 ^ 149 < 2 ^ 24 * rneUnit num den := by
  have hle : 2 ^ 149 ≤ num * 2 ^ 149 / den := (Nat.le_div_iff_mul_le hden).mpr (by rw [mul_comm]; gcongr)
  have hlog : 149 ≤ Nat.log2 (num * 2 ^ 149 / den) := (Nat.le_log2 (by omega)).mpr hle
  obtain ⟨k, hk⟩ : ∃ k, Nat.log2 (num * 2 ^ 149 / den) = k + 23 := ⟨_, (Nat.sub_add_cancel (by omega)).symm⟩
  have hlow := Nat.log2_self_le (n := num * 2 ^ 149 / den) (by omega)
  have hhigh := Nat.lt_log2_self (n := num * 2 ^ 149 / den)
  rw [Nat.le_div_iff_mul_le hden, hk] at hlow
  rw [Nat.div_lt_iff_lt_mul hden, hk] at hhigh
  have hexp : rneExponent num den = k := by rw [rneExponent, hk, Nat.add_sub_cancel]
  rw [rneUnit, hexp]
  refine ⟨by omega, ?_, ?_⟩
  · calc _ = 2 ^ (k + 23) * den := by ring
      _ ≤ _ := hlow
  · calc _ < _ := hhigh
      _ = _ := by ring

theorem rneSignificand_range : 2 ^ 23 ≤ rneSignificand num den ∧ rneSignificand num den ≤ 2 ^ 24 := by
  obtain ⟨-, hlow, hhigh⟩ := rneExponent_spec hden hone
  have hunit := rneUnit_pos (num := num) hden
  exact ⟨le_roundHalfEven hunit hlow, roundHalfEven_le hunit (by linarith)⟩

/-- A value below the power of 2 under `num / den` is farther away than that of `rne32`. -/
theorem scaledError_rneValue_lt {m : ℤ} (hm : m < 2 ^ 23 * 2 ^ rneExponent num den) :
    scaledError num den (rneValue num den) < scaledError num den m := by
  obtain ⟨-, hlow, -⟩ := rneExponent_spec hden hone
  have hpow : (2 ^ 23 * 2 ^ rneExponent num den * den : ℤ) ≤ (num * 2 ^ 149 : Nat) := by
    calc _ = ((2 ^ 23 * rneUnit num den : Nat) : ℤ) := by rw [rneUnit]; push_cast; ring
      _ ≤ _ := mod_cast hlow
  have hlt : m * den < 2 ^ 23 * 2 ^ rneExponent num den * den := by gcongr
  calc _ ≤ scaledError num den (2 ^ 23 * 2 ^ rneExponent num den) := (rneSignificand_nearest hden (2 ^ 23)).1
    _ < scaledError num den m := by
      rw [scaledError, scaledError, abs_of_nonpos (by linarith), abs_of_nonpos (by linarith)]
      linarith

theorem rneValue_pos : 0 < rneValue num den := by
  have hsignificand : 0 < rneSignificand num den := by have := (rneSignificand_range hden hone).1; omega
  exact mul_pos (mod_cast hsignificand) (by positivity)

variable (hfinite : num < (2 ^ 128 - 2 ^ 103) * den)
include hfinite

theorem rneExponent_le : rneExponent num den ≤ 253 := by
  obtain ⟨-, hlow, -⟩ := rneExponent_spec hden hone
  by_contra! hk
  have : den * 2 ^ 254 ≤ rneUnit num den := by rw [rneUnit]; gcongr <;> omega
  omega

/-- The pattern that `rne32` gives is below that of infinity. -/
theorem rne_lt_inf : rneExponent num den * 2 ^ 23 + rneSignificand num den < 0x7F800000 := by
  obtain ⟨-, hq⟩ := rneSignificand_range hden hone
  have htop := rneSignificand_lt_of_top hden hfinite
  have hk := rneExponent_le hden hone hfinite
  clear hfinite
  omega

theorem rne32_toNat : (rne32 num den).toNat = rneExponent num den * 2 ^ 23 + rneSignificand num den := by
  have hlt := rne_lt_inf hden hone hfinite
  change (BitVec.ofNat 32 (min (rneExponent num den * 2 ^ 23 + rneSignificand num den) 0x7F800000)).toNat = _
  rw [BitVec.toNat_ofNat]
  omega

theorem rne32_range : 0x3F800000 ≤ (rne32 num den).toNat ∧ (rne32 num den).toNat < 0x7F800000 := by
  have hlt := rne_lt_inf hden hone hfinite
  obtain ⟨hk, -⟩ := rneExponent_spec hden hone
  obtain ⟨hq, -⟩ := rneSignificand_range hden hone
  rw [rne32_toNat hden hone hfinite]
  omega

theorem f32Value_rne32 : f32Value (rne32 num den) = .finite (rneValue num den) := by
  obtain ⟨hlow, hhigh⟩ := rneSignificand_range hden hone
  rw [rneValue, ← Nat.cast_two, ← Nat.cast_pow, ← Nat.cast_mul]
  exact f32Value_of_toNat (rne32_toNat hden hone hfinite) hlow hhigh (rne32_range hden hone hfinite).2

/-- No finite value is nearer than that of `rne32`, and where one is as near the last bit is 0. A value whose last bit
weighs as much as the last bit kept, or more, is a multiple of that weight; any other lies below the power of 2 under
`num / den`. -/
theorem rne32_nearest {m : ℤ} {w : Word} (hw : f32Value w = .finite m) :
    scaledError num den (rneValue num den) ≤ scaledError num den m ∧
    (scaledError num den (rneValue num den) = scaledError num den m → w ≠ rne32 num den →
      (rne32 num den).getLsbD 0 = false) := by
  obtain ⟨j, c, hc, habs, -⟩ := exists_isSignificand hw
  obtain hle | hlt := le_or_gt (rneExponent num den) j
  · have hdvd : (2 ^ rneExponent num den : ℤ) ∣ m := by
      rw [← Int.natAbs_dvd_natAbs, habs, Int.natAbs_pow]
      exact (pow_dvd_pow 2 hle).mul_left c
    obtain ⟨t, rfl⟩ := exists_eq_mul_left_of_dvd hdvd
    obtain ⟨hnear, heven⟩ := rneSignificand_nearest (num := num) hden t
    refine ⟨hnear, fun heq hne => ?_⟩
    have hdistinct : t ≠ rneSignificand num den := by
      rintro rfl
      exact hne (f32Value_injective_of_pos (rneValue_pos hden hone) hw (f32Value_rne32 hden hone hfinite))
    have hlast := heven heq hdistinct
    rw [getLsbD_eq_div_mod, rne32_toNat hden hone hfinite, pow_zero, Nat.div_one, beq_eq_false_iff_ne]
    omega
  · have hm : m < 2 ^ 23 * 2 ^ rneExponent num den := by
      have htop : IsSignificand (rneExponent num den) (2 ^ 23) := ⟨by norm_num, .inr le_rfl⟩
      calc m ≤ m.natAbs := Int.le_natAbs
        _ < _ := by rw [habs]; exact mod_cast htop.lt_of_exponent_lt hc.1 hlt
    have hfar := scaledError_rneValue_lt hden hone hm
    exact ⟨hfar.le, fun heq => absurd heq hfar.ne⟩

/-- The same of the exact values (00_scope R7). -/
theorem rne32_nearest_rat {m : ℤ} {w : Word} (hw : f32Value w = .finite m) :
    |(rneValue num den : ℚ) / 2 ^ 149 - num / den| ≤ |(m : ℚ) / 2 ^ 149 - num / den| ∧
    (|(rneValue num den : ℚ) / 2 ^ 149 - num / den| = |(m : ℚ) / 2 ^ 149 - num / den| → w ≠ rne32 num den →
      (rne32 num den).getLsbD 0 = false) := by
  obtain ⟨hnear, heven⟩ := rne32_nearest hden hone hfinite hw
  have hpos : (0 : ℚ) < 2 ^ 149 * den := by positivity
  rw [abs_sub_eq_scaledError hden, abs_sub_eq_scaledError hden, div_le_div_iff_of_pos_right hpos,
    div_left_inj' hpos.ne']
  exact ⟨mod_cast hnear, fun heq => heven (mod_cast heq)⟩

end

/-! ## CALC_DIV (40_divider R131, R132) -/

/-- The period that counts: 0 is taken as 1. -/
def clampedPeriod (p : Nat) : Nat := if p = 0 then 1 else p

/-- The units of the period in a second. -/
def unitsPerSecond (us : Bool) : Nat := if us then 1000000 else 1000000000

/-- The divider before it is clamped, for the period `p` (`d` of 40_divider R131). -/
def exactDivider (baseClockHz : Nat) (us : Bool) (p : Nat) : ℚ :=
  (baseClockHz * clampedPeriod p : Nat) / unitsPerSecond us

/-- The divider that is rounded (`d1` of 40_divider R131). -/
def clampedDivider (baseClockHz : Nat) (us : Bool) (p : Nat) : ℚ :=
  if exactDivider baseClockHz us p < 1 then 1 else exactDivider baseClockHz us p

theorem unitsPerSecond_pos (us : Bool) : 0 < unitsPerSecond us := by cases us <;> decide

section
variable {baseClockHz : Nat} {us : Bool} {p : Nat}

theorem exactDivider_lt_one_iff :
    exactDivider baseClockHz us p < 1 ↔ baseClockHz * clampedPeriod p < unitsPerSecond us := by
  rw [exactDivider, div_lt_one (mod_cast unitsPerSecond_pos us), Nat.cast_lt]

theorem dividerOf_snd :
    (dividerOf baseClockHz us p).2 = decide (p = 0 ∨ exactDivider baseClockHz us p < 1) := by
  simp only [exactDivider_lt_one_iff, Bool.decide_or]
  rfl

/-- DATA0 is a rounded fraction of at least 1, equal to the clamped divider. -/
theorem dividerOf_fst (hfinite : clampedDivider baseClockHz us p < 2 ^ 128 - 2 ^ 103) :
    ∃ num den : Nat, 0 < den ∧ den ≤ num ∧ num < (2 ^ 128 - 2 ^ 103) * den ∧
      (dividerOf baseClockHz us p).1 = rne32 num den ∧ clampedDivider baseClockHz us p = num / den := by
  have hval : (dividerOf baseClockHz us p).1 = if baseClockHz * clampedPeriod p < unitsPerSecond us
      then rne32 1 1 else rne32 (baseClockHz * clampedPeriod p) (unitsPerSecond us) := rfl
  rw [clampedDivider] at hfinite ⊢
  simp only [hval, exactDivider_lt_one_iff] at hfinite ⊢
  split_ifs at hfinite ⊢ with hbelow
  · exact ⟨1, 1, one_pos, le_rfl, by norm_num, rfl, by norm_num⟩
  · refine ⟨_, _, unitsPerSecond_pos us, not_lt.mp hbelow, ?_, rfl, rfl⟩
    rw [exactDivider, div_lt_iff₀ (mod_cast unitsPerSecond_pos us),
      show (2 ^ 128 - 2 ^ 103 : ℚ) = (2 ^ 128 - 2 ^ 103 : Nat) by norm_num, ← Nat.cast_mul, Nat.cast_lt] at hfinite
    exact hfinite

/-- With a clock below 2^64 Hz every divider is far below the largest binary32 value. -/
theorem clampedDivider_lt (hclock : baseClockHz < 2 ^ 64) (hp : p < 2 ^ 32) :
    clampedDivider baseClockHz us p < 2 ^ 128 - 2 ^ 103 := by
  have hperiod : clampedPeriod p ≤ 2 ^ 32 := by unfold clampedPeriod; split_ifs <;> omega
  have hexact : exactDivider baseClockHz us p ≤ 2 ^ 96 := by
    calc exactDivider baseClockHz us p ≤ (baseClockHz * clampedPeriod p : Nat) :=
          div_le_self (by positivity) (mod_cast unitsPerSecond_pos us)
      _ ≤ (2 ^ 64 * 2 ^ 32 : Nat) := by gcongr
      _ = 2 ^ 96 := by norm_num
  unfold clampedDivider
  split_ifs
  · norm_num
  · exact hexact.trans_lt (by norm_num)

end

theorem resultWord_calcDiv (clamped : Bool) :
    resultWord opcCalcDiv .ok { clamped } = if clamped then 0x00000110 else 0x00000100 := by cases clamped <;> rfl

theorem State.arg0_toNat_eq_zero_iff (s : State) : s.arg0.toNat = 0 ↔ s.arg0 = 0 := BitVec.toNat_inj (y := 0)

/-- CALC_DIV on a ready block: the result registers and nothing else (40_divider R131, R134). -/
theorem exec_calcDiv_of_ready {s : State} (h : s.ready) (us : Bool) : exec (.calcDiv us) s = .next { s with
    result := if s.arg0 = 0 ∨ exactDivider s.params.baseClockHz us s.arg0.toNat < 1 then 0x00000110 else 0x00000100
    data0 := (dividerOf s.params.baseClockHz us s.arg0.toNat).1
    data1 := 0 } := by
  calc exec (.calcDiv us) s = .next (s.gated _) := rfl
    _ = _ := by
      rw [s.gated_of_ready _ h.1 h.2]
      simp only [State.putResult, resultWord_calcDiv, State.argCount, dividerOf_snd, s.arg0_toNat_eq_zero_iff,
        decide_eq_true_eq]

/-- Settles O15: DATA0 is RNE32 of the clamped divider, which `rne32_nearest_rat` says is nearest. -/
theorem calcDivNearestEven : Obligations.CalcDivNearestEven := by
  intro us s hready p1 d d1 hfinite
  have hd : exactDivider s.params.baseClockHz us s.arg0.toNat = d := by
    have hp1 : (clampedPeriod s.arg0.toNat : ℚ) = p1 := by
      simp only [clampedPeriod, s.arg0_toNat_eq_zero_iff, Nat.cast_ite, Nat.cast_one, p1]
    rw [exactDivider, Nat.cast_mul, hp1]
    cases us <;> simp [unitsPerSecond, d, div_eq_mul_inv]
  have hd1 : clampedDivider s.params.baseClockHz us s.arg0.toNat = d1 := by rw [clampedDivider, hd]
  rw [← hd1] at hfinite
  obtain ⟨num, den, hden, hone, hlt, hv, hvalue⟩ := dividerOf_fst hfinite
  refine ⟨rne32 num den, rneValue num den, f32Value_rne32 hden hone hlt, ?_, fun w m hw => ?_⟩
  · rw [exec_calcDiv_of_ready hready, hv, hd]
  · rw [← hd1, hvalue]
    exact rne32_nearest_rat hden hone hlt hw

/-- CFG_CAPTURE rejects a divider out of range whatever the pins are: the pin checks that come first end in the same
result (41_capture R141, R142). -/
theorem exec_cfgCapture_of_dividerRejected {s : State} (h : s.ready) (hdiv : dividerRejected s.params s.arg0 = true)
    (base n : Nat) : exec (.cfgCapture base n) s = .next (s.plainResult opcCfgCapture .invalidConfiguration) := by
  calc exec (.cfgCapture base n) s = .next (s.gated _) := rfl
    _ = _ := by
      rw [s.gated_of_ready _ h.1 h.2]
      simp only [hdiv, if_true, ite_self]

/-- Settles O16: period 0 counts as period 1, and the rounded value keeps the range of the clamped divider. -/
theorem calcDivCorners : Obligations.CalcDivCorners := by
  intro us s hready _ hclock
  obtain ⟨num, den, hden, hone, hlt, hv, -⟩ := dividerOf_fst (us := us) (clampedDivider_lt hclock s.arg0.isLt)
  have hrange := rne32_range hden hone hlt
  rw [← hv] at hrange
  refine ⟨_, _, exec_calcDiv_of_ready hready us, fun hzero => ⟨if_pos (.inl hzero), ?_⟩, fun hne => ?_, hrange.1,
    hrange.2, fun habove base n => ?_⟩
  · have hperiodOne : (dividerOf s.params.baseClockHz us s.arg0.toNat).1 =
        (dividerOf s.params.baseClockHz us (1 : Word).toNat).1 := by rw [hzero]; rfl
    rw [hperiodOne]
    exact ⟨_, exec_calcDiv_of_ready (s := { s with arg0 := 1 }) hready us⟩
  · have hperiod : clampedPeriod s.arg0.toNat = s.arg0.toNat := if_neg fun h => hne (s.arg0_toNat_eq_zero_iff.mp h)
    have hbelow := exactDivider_lt_one_iff (baseClockHz := s.params.baseClockHz) (us := us) (p := s.arg0.toNat)
    rw [hperiod, unitsPerSecond] at hbelow
    rw [← hbelow]
    split_ifs with hclamped
    · exact iff_of_true rfl (hclamped.resolve_left hne)
    · exact iff_of_false (by decide) fun h => hclamped (.inr h)
  · refine (exec_cfgCapture_of_dividerRejected (by exact hready) ?_ base n).trans rfl
    simp only [dividerRejected, habove, Bool.or_true]

end Sys2Proof.Machine

/-! CFG_CAPTURE's divider check (41_capture R142): the positive binary32 patterns stand in the order of their values. -/

namespace Sys2Proof.Machine

theorem f32Value_lt_iff_of_pos {v w : Word} {a b : Int} (ha : 0 < a) (hb : 0 < b) (hv : f32Value v = .finite a)
    (hw : f32Value w = .finite b) : a < b ↔ v.toNat < w.toNat := by
  obtain ⟨j, c, hc, hac, hvc⟩ := exists_isSignificand hv
  obtain ⟨k, q, hq, hbq, hwq⟩ := exists_isSignificand hw
  have habs : a < b ↔ c * 2 ^ j < q * 2 ^ k := by omega
  rw [habs, hvc ha, hwq hb]
  obtain hlt | rfl | hgt := lt_trichotomy j k
  · have hbit := hq.2.resolve_left (by omega)
    exact iff_of_true (hq.lt_of_exponent_lt hc.1 hlt) (by have := hc.1; omega)
  · rw [Nat.mul_lt_mul_right (by positivity)]; omega
  · have hbit := hc.2.resolve_left (by omega)
    exact iff_of_false (hc.lt_of_exponent_lt hq.1 hgt).not_gt (by have := hq.1; omega)

/-- A pattern from that of 1.0 up to that of +infinity is a positive value. -/
theorem exists_f32Value_of_range {w : Word} (hone : 0x3F800000 ≤ w.toNat) (hinf : w.toNat < 0x7F800000) :
    ∃ m : Int, 0 < m ∧ f32Value w = .finite m := by
  refine ⟨_, ?_, f32Value_of_toNat (k := w.toNat / 2 ^ 23 - 1) (q := w.toNat % 2 ^ 23 + 2 ^ 23) (by omega) (by omega)
    (by omega) hinf⟩
  positivity

theorem f32Value_f32One : f32Value f32One = .finite (2 ^ 149) := by decide

theorem Params.divMax_range {p : Params} (h : p.wf = true) :
    0x3F800000 ≤ p.divMax.toNat ∧ p.divMax.toNat < 0x7F800000 := by
  simp only [Params.wf, Bool.and_eq_true, decide_eq_true_eq] at h
  tauto

/-- The accepted dividers are the finite values from 1.0 to DIV_MAX, in units of 2^-149. -/
theorem dividerRejected_eq_false_iff {p : Params} (h : p.wf = true) (dv : Word) :
    dividerRejected p dv = false ↔
      ∃ k top : Int, f32Value dv = .finite k ∧ f32Value p.divMax = .finite top ∧ 2 ^ 149 ≤ k ∧ k ≤ top := by
  obtain ⟨hone, hinf⟩ := Params.divMax_range h
  obtain ⟨top, -, htop⟩ := exists_f32Value_of_range hone hinf
  cases hdv : f32Value dv with
  | nan => simp [dividerRejected, hdv]
  | inf neg => cases neg <;> simp [dividerRejected, hdv, htop, f32Value_f32One, F32.lt]
  | finite k => simp [dividerRejected, hdv, htop, f32Value_f32One, F32.lt]

/-- Settles O18: values from 1.0 on are positive, and the positive patterns are ordered as their values. -/
theorem dividerAcceptedRange : Obligations.DividerAcceptedRange := by
  intro p dv h
  obtain ⟨hone, hinf⟩ := Params.divMax_range h
  obtain ⟨top, htop, hmax⟩ := exists_f32Value_of_range hone hinf
  have hunit : (0 : Int) < 2 ^ 149 := by positivity
  have hiff {k : Int} (hk : 0 < k) (hdv : f32Value dv = .finite k) :
      2 ^ 149 ≤ k ∧ k ≤ top ↔ 0x3F800000 ≤ dv.toNat ∧ dv.toNat ≤ p.divMax.toNat := by
    have hlow := f32Value_lt_iff_of_pos hk hunit hdv f32Value_f32One
    have hhigh := f32Value_lt_iff_of_pos htop hk hmax hdv
    exact and_congr (le_iff_le_iff_lt_iff_lt.mpr hlow) (le_iff_le_iff_lt_iff_lt.mpr hhigh)
  rw [dividerRejected_eq_false_iff h]
  constructor
  · rintro ⟨k, top', hdv, hmax', hlow, hhigh⟩
    obtain rfl := F32.finite.inj (hmax.symm.trans hmax')
    exact (hiff (hunit.trans_le hlow) hdv).mp ⟨hlow, hhigh⟩
  · intro hrange
    obtain ⟨k, hk, hdv⟩ := exists_f32Value_of_range hrange.1 (hrange.2.trans_lt hinf)
    exact ⟨k, top, hdv, hmax, (hiff hk hdv).mpr hrange⟩

end Sys2Proof.Machine

/-! The capture commands (41_capture R141 to R155): each outcome with the condition under which it is the one. -/

namespace Sys2Proof.Machine

/-! ## The pools and the pins a command claims (10_state R40, R41) -/

theorem pinCountLegal_iff_mem (n : Nat) : pinCountLegal n = true ↔ n ∈ [1, 2, 4, 8, 16, 32] := by
  simp [pinCountLegal, or_assoc]

section
variable (s : State)

theorem State.isFree_of_freeIndex {pool : Pool} {i : Nat} (h : s.freeIndex pool = some i) : s.isFree pool i = true :=
  List.find?_some h

theorem State.freeIndex_eq_none_iff (pool : Pool) : s.freeIndex pool = none ↔ ¬ ∃ i, s.isFree pool i = true := by
  rw [State.freeIndex, List.find?_eq_none, not_exists]
  refine ⟨fun h i hi => h i ?_ hi, fun h i _ => h i⟩
  simp only [State.isFree, Bool.and_eq_true, decide_eq_true_eq] at hi
  exact List.mem_range.mpr hi.1.1

theorem State.exists_freeIndex {pool : Pool} (h : ∃ i, s.isFree pool i = true) : ∃ i, s.freeIndex pool = some i :=
  Option.ne_none_iff_exists'.mp fun hnone => (s.freeIndex_eq_none_iff pool).mp hnone h

theorem State.anyOwned_eq_true_iff (base n : Nat) :
    s.anyOwned base n = true ↔ ∃ q : Fin 32, base ≤ q.val ∧ q.val < base + n ∧ s.pinOwner[q] ≠ .none := by
  rw [← not_iff_not, Bool.not_eq_true, s.anyOwned_eq_false]
  push Not
  rfl

end

/-- A command on a ready block is its body. -/
theorem State.next_gated_of_ready {s t : State} (h : s.ready) {f : State → State} (ht : f s = t) :
    (.next (s.gated f) : Host.Outcome State Fault Refusal) = .next t := by
  rw [s.gated_of_ready f h.1 h.2, ht]

/-! ## CFG_CAPTURE -/

section
variable {s : State} {base n : Nat} (hready : s.ready)
include hready

/-- The three checks end in one result (41_capture R141, R142). -/
theorem exec_cfgCapture_of_invalid
    (h : pinCountLegal n = false ∨ s.params.nPins < base + n ∨ dividerRejected s.params s.arg0 = true) :
    exec (.cfgCapture base n) s = .next (s.plainResult opcCfgCapture .invalidConfiguration) := by
  rcases h with hn | hpins | hdiv
  · exact State.next_gated_of_ready hready (by simp only [hn, Bool.not_false, if_true])
  · exact State.next_gated_of_ready hready (by simp only [hpins, if_true, ite_self])
  · exact exec_cfgCapture_of_dividerRejected hready hdiv base n

variable (hn : pinCountLegal n = true) (hpins : base + n ≤ s.params.nPins)
  (hdiv : dividerRejected s.params s.arg0 = false)
include hn hpins hdiv

/-- Past the three checks the free checks, in the order of 41_capture R143, end in one result. -/
theorem exec_cfgCapture_of_exhausted
    (h : (s.cs.state ≠ .idle ∧ s.cs.state ≠ .released) ∨ s.anyOwned base n = true ∨ s.freeIndex .lane = none ∨
      s.freeIndex .prog = none) :
    exec (.cfgCapture base n) s = .next (s.plainResult opcCfgCapture .resourceExhausted) := by
  refine State.next_gated_of_ready hready ?_
  simp only [hn, hpins.not_gt, hdiv, Bool.not_true, Bool.false_eq_true, if_false]
  split_ifs with hstate howned
  · rfl
  · rfl
  · split
    · rename_i l p hl hp
      simp [hstate, howned, hl, hp] at h
    · rfl

theorem exec_cfgCapture_of_accepted (hstate : ¬ (s.cs.state ≠ .idle ∧ s.cs.state ≠ .released))
    (howned : s.anyOwned base n = false) {l p : Nat} (hl : s.freeIndex .lane = some l) (hp : s.freeIndex .prog = some p) :
    exec (.cfgCapture base n) s = .next (s.configureCapture base n l p s.arg0) := by
  refine State.next_gated_of_ready hready ?_
  simp only [hn, hpins.not_gt, hdiv, hstate, howned, hl, hp, Bool.not_true, Bool.false_eq_true, if_false]

end

/-- Settles O17: the divider check accepts no other values than the statement's. -/
theorem cfgCaptureRejects : Obligations.CfgCaptureRejects := by
  intro base n s hready hwf h
  rw [← pinCountLegal_iff_mem, Bool.not_eq_true, ← dividerRejected_eq_false_iff hwf, Bool.not_eq_false] at h
  exact exec_cfgCapture_of_invalid hready h

/-- Settles O19: each check against the fact it checks, and the accepted state field by field. -/
theorem cfgCaptureClaims : Obligations.CfgCaptureClaims := by
  intro base n s hready _ hn hpins hdiv inUse owned laneFree progFree
  have hn := (pinCountLegal_iff_mem n).mpr hn
  refine ⟨fun h => ?_, fun hstate howned hlane hprog => ?_⟩
  · refine exec_cfgCapture_of_exhausted hready hn hpins hdiv ?_
    rwa [s.anyOwned_eq_true_iff, s.freeIndex_eq_none_iff, s.freeIndex_eq_none_iff]
  · obtain ⟨l, hl⟩ := s.exists_freeIndex hlane
    obtain ⟨p, hp⟩ := s.exists_freeIndex hprog
    have hfree : s.anyOwned base n = false := by
      rwa [← Bool.not_eq_true, s.anyOwned_eq_true_iff]
    have hexec := exec_cfgCapture_of_accepted hready hn hpins hdiv hstate hfree hl hp
    rw [State.configureCapture_eq] at hexec
    exact ⟨l, p, _, _, _, s.isFree_of_freeIndex hl, s.isFree_of_freeIndex hp, hexec, fun i => mem_insertIndex _ _ _,
      fun i => mem_insertIndex _ _ _, rfl, rfl,
      fun q => ⟨getElem_assignPins _ _ _ _ _ q.isLt, getElem_assignPins _ _ _ _ _ q.isLt⟩⟩

/-! ## The end of a session (41_capture R152, R155) -/

theorem State.releaseSession_eq (s : State) :
    s.releaseSession = { s with
      held := { s.held with
        xfer := dropHandle s.held.xfer s.cs.xfer
        lane := dropHandle s.held.lane s.cs.lane
        prog := dropHandle s.held.prog s.cs.prog }
      pinOwner := assignPins s.pinOwner s.cs.pinBase.toNat s.cs.pinCount.toNat .none
      cs := { s.cs with xfer := none, lane := none, prog := none }
      lc := { phase := .off, isr := 0, cnt := 0, rxc := [] } } := by
  unfold State.releaseSession
  simp only [State.release_eq_setHeld]
  rfl

/-- Settles O20, from the released state field by field. -/
theorem releaseSession : Obligations.ReleaseSession := fun s =>
  ⟨_, _, s.releaseSession_eq, mem_dropHandle _ _, mem_dropHandle _ _, mem_dropHandle _ _, rfl,
    fun q => getElem_assignPins _ _ _ _ _ q.isLt⟩

section
variable {s : State}

theorem State.ready_of_configuring (hfault : s.fault = false) (h : s.cs.state = .configuring) : s.ready :=
  ⟨hfault, by simp [State.busy, h]⟩

theorem exec_releaseCapture_of_ready (hready : s.ready) :
    exec .releaseCapture s = .next (if s.cs.state ≠ .configuring then s.raise .noSession
      else (s.releaseSession.enter .idle).plainResult opcReleaseCapture .ok) :=
  State.next_gated_of_ready hready rfl

end

/-- Settles O22: BUSY stops the command at its gate, and past the gate a session must be configured. -/
theorem releaseCapture : Obligations.ReleaseCapture := by
  refine fun s hfault => ⟨fun hbusy => ?_, fun hbusy hstate => ?_, fun hstate => ?_⟩
  · calc exec .releaseCapture s = .next (s.gated _) := rfl
      _ = _ := by rw [s.gated_of_busy _ hfault hbusy, State.raise_of_clear _ _ hfault]; rfl
  · rw [exec_releaseCapture_of_ready ⟨hfault, hbusy⟩, if_pos hstate, State.raise_of_clear _ _ hfault]; rfl
  · rw [exec_releaseCapture_of_ready (State.ready_of_configuring hfault hstate), if_neg (not_not.mpr hstate),
      State.releaseSession_enter_eq, State.releaseSession_eq]
    rfl

/-! ## RUN_CAPTURE (41_capture R150) -/

section
variable {s : State} (hready : s.ready) (tp : Nat) (pol : Bool)
include hready

theorem exec_runCapture_of_noSession (h : s.cs.state ≠ .configuring) :
    exec (.runCapture tp pol) s = .next (s.raise .noSession) :=
  State.next_gated_of_ready hready (if_pos h)

variable (hstate : s.cs.state = .configuring)
include hstate

theorem exec_runCapture_of_invalid
    (h : s.argCount < 1 ∨ s.params.capbufWords < s.argCount ∨ s.params.nPins ≤ tp) :
    exec (.runCapture tp pol) s = .next (s.plainResult opcRunCapture .invalidConfiguration) := by
  refine State.next_gated_of_ready hready ?_
  simp only [hstate, ne_eq, not_true_eq_false, if_false, if_pos h]

variable (h : ¬ (s.argCount < 1 ∨ s.params.capbufWords < s.argCount ∨ s.params.nPins ≤ tp))
include h

/-! Past the checks the lane is cleared, and the channel is claimed from those free before. -/

theorem exec_runCapture_of_noChannel (hx : s.freeIndex .xfer = none) : exec (.runCapture tp pol) s =
    .next ((s.releaseSession.enter .idle).plainResult opcRunCapture .resourceExhausted) := by
  have hx : s.laneOff.freeIndex .xfer = none := hx
  refine State.next_gated_of_ready hready ?_
  simp only [hstate, ne_eq, not_true_eq_false, if_false, if_neg h, hx]
  rfl

theorem exec_runCapture_of_channel {x : Nat} (hx : s.freeIndex .xfer = some x) :
    exec (.runCapture tp pol) s = .next (s.laneOff.startCapture s.argCount tp x pol) := by
  have hx : s.laneOff.freeIndex .xfer = some x := hx
  refine State.next_gated_of_ready hready ?_
  simp only [hstate, ne_eq, not_true_eq_false, if_false, if_neg h, hx]

end

/-- Settles O21: the checks in their order, and past them the two outcomes of the claim. -/
theorem runCapture : Obligations.RunCapture := by
  intro tp pol s hready cap invalid
  refine ⟨fun hstate => ?_, fun hstate hbad => ?_, fun hstate hok hnone => ?_, fun hstate hok hfree => ?_⟩
  · rw [exec_runCapture_of_noSession hready tp pol hstate, State.raise_of_clear _ _ hready.1]; rfl
  · exact exec_runCapture_of_invalid hready tp pol hstate hbad
  · rw [exec_runCapture_of_noChannel hready tp pol hstate hok ((s.freeIndex_eq_none_iff _).mpr hnone),
      State.releaseSession_enter_eq, State.releaseSession_eq]
    rfl
  · obtain ⟨x, hx⟩ := s.exists_freeIndex hfree
    have hexec := exec_runCapture_of_channel hready tp pol hstate hok hx
    rw [State.laneOff_startCapture_eq] at hexec
    exact ⟨x, _, s.isFree_of_freeIndex hx, hexec, fun i => mem_insertIndex _ _ _, rfl, rfl, rfl⟩

end Sys2Proof.Machine

/-! The steps of the capture lane (41_capture R160 to R166): the trigger, the samples, and the word that the samples of a
whole merge make. -/

namespace Sys2Proof.Machine

/-! ## The lane's current instruction (41_capture R165, R166) -/

/-- A lane step runs the lane's instruction with the pins at the levels drawn. -/
theorem State.laneStep_of_laneInstr {s : State} {i : Instr} (h : s.laneInstr = some i) (levels : Word) :
    s.laneStep levels = exec i (s.setPins levels) := by
  have h : (s.setPins levels).laneInstr = some i := h
  simp only [State.laneStep, h]

/-- The operands of the lane's instruction fit their fields: they come from fields of the session. -/
theorem State.wellFormed_of_laneInstr {s : State} {i : Instr} (h : s.laneInstr = some i) : i.wellFormed = true := by
  unfold State.laneInstr at h
  split at h
  · cases h
  · obtain rfl := Option.some.inj h; exact decide_eq_true s.cs.trigPin.isLt
  · obtain rfl := Option.some.inj h; exact decide_eq_true (Nat.mod_lt _ (by decide))

/-- Settles O8: the lane's word is that of its instruction, which is well formed, so the word decodes to it. -/
theorem stepRunsLaneWord : Obligations.StepRunsLaneWord := by
  intro s levels w i hev hword hdec
  obtain ⟨j, hj, rfl⟩ := Option.map_eq_some_iff.mp hword
  obtain rfl := Except.ok.inj ((decodeEncodeRoundTrip j (State.wellFormed_of_laneInstr hj)).symm.trans hdec)
  have hj : s.takeEvent.2.laneInstr = some j := by simpa [State.laneInstr] using hj
  rw [step, hev]
  exact State.laneStep_of_laneInstr hj levels

/-- With a fault set a lane step brings the pin levels and does nothing else. -/
theorem State.laneStep_of_fault {s : State} (h : s.fault = true) (levels : Word) :
    s.laneStep levels = .next (s.setPins levels) := by
  cases hi : s.laneInstr with
  | none =>
    have hi : (s.setPins levels).laneInstr = none := hi
    simp only [State.laneStep, hi]
  | some i => rw [State.laneStep_of_laneInstr hi, exec_of_fault _ _ (by simpa using h)]

/-! ## The trigger (41_capture R160, R165) -/

theorem State.laneStep_of_wait {s : State} (hphase : s.lc.phase = .wait) (levels : Word) :
    s.laneStep levels = .next (if s.fault = false ∧ levels.getLsbD s.cs.trigPin.toNat = s.cs.trigPol then
      ((s.setPins levels).setLc { s.lc with phase := .run }).setCs { s.cs with trigSeen := true }
      else s.setPins levels) := by
  have hinstr : s.laneInstr = some (.waitGpio s.cs.trigPol s.cs.trigPin.toNat) := by
    simp only [State.laneInstr, hphase]
  cases hfault : s.fault with
  | true => exact State.laneStep_of_fault hfault levels
  | false =>
    rw [State.laneStep_of_laneInstr hinstr, exec_waitGpio_of_wait (s := s.setPins levels) hfault hphase]
    exact congrArg Host.Outcome.next (if_congr (by simp) rfl rfl)

/-- Settles O23: the step is taken where no fault is set and the pin is at its level. -/
theorem triggerStep : Obligations.TriggerStep := by
  refine fun s levels hphase => ⟨fun hfault hlevel => ?_, fun h => ?_⟩
  · exact (State.laneStep_of_wait hphase levels).trans (by rw [if_pos ⟨hfault, hlevel⟩]; rfl)
  · have hdisabled : ¬ (s.fault = false ∧ levels.getLsbD s.cs.trigPin.toNat = s.cs.trigPol) := by
      rintro ⟨hfault, hlevel⟩
      exact h.elim (by simp [hfault]) (absurd hlevel)
    exact (State.laneStep_of_wait hphase levels).trans (by rw [if_neg hdisabled]; rfl)

/-! ## The samples (41_capture R161, R162, R166) -/

section
variable {s : State} (hphase : s.lc.phase = .run) (hlegal : pinCountLegal s.cs.pinCount.toNat = true) (levels : Word)
include hphase hlegal

theorem State.laneStep_of_run :
    s.laneStep levels = .next (if s.fault = true ∨
        (32 ≤ s.lc.cnt + s.cs.pinCount.toNat ∧ s.lc.rxc.length = s.params.rxcDepth) then s.setPins levels
      else (s.setPins levels).shiftIn s.cs.pinCount.toNat (sampleOf levels s.cs.pinBase.toNat s.cs.pinCount.toNat)) := by
  have hinstr : s.laneInstr = some (.inPins (s.cs.pinCount.toNat % 32)) := by simp only [State.laneInstr, hphase]
  obtain ⟨hwidth, hthreshold⟩ := sampleWidth_of_legal hlegal
  cases hfault : s.fault with
  | true => exact State.laneStep_of_fault hfault levels
  | false =>
    rw [State.laneStep_of_laneInstr hinstr, exec_inPins_of_run (s := s.setPins levels) hfault hphase, hwidth, hthreshold]
    exact congrArg Host.Outcome.next (if_congr (by simp) rfl rfl)

variable (hfault : s.fault = false)
include hfault

/-- A sample that completes a word for which the receive queue has room. -/
theorem State.laneStep_of_full (hfull : 32 ≤ s.lc.cnt + s.cs.pinCount.toNat)
    (hroom : s.lc.rxc.length ≠ s.params.rxcDepth) :
    s.laneStep levels = .next ((s.setPins levels).setLc { s.lc with
      rxc := s.lc.rxc ++ [mergeSample s.cs.pinCount.toNat s.cs.pinBase.toNat s.lc.isr levels], isr := 0, cnt := 0 }) := by
  rw [State.laneStep_of_run hphase hlegal, if_neg (by simp [hfault, hroom]),
    State.shiftIn_of_full _ _ (by rwa [(sampleWidth_of_legal hlegal).2])]
  rfl

theorem State.laneStep_of_not_full (hfull : ¬ 32 ≤ s.lc.cnt + s.cs.pinCount.toNat) :
    s.laneStep levels = .next ((s.setPins levels).setLc { s.lc with
      isr := mergeSample s.cs.pinCount.toNat s.cs.pinBase.toNat s.lc.isr levels
      cnt := s.lc.cnt + s.cs.pinCount.toNat }) := by
  rw [State.laneStep_of_run hphase hlegal, if_neg (by simp [hfault, hfull]),
    State.shiftIn_of_not_full _ _ (by rwa [(sampleWidth_of_legal hlegal).2])]
  rfl

end

/-- Settles O24: the stalled step, the step that completes a word, and the one that does not. -/
theorem sampleStep : Obligations.SampleStep := by
  intro s levels hphase hcount n full stalled
  have hlegal := (pinCountLegal_iff_mem _).mpr hcount
  refine ⟨sampleOf levels s.cs.pinBase.toNat n, sampleOf_getLsbD levels, fun h => ?_, fun hfault hstall hfull => ?_,
    fun hfault hfull => ?_⟩
  · exact (State.laneStep_of_run hphase hlegal levels).trans (by rw [if_pos h]; rfl)
  · exact State.laneStep_of_full hphase hlegal levels hfault hfull fun hlen => hstall ⟨hfull, hlen⟩
  · exact State.laneStep_of_not_full hphase hlegal levels hfault hfull

/-! ## A whole merge (41_capture R163) -/

/-- A step that has a next state is the first of the run. -/
theorem run_of_step {M : Host.Core} {s u : M.State} (h : M.step s = .next u) (k : Nat) :
    M.run (k + 1) s = M.run k u := by
  rw [Host.Core.run, h]

/-- The bits of a merge that has pushed no word, with one sample more. -/
theorem LaneHolds.length_append_mul {n base cnt : Nat} {samples : List Word} {isr : Word}
    (h : LaneHolds n base samples [] isr cnt) (l : Word) : (samples ++ [l]).length * n = cnt + n := by
  rw [List.length_append, List.length_singleton, Nat.add_mul, h.count]; simp

/-- The lane has taken samples since the state `s`, and holds them all in its merge. -/
structure State.Merged (s : State) (taken : List Word) (u : State) : Prop where
  params : u.params = s.params
  fault : u.fault = s.fault
  cs : u.cs = s.cs
  mem : u.mem = s.mem
  lc : u.lc = { s.lc with isr := u.lc.isr, cnt := u.lc.cnt }
  holds : LaneHolds s.cs.pinCount.toNat s.cs.pinBase.toNat taken [] u.lc.isr u.lc.cnt

/-- The lane has taken samples since the state `s`, and has pushed the one word they make. -/
def State.PushedWord (s : State) (taken : List Word) (u : State) : Prop :=
  ∃ w, u.lc = { s.lc with rxc := s.lc.rxc ++ [w], isr := 0, cnt := 0 } ∧ u.cs = s.cs ∧ u.mem = s.mem ∧
    WordsHold s.cs.pinCount.toNat s.cs.pinBase.toNat taken [w]

section
variable {s u : State} {taken : List Word} (hfault : s.fault = false) (hphase : s.lc.phase = .run)
  (hlegal : pinCountLegal s.cs.pinCount.toNat = true) (h : s.Merged taken u)
include hfault hphase hlegal h

/-- The sample that fills the merge pushes its word. -/
theorem State.Merged.push (hroom : s.lc.rxc.length < s.params.rxcDepth) {l : Word}
    (hfull : (taken ++ [l]).length * s.cs.pinCount.toNat = 32) :
    ∃ v, u.laneStep l = .next v ∧ s.PushedWord (taken ++ [l]) v := by
  obtain ⟨hparams, hf, hcs, hmem, hlc, hholds⟩ := h
  have hcnt : u.lc.cnt + s.cs.pinCount.toNat = 32 := (hholds.length_append_mul l).symm.trans hfull
  have hword := hholds.sample l hcnt.le
  rw [hcnt] at hword
  have hrxc : u.lc.rxc = s.lc.rxc := by rw [hlc]
  refine ⟨_, State.laneStep_of_full (by rw [hlc]; exact hphase) (hcs ▸ hlegal) l (hf.trans hfault)
    (by rw [hcs]; omega) (by rw [hrxc, hparams]; omega), _, ?_, hcs, hmem, hword.push.whole⟩
  rw [State.setLc_lc, hrxc, hcs, hlc]

/-- A sample that leaves room in the merge stays in it. -/
theorem State.Merged.sample {l : Word} (hpart : (taken ++ [l]).length * s.cs.pinCount.toNat < 32) :
    ∃ v, u.laneStep l = .next v ∧ v.sched = u.sched ∧ s.Merged (taken ++ [l]) v := by
  obtain ⟨hparams, hf, hcs, hmem, hlc, hholds⟩ := h
  have hcnt : u.lc.cnt + s.cs.pinCount.toNat < 32 := (hholds.length_append_mul l).symm.trans_lt hpart
  refine ⟨_, State.laneStep_of_not_full (by rw [hlc]; exact hphase) (hcs ▸ hlegal) l (hf.trans hfault)
    (by rw [hcs]; omega), rfl, hparams, hf, hcs, hmem, ?_, ?_⟩
  · rw [State.setLc_lc, hlc]
  · rw [State.setLc_lc, hcs]
    exact hholds.sample l hcnt.le

end

/-- From a partly filled merge, the samples that fill it end in its word. -/
theorem State.Merged.run {s : State} (hfault : s.fault = false) (hphase : s.lc.phase = .run)
    (hlegal : pinCountLegal s.cs.pinCount.toNat = true) (hroom : s.lc.rxc.length < s.params.rxcDepth)
    {rest : List Event} (l : Word) (todo : List Word) {taken : List Word} {u : State} (h : s.Merged taken u)
    (hsched : u.sched = (l :: todo).map .lane ++ rest)
    (hfull : (taken ++ l :: todo).length * s.cs.pinCount.toNat = 32) :
    ∃ t, Host.Core.run Sys2Proof.core (todo.length + 1) u = .next t ∧ s.PushedWord (taken ++ l :: todo) t := by
  have hnext : s.Merged taken { u with sched := todo.map .lane ++ rest } := { h with }
  have hstep : Sys2Proof.core.step u = State.laneStep { u with sched := todo.map .lane ++ rest } l :=
    step_of_sched hsched
  induction todo generalizing l taken u with
  | nil =>
    obtain ⟨v, hv, hpushed⟩ := hnext.push hfault hphase hlegal hroom hfull
    exact ⟨v, run_of_step (hstep.trans hv) 0, hpushed⟩
  | cons m todo ih =>
    have hpos := (pinCountLegal_range hlegal).1
    rw [List.append_cons] at hfull
    have hshorter : (taken ++ [l]).length < (taken ++ [l] ++ m :: todo).length := by simp
    obtain ⟨v, hv, hvsched, hmerged⟩ :=
      hnext.sample hfault hphase hlegal ((Nat.mul_lt_mul_of_pos_right hshorter hpos).trans_eq hfull)
    obtain ⟨t, ht, hpushed⟩ := ih m hmerged hvsched hfull { hmerged with } (step_of_sched hvsched)
    exact ⟨t, (run_of_step (hstep.trans hv) _).trans ht, by rwa [List.append_cons]⟩

/-- Settles O27: the samples fill one merge, whose word holds their bits laid end to end. -/
theorem captureWordLayout : Obligations.CaptureWordLayout := by
  intro s samples hfault hphase hcount hisr hcnt hroom hlen
  have hlegal := (pinCountLegal_iff_mem _).mpr hcount
  have hdvd := pinCountLegal_dvd hlegal
  have hfull : samples.length * s.cs.pinCount.toNat = 32 := by rw [hlen, Nat.div_mul_cancel hdvd]
  obtain _ | ⟨l, todo⟩ := samples
  · simp at hfull
  have hstart : s.Merged [] { s with sched := (l :: todo).map .lane ++ s.sched } :=
    ⟨rfl, rfl, rfl, rfl, rfl, by simpa only [hisr, hcnt] using LaneHolds.nil⟩
  obtain ⟨t, hrun, w, hlc, hcs, hmem, hword⟩ := hstart.run hfault hphase hlegal hroom l todo rfl hfull
  refine ⟨t, w, ?_, hlc, hcs, hmem, fun p j hp hj => ?_⟩
  · simpa [Runs] using hrun
  · simpa using hword.getLsbD_place hdvd (i := 0) (by simp) hp hj

end Sys2Proof.Machine

/-! The bulk mover (41_capture R170 to R173). -/

namespace Sys2Proof.Machine

section
variable {s : State}

theorem State.xferStep_of_not_enabled
    (h : s.fault = true ∨ s.cs.state ≠ .transferring ∨ s.lc.rxc = [] ∨ s.cs.cap ≤ s.cs.idx) : s.xferStep = s := by
  rcases s.xferStep_cases with e | ⟨hfault, htrans, hidx, w, rest, hrxc, -⟩
  · exact e
  · rw [hfault, hrxc] at h
    exact absurd hidx (by simpa [htrans] using h)

/-- The word moved and counted (41_capture R170). -/
def State.moveWord (s : State) (w : Word) (rest : List Word) : State :=
  ((s.setLc { s.lc with rxc := rest }).capWrite s.cs.idx w).setCs { s.cs with idx := s.cs.idx + 1 }

theorem State.xferStep_of_enabled {w : Word} {rest : List Word} (hfault : s.fault = false)
    (htrans : s.cs.state = .transferring) (hrxc : s.lc.rxc = w :: rest) (hidx : s.cs.idx < s.cs.cap) :
    s.xferStep = if s.cs.idx + 1 = s.cs.cap then (s.moveWord w rest).complete else s.moveWord w rest := by
  simp [State.xferStep, State.moveWord, hfault, htrans, hrxc, hidx]

theorem State.moveWord_eq {w : Word} {rest : List Word} (hfit : s.cs.idx < s.params.capbufWords) :
    s.moveWord w rest = State.setCs
      { s with mem := Mem.setWord s.mem (capOffset s.cs.idx) w, lc := { s.lc with rxc := rest } }
      { s.cs with idx := s.cs.idx + 1 } := by
  rw [State.moveWord, State.capWrite_setLc, State.capWrite, if_pos hfit]; rfl

end

/-- Settles O29: the moved word's bytes, and the completed state against ReleaseSession()'s. -/
theorem xferStep : Obligations.XferStep := by
  intro s
  refine ⟨fun h => congrArg Host.Outcome.next (State.xferStep_of_not_enabled h),
    fun w rest hfault htrans hrxc hidx hcap => ?_⟩
  have hmove := State.moveWord_eq (w := w) (rest := rest) (hidx.trans_le hcap)
  have hstep : runEvent .xfer s = .next _ :=
    congrArg Host.Outcome.next (State.xferStep_of_enabled hfault htrans hrxc hidx)
  rw [hstep, hmove]
  refine ⟨_, Mem.word_setWord _ _ _, fun _ => Mem.byte_setWord_of_apart _ _, fun hmore => ?_, fun hlast => ?_⟩
  · rw [if_neg hmore]; rfl
  · rw [if_pos hlast, hlast]
    refine congrArg Host.Outcome.next ((State.complete_setIdx _ _).trans ?_)
    rw [State.releaseSession_enter_eq, State.releaseSession_eq]
    rfl

/-- Settles O30: a command completes on a ready block only, and of the agents' steps the completing move and reset alone
write the sequencer's state. -/
theorem transferringLeftOnlyByCompletionOrReset : Obligations.TransferringLeftOnlyByCompletionOrReset := by
  intro s t htrans h
  have heff := State.step_effect h
  have hxfer (hev : s.takeEvent.1 = .xfer) : t = s.takeEvent.2.xferStep := by
    rw [step, hev] at h
    exact (Host.Outcome.next.inj h).symm
  generalize s.takeEvent.1 = e at heff hxfer ⊢
  cases heff with
  | command a i t hw hloc hdec hready hdone =>
    have hidle := hready.2
    simp [State.busy, htrans] at hidle
  | finish w rest htrans' hrxc hlast =>
    cases hfault : s.fault with
    | true =>
      rw [hxfer rfl, State.xferStep_of_not_enabled (.inl (by simpa using hfault))]
      exact .inl (by simpa using htrans)
    | false => exact .inr (.inl ⟨rfl, rfl, by simp, by simpa using hlast, by simp⟩)
  | reset draws => exact .inr (.inr ⟨draws, rfl⟩)
  | _ => exact .inl (by simpa using htrans)

end Sys2Proof.Machine

/-! RECONSTRUCT (42_reconstruct): the plane function as a loop over the words, its inverse, and the sequences as the
command packs them into the plane buffer. -/

namespace Sys2Proof.Machine

/-! ## The plane function (42_reconstruct R190, R191) -/

theorem mul_add_div_of_lt {a b c : Nat} (h : c < b) : (a * b + c) / b = a := by
  rw [Nat.mul_comm, Nat.mul_add_div (Nat.zero_lt_of_lt h), Nat.div_eq_of_lt h, Nat.add_zero]

section
variable {n : Nat} (hlegal : pinCountLegal n = true)
include hlegal

theorem pinCountLegal_mul_div : n * (32 / n) = 32 := Nat.mul_div_cancel' (pinCountLegal_dvd hlegal)

/-- No sequence is cut short: every word gives each pin `32 / n` bits (42_reconstruct R194). -/
theorem planeLength_eq (words : Nat) : words * 32 / n = words * (32 / n) :=
  Nat.mul_div_assoc words (pinCountLegal_dvd hlegal)

theorem mul_planeLength (words : Nat) : n * (words * 32 / n) = 32 * words := by
  rw [planeLength_eq hlegal, Nat.mul_left_comm, pinCountLegal_mul_div hlegal, Nat.mul_comm]

/-- Bit `i` of a word belongs to pin `i % n`, whose bits of the word are counted by `i / n`. -/
theorem div_pinCount_lt {i : Nat} (hi : i < 32) : i / n < 32 / n :=
  Nat.div_lt_of_lt_mul (by rwa [pinCountLegal_mul_div hlegal])

theorem planeIndex_lt {words m i : Nat} (hm : m < words) (hi : i < 32) : m * (32 / n) + i / n < words * 32 / n := by
  rw [planeLength_eq hlegal, Nat.mul_comm m]
  exact Nat.mul_add_lt_mul_of_lt_of_lt hm (div_pinCount_lt hlegal hi)

theorem groupBit_lt {p j : Nat} (hp : p < n) (hj : j < 32 / n) : p + j * n < 32 := by
  rw [Nat.mul_comm, ← pinCountLegal_mul_div hlegal]
  exact Nat.add_mul_lt_mul_of_lt_of_lt hp hj

/-- Element `m * (32 / n) + j` of pin `p` is the bit that the loop takes from word `m` in its step `j`. -/
theorem planeBit_group (buf : Nat → Word) {p j : Nat} (hp : p < n) (hj : j < 32 / n) (m : Nat) :
    planeBit buf n p (m * (32 / n) + j) = (buf m).getLsbD (p + j * n) := by
  have hbit : (p + (m * (32 / n) + j) * n) % 32 = p + j * n := by
    calc (p + (m * (32 / n) + j) * n) % 32 = (p + j * n + n * (32 / n) * m) % 32 := by ring_nf
      _ = p + j * n := by
        rw [pinCountLegal_mul_div hlegal, Nat.add_mul_mod_self_left, Nat.mod_eq_of_lt (groupBit_lt hlegal hp hj)]
  rw [planeBit, mul_add_div_of_lt hj, hbit]

/-- Bit `i` of word `m`, found in the sequences (42_reconstruct R196). -/
theorem planeBit_interleaved (buf : Nat → Word) (m : Nat) {i : Nat} (hi : i < 32) :
    planeBit buf n (i % n) (m * (32 / n) + i / n) = (buf m).getLsbD i := by
  have hn := (pinCountLegal_range hlegal).1
  rw [planeBit_group hlegal buf (Nat.mod_lt i hn) (div_pinCount_lt hlegal hi), Nat.mod_add_div']

end

theorem range_mul_eq_flatMap (a b : Nat) :
    List.range (a * b) = (List.range a).flatMap fun m => (List.range b).map (m * b + ·) := by
  induction a with
  | zero => simp
  | succ a ih => simp [Nat.succ_mul, List.range_add, List.range_succ, ih]

/-- Settles O34: group by group, the loop's bits are the sequence's elements. -/
theorem planeIterationForm : Obligations.PlaneIterationForm := by
  intro buf n words p hn hp
  have hlegal := (pinCountLegal_iff_mem n).mpr hn
  refine ⟨fun m j hj => planeBit_group hlegal buf hp hj m, ?_⟩
  rw [planeLength_eq hlegal, range_mul_eq_flatMap, List.map_flatMap]
  refine List.flatMap_congr fun m _ => ?_
  rw [List.map_map]
  exact List.map_congr_left fun j hj => (planeBit_group hlegal buf hp (List.mem_range.mp hj) m).symm

/-! ## The re-interleaver (42_reconstruct R196) -/

/-- INTERLEAVE(s, n)[m]: bit `p + j * n` is element `m * (32 / n) + j` of pin `p`. -/
def interleave (seqs : Nat → Nat → Bool) (n m : Nat) : Word :=
  BitVec.ofFnLE fun i : Fin 32 => seqs (i % n) (m * (32 / n) + i / n)

theorem interleave_getLsbD (seqs : Nat → Nat → Bool) (n m : Nat) {i : Nat} (hi : i < 32) :
    (interleave seqs n m).getLsbD i = seqs (i % n) (m * (32 / n) + i / n) := by
  simp [interleave, hi]

/-- Any sequences are those of their interleaving. -/
theorem planeBit_interleave {n : Nat} (hlegal : pinCountLegal n = true) (seqs : Nat → Nat → Bool) {p : Nat} (hp : p < n)
    (k : Nat) : planeBit (interleave seqs n) n p k = seqs p k := by
  have hgroup : 0 < 32 / n := Nat.div_pos (pinCountLegal_range hlegal).2 (pinCountLegal_range hlegal).1
  have hj := Nat.mod_lt k hgroup
  have hdiv : (p + k % (32 / n) * n) / n = k % (32 / n) := by
    rw [Nat.add_mul_div_right _ _ (Nat.zero_lt_of_lt hp), Nat.div_eq_of_lt hp, Nat.zero_add]
  have hmod : (p + k % (32 / n) * n) % n = p := by rw [Nat.add_mul_mod_self_right, Nat.mod_eq_of_lt hp]
  calc planeBit (interleave seqs n) n p k
      = planeBit (interleave seqs n) n p (k / (32 / n) * (32 / n) + k % (32 / n)) := by rw [Nat.div_add_mod']
    _ = seqs p (k / (32 / n) * (32 / n) + k % (32 / n)) := by
      rw [planeBit_group hlegal _ hp hj, interleave_getLsbD _ _ _ (groupBit_lt hlegal hp hj), hdiv, hmod]
    _ = seqs p k := by rw [Nat.div_add_mod']

/-! ## The plane buffer after the command (42_reconstruct R192, R193) -/

theorem planeWord_getLsbD (buf : Nat → Word) (n words b : Nat) :
    (planeWord buf n words (b / 32)).getLsbD (b % 32) =
      planeBit buf n (b / (words * 32 / n)) (b % (words * 32 / n)) := by
  have hb : b % 32 < 32 := Nat.mod_lt _ (by decide)
  simp [planeWord, hb, Nat.div_add_mod]

/-- Filling the plane buffer writes the bytes of its first `N` words alone. -/
theorem State.byte_planeFill (s : State) (ws : Nat → Word) (N : Nat) {a : Nat}
    (h : a < planeOffset 0 ∨ planeOffset N ≤ a) : Mem.byte (s.planeFill ws N).mem a = Mem.byte s.mem a := by
  induction N with
  | zero => rfl
  | succ N ih =>
    simp only [planeOffset] at h ih
    have ih := ih (by omega)
    rw [State.planeFill, State.planeWrite]
    split
    · rw [State.setMem_mem, Mem.byte_setWord_of_apart _ _ (by simp only [planeOffset]; omega), ih]
    · exact ih

/-- The state after RECONSTRUCT at `n` pins. -/
def State.reconstructed (s : State) (n : Nat) : State := { s with
  mem := (s.planeFill (planeWord s.capRead n s.arg0.toNat) s.arg0.toNat).mem
  plane := { valid := true, words := s.arg0.toNat, pinCount := BitVec.ofNat 6 n }
  result := 0x00000500
  data0 := s.arg0
  data1 := 0 }

section
variable {s : State} {n : Nat} (hready : s.ready)
include hready

theorem exec_reconstruct_of_invalid
    (h : pinCountLegal n = false ∨ s.argCount < 1 ∨ s.params.capbufWords < s.argCount) :
    exec (.reconstruct n) s = .next (s.plainResult opcReconstruct .invalidConfiguration) := by
  rcases h with hn | hN
  · exact State.next_gated_of_ready hready (by simp only [hn, Bool.not_false, if_true])
  · exact State.next_gated_of_ready hready (by simp only [if_pos hN, ite_self])

theorem exec_reconstruct_of_accepted (hlegal : pinCountLegal n = true) (hN : 1 ≤ s.arg0.toNat)
    (hfit : s.arg0.toNat ≤ s.params.capbufWords) : exec (.reconstruct n) s = .next (s.reconstructed n) := by
  have hcount : ¬ (s.argCount < 1 ∨ s.params.capbufWords < s.argCount) := by unfold State.argCount; omega
  refine State.next_gated_of_ready hready ?_
  simp only [hlegal, Bool.not_true, Bool.false_eq_true, if_false, if_neg hcount]
  rw [State.planeFill_eq_setMem, State.argCount, BitVec.ofNat_toNat, BitVec.setWidth_eq]
  rfl

end

section
variable {s : State} {n : Nat} (hfit : s.arg0.toNat ≤ s.params.capbufWords)
include hfit

/-- Bit `b` of the packed sequences. -/
theorem State.reconstructed_getLsbD {b : Nat} (hb : b < 32 * s.arg0.toNat) :
    ((s.reconstructed n).planeRead (b / 32)).getLsbD (b % 32) =
      planeBit s.capRead n (b / (s.arg0.toNat * 32 / n)) (b % (s.arg0.toNat * 32 / n)) := by
  have hword : b / 32 < s.arg0.toNat := Nat.div_lt_of_lt_mul hb
  have hread : (s.reconstructed n).planeRead (b / 32) = planeWord s.capRead n s.arg0.toNat (b / 32) :=
    (s.planeRead_planeFill _ _ _ hfit).trans (if_pos hword)
  rw [hread, planeWord_getLsbD]

/-- Bit `k` of pin `p` is at bit `(p * L + k) % 32` of word `(p * L + k) / 32`, for sequences of length `L`. -/
theorem State.reconstructed_pin_getLsbD (hlegal : pinCountLegal n = true) {p k : Nat} (hp : p < n)
    (hk : k < s.arg0.toNat * 32 / n) :
    ((s.reconstructed n).planeRead ((p * (s.arg0.toNat * 32 / n) + k) / 32)).getLsbD
      ((p * (s.arg0.toNat * 32 / n) + k) % 32) = planeBit s.capRead n p k := by
  have hb : p * (s.arg0.toNat * 32 / n) + k < 32 * s.arg0.toNat := by
    rw [← mul_planeLength hlegal, Nat.mul_comm]
    exact Nat.mul_add_lt_mul_of_lt_of_lt hp hk
  rw [State.reconstructed_getLsbD hfit hb, mul_add_div_of_lt hk, Nat.mul_add_mod_of_lt hk]

end

/-- Settles O32: both checks end in one result. -/
theorem reconstructRejects : Obligations.ReconstructRejects := by
  intro n s hready h
  rw [← pinCountLegal_iff_mem, Bool.not_eq_true] at h
  exact exec_reconstruct_of_invalid hready h

/-- Settles O33: the plane words are read bit by bit, and no byte outside them is written. -/
theorem reconstructEffect : Obligations.ReconstructEffect := by
  intro n s hready _ hn hN hfit
  have hlegal := (pinCountLegal_iff_mem n).mpr hn
  exact ⟨_, exec_reconstruct_of_accepted hready hlegal hN hfit, fun b hb => State.reconstructed_getLsbD hfit hb,
    fun a ha => s.byte_planeFill _ _ ha⟩

/-- Settles O35: each bit of a word stands in the sequence of its pin, any sequences have an interleaving, and the plane
buffer holds element by element what the plane function gives. -/
theorem reconstructRoundTrip : Obligations.ReconstructRoundTrip := by
  refine ⟨fun n hn words => ?_, fun n s hready _ hn hN hfit => ?_⟩
  · have hlegal := (pinCountLegal_iff_mem n).mpr hn
    exact ⟨fun buf m i _ hi => planeBit_interleaved hlegal buf m hi,
      fun seqs => ⟨interleave seqs n, fun p k hp _ => planeBit_interleave hlegal seqs hp k⟩⟩
  · have hlegal := (pinCountLegal_iff_mem n).mpr hn
    refine ⟨_, exec_reconstruct_of_accepted hready hlegal hN hfit, fun m i hm hi => ?_⟩
    have hp : i % n < n := Nat.mod_lt i (pinCountLegal_range hlegal).1
    exact (State.reconstructed_pin_getLsbD hfit hlegal hp (planeIndex_lt hlegal hm hi)).trans
      (planeBit_interleaved hlegal s.capRead m hi)

/-- Settles O36: at one pin the only sequence holds the words' bits in their order, and at 32 pins every word gives each
pin one bit. -/
theorem reconstructCorners : Obligations.ReconstructCorners := by
  intro s hready _ hN hfit
  refine ⟨⟨_, exec_reconstruct_of_accepted hready rfl hN hfit, fun m hm => ?_⟩,
    ⟨_, exec_reconstruct_of_accepted hready rfl hN hfit, fun p k hp hk => ?_⟩⟩
  · refine BitVec.eq_of_getLsbD_eq fun i hi => ?_
    have hbit := State.reconstructed_pin_getLsbD (n := 1) hfit rfl (p := 0) (k := m * 32 + i) (by decide) (by omega)
    rw [Nat.zero_mul, Nat.zero_add, mul_add_div_of_lt hi, Nat.mul_add_mod_of_lt hi] at hbit
    rw [hbit, planeBit_group (n := 1) rfl s.capRead (by decide) hi, Nat.zero_add, Nat.mul_one]
  · have hlen : s.arg0.toNat * 32 / 32 = s.arg0.toNat := Nat.mul_div_cancel _ (by decide)
    have hbit := State.reconstructed_pin_getLsbD (n := 32) hfit rfl hp (hk.trans_eq hlen.symm)
    rw [hlen] at hbit
    have hgroup := planeBit_group (n := 32) rfl s.capRead hp (j := 0) (by decide) k
    rw [hbit]
    simpa using hgroup

end Sys2Proof.Machine

/-! The decoder (43_decoder R211 to R220): what its commands and its FRAME step do in each case, and the frames as the
pairs of bytes they encode. -/

namespace Sys2Proof.Machine

/-! ## The decoder's pin (10_state R41) -/

theorem getElem_assignPins_one {α : Type} (m : Vector α 32) (pin : Nat) (x : α) (q : Fin 32) :
    (assignPins m pin 1 x)[q] = if q.val = pin then x else m[q] := by
  have hpin : pin ≤ q.val ∧ q.val < pin + 1 ↔ q.val = pin := by omega
  rw [← if_congr hpin rfl rfl]
  exact getElem_assignPins m pin 1 x q q.isLt

theorem State.anyOwned_one_iff (s : State) (pin : Nat) :
    s.anyOwned pin 1 = true ↔ ∃ q : Fin 32, q.val = pin ∧ s.pinOwner[q] ≠ .none := by
  rw [s.anyOwned_eq_true_iff]
  refine exists_congr fun q => ?_
  rw [← and_assoc]
  exact and_congr_left fun _ => by omega

/-! ## INIT_DECODER (43_decoder R211) -/

section
variable {s : State} {pin : Nat} (hready : s.ready)
include hready

theorem exec_initDecoder_of_invalid (hpin : s.params.nPins ≤ pin) :
    exec (.initDecoder pin) s = .next (s.plainResult opcInitDecoder .invalidConfiguration) :=
  State.next_gated_of_ready hready (if_pos hpin)

variable (hpin : pin < s.params.nPins)
include hpin

/-- Past the pin check the free checks, in the order of 43_decoder R211, end in one result. -/
theorem exec_initDecoder_of_exhausted
    (h : s.dec.active = true ∨ s.anyOwned pin 1 = true ∨ s.freeIndex .lane = none ∨ s.freeIndex .prog = none) :
    exec (.initDecoder pin) s = .next (s.plainResult opcInitDecoder .resourceExhausted) := by
  refine State.next_gated_of_ready hready ?_
  rw [if_neg hpin.not_ge]
  split_ifs with hactive howned
  · rfl
  · rfl
  · split
    · rename_i l p hl hp
      simp [hactive, howned, hl, hp] at h
    · rfl

theorem exec_initDecoder_of_accepted (hoff : s.dec.active = false) (howned : s.anyOwned pin 1 = false) {l p : Nat}
    (hl : s.freeIndex .lane = some l) (hp : s.freeIndex .prog = some p) :
    exec (.initDecoder pin) s = .next (s.startDecoder pin l p) := by
  refine State.next_gated_of_ready hready ?_
  simp only [hpin.not_ge, hoff, howned, hl, hp, Bool.false_eq_true, if_false]

end

/-- Settles O37: each check against the fact it checks, and the started session field by field. -/
theorem initDecoder : Obligations.InitDecoder := by
  intro pin s hready owned laneFree progFree
  refine ⟨exec_initDecoder_of_invalid hready, fun hpin h => ?_, fun hpin hoff howned hlane hprog => ?_⟩
  · refine exec_initDecoder_of_exhausted hready hpin ?_
    rwa [s.anyOwned_one_iff, s.freeIndex_eq_none_iff, s.freeIndex_eq_none_iff]
  · obtain ⟨l, hl⟩ := s.exists_freeIndex hlane
    obtain ⟨p, hp⟩ := s.exists_freeIndex hprog
    have hfree : s.anyOwned pin 1 = false := by rwa [← Bool.not_eq_true, s.anyOwned_one_iff]
    have hexec := exec_initDecoder_of_accepted hready hpin hoff hfree hl hp
    rw [State.startDecoder_eq] at hexec
    exact ⟨l, p, _, _, _, s.isFree_of_freeIndex hl, s.isFree_of_freeIndex hp, hexec, fun i => mem_insertIndex _ _ _,
      fun i => mem_insertIndex _ _ _, rfl, rfl,
      fun q => ⟨getElem_assignPins_one _ _ _ q, getElem_assignPins_one _ _ _ q⟩⟩

/-! ## DEINIT_DECODER (43_decoder R212) -/

section
variable {s : State} (hready : s.ready)
include hready

theorem exec_deinitDecoder_of_off (hoff : s.dec.active = false) : exec .deinitDecoder s = .next (s.raise .noDecoder) :=
  State.next_gated_of_ready hready (by rw [hoff]; rfl)

theorem exec_deinitDecoder_of_on (hon : s.dec.active = true) : exec .deinitDecoder s =
    .next (if s.nt.en then s.raise .notifyStillEnabled else s.stopDecoder) :=
  State.next_gated_of_ready hready (by rw [hon]; rfl)

end

/-- Settles O38, the faults in their order and the stopped session field by field. -/
theorem deinitDecoder : Obligations.DeinitDecoder := by
  refine fun s hready => ⟨fun hoff => ?_, fun hon hen => ?_, fun hon hen => ?_⟩
  · rw [exec_deinitDecoder_of_off hready hoff, State.raise_of_clear _ _ hready.1]; rfl
  · rw [exec_deinitDecoder_of_on hready hon, if_pos hen, State.raise_of_clear _ _ hready.1]; rfl
  · have hexec := exec_deinitDecoder_of_on hready hon
    rw [if_neg (Bool.not_eq_true _ ▸ hen), State.stopDecoder_eq] at hexec
    exact ⟨_, _, hexec, mem_dropHandle _ _, mem_dropHandle _ _, rfl, rfl, getElem_assignPins_one _ _ _⟩

/-! ## POLL_FRAME (43_decoder R217) -/

section
variable {s : State} (hready : s.ready)
include hready

theorem exec_pollFrame_of_off (hoff : s.dec.active = false) : exec .pollFrame s = .next (s.raise .noDecoder) :=
  State.next_gated_of_ready hready (by rw [hoff]; rfl)

theorem exec_pollFrame_of_empty (hon : s.dec.active = true) (hrxd : s.dec.rxd = []) :
    exec .pollFrame s = .next (s.plainResult opcPollFrame .ok) :=
  State.next_gated_of_ready hready (by rw [hon, hrxd]; rfl)

theorem exec_pollFrame_of_cons {r : Word} {rest : List Word} (hon : s.dec.active = true)
    (hrxd : s.dec.rxd = r :: rest) : exec .pollFrame s =
      .next ((s.setDec { s.dec with rxd := rest }).putResult opcPollFrame .ok { present := true } r 0) :=
  State.next_gated_of_ready hready (by rw [hon, hrxd]; rfl)

end

/-- Settles O39, one clause for each of the command's three outcomes. -/
theorem pollFrame : Obligations.PollFrame := by
  refine fun s hready => ⟨fun hoff => ?_, exec_pollFrame_of_empty hready, fun r rest => exec_pollFrame_of_cons hready⟩
  rw [exec_pollFrame_of_off hready hoff, State.raise_of_clear _ _ hready.1]; rfl

/-! ## The frame decoder (43_decoder R213 to R215) -/

theorem frameValid_iff (r : Word) : frameValid r = true ↔
    r.extractLsb' 8 8 = r.extractLsb' 0 8 ^^^ 0xFF ∧ r.extractLsb' 24 8 = r.extractLsb' 16 8 ^^^ 0xFF := by
  rw [frameValid, Bool.and_eq_true, beq_iff_eq, beq_iff_eq]; rfl

section
variable {p : Params} {r : Word}

theorem decodeFrame_of_malformed (h : frameValid r = false ∨ repeatOf p r = .invalid) :
    decodeFrame p r = (.malformed, 0) := by
  unfold decodeFrame
  split
  · rename_i hvalid
    rw [h.resolve_left (by simp [hvalid])]
  · rfl

theorem decodeFrame_of_absent (hvalid : frameValid r = true) (h : repeatOf p r = .absent) :
    decodeFrame p r = (.ok, frameFields (frameAddress r) (frameData r) 0 false) := by
  rw [decodeFrame, if_pos hvalid, h]

theorem decodeFrame_of_present {x : Byte} (hvalid : frameValid r = true) (h : repeatOf p r = .present x) :
    decodeFrame p r = (.ok, frameFields (frameAddress r) (frameData r) x true) := by
  rw [decodeFrame, if_pos hvalid, h]

end

/-! ## DECODE (43_decoder R216) -/

/-- DECODE writes what DecodeFn says of ARG0. -/
theorem exec_decode_of_decodeFrame {s : State} (hready : s.ready) {code : FrameCode} {fields : Word}
    (h : decodeFrame s.params s.arg0 = (code, fields)) :
    exec .decode s = .next (s.putResult opcDecode code.result {} s.arg0 fields) :=
  State.next_gated_of_ready hready (by simp only [h])

theorem exec_decode_of_malformed {s : State} (hready : s.ready)
    (h : frameValid s.arg0 = false ∨ repeatOf s.params s.arg0 = .invalid) :
    exec .decode s = .next { s with result := 0x00000903, data0 := s.arg0, data1 := 0 } :=
  exec_decode_of_decodeFrame hready (decodeFrame_of_malformed h)

/-- Settles O40, one clause for each of DecodeFn's answers. (`decodeCommand` is the decoder of the command words.) -/
theorem decodeCommandOutcomes : Obligations.DecodeCommand := by
  intro s hready r valid
  have hvalid : frameValid r = true ↔ valid := frameValid_iff r
  rw [← hvalid, Bool.not_eq_true]
  exact ⟨exec_decode_of_malformed hready,
    fun hv hrep => exec_decode_of_decodeFrame hready (decodeFrame_of_absent hv hrep),
    fun x hv hrep => exec_decode_of_decodeFrame hready (decodeFrame_of_present hv hrep)⟩

/-! ## ENCODE (43_decoder R219, R220) -/

section
variable (a d : Byte)

@[simp] theorem frameAddress_encodeFrame : frameAddress (encodeFrame a d) = a := by
  simp [frameAddress, encodeFrame, extractLsb'_append_low]

@[simp] theorem frameInvAddress_encodeFrame : frameInvAddress (encodeFrame a d) = a ^^^ 0xFF := by
  simp [frameInvAddress, encodeFrame, extractLsb'_append_low, extractLsb'_append_high]

@[simp] theorem frameData_encodeFrame : frameData (encodeFrame a d) = d := by
  simp [frameData, encodeFrame, extractLsb'_append_low, extractLsb'_append_high]

@[simp] theorem frameInvData_encodeFrame : frameInvData (encodeFrame a d) = d ^^^ 0xFF := by
  simp [frameInvData, encodeFrame, extractLsb'_append_high]

theorem frameValid_encodeFrame : frameValid (encodeFrame a d) = true := by simp [frameValid]

theorem encodeFrame_eq_not_append : encodeFrame a d = ~~~d ++ d ++ ~~~a ++ a := by
  have hnot (b : Byte) : b ^^^ 0xFF = ~~~b := BitVec.xor_allOnes
  rw [encodeFrame, hnot, hnot]

end

/-- A word is its four bytes laid end to end. -/
theorem append_bytes_eq (r : Word) :
    r.extractLsb' 24 8 ++ r.extractLsb' 16 8 ++ r.extractLsb' 8 8 ++ r.extractLsb' 0 8 = r := by
  iterate 3 rw [BitVec.extractLsb'_append_extractLsb'_eq_extractLsb' (by rfl)]
  exact BitVec.extractLsb'_eq_self

/-- Of a valid frame, its address and its data say all (43_decoder R220). -/
theorem encodeFrame_of_frameValid {r : Word} (h : frameValid r = true) :
    encodeFrame (frameAddress r) (frameData r) = r := by
  obtain ⟨haddress, hdata⟩ := (frameValid_iff r).mp h
  calc encodeFrame (frameAddress r) (frameData r)
      = r.extractLsb' 24 8 ++ r.extractLsb' 16 8 ++ r.extractLsb' 8 8 ++ r.extractLsb' 0 8 := by
        rw [haddress, hdata]; rfl
    _ = r := append_bytes_eq r

theorem frameValid_iff_exists_encodeFrame (r : Word) : frameValid r = true ↔ ∃ a d, r = encodeFrame a d :=
  ⟨fun h => ⟨_, _, (encodeFrame_of_frameValid h).symm⟩, by rintro ⟨a, d, rfl⟩; exact frameValid_encodeFrame a d⟩

theorem setOf_frameValid_eq_range :
    { r : Word | frameValid r = true } = Set.range (Function.uncurry encodeFrame) := by
  ext r
  refine (frameValid_iff_exists_encodeFrame r).trans ⟨?_, ?_⟩
  · rintro ⟨a, d, rfl⟩
    exact ⟨(a, d), rfl⟩
  · rintro ⟨⟨a, d⟩, rfl⟩
    exact ⟨a, d, rfl⟩

theorem encodeFrame_injective2 : Function.Injective2 encodeFrame := fun _ _ _ _ h =>
  ⟨by simpa using congrArg frameAddress h, by simpa using congrArg frameData h⟩

/-- There are as many valid frames as pairs of bytes. -/
theorem ncard_frameValid : Set.ncard { r : Word | frameValid r = true } = 65536 := by
  have hbyte : Nat.card Byte = 256 := (Nat.card_congr BitVec.equivFin.toEquiv).trans (Nat.card_fin _)
  rw [setOf_frameValid_eq_range, Set.ncard_range_of_injective encodeFrame_injective2.uncurry, Nat.card_prod, hbyte]

/-- The fields of DATA1 for a frame without a repeat field (10_state R29). -/
theorem frameFields_absent (a d : Byte) : (frameFields a d 0 false).extractLsb' 0 8 = a ∧
    (frameFields a d 0 false).extractLsb' 8 8 = d ∧ (frameFields a d 0 false).getLsbD 24 = true := by
  simp [frameFields, extractLsb'_append_low, extractLsb'_append_high, getLsbD_append_high,
    -BitVec.getLsbD_eq_getElem]

/-- Settles O41: ENCODE's frame is valid, and DecodeFn cuts its bytes out again. -/
theorem frameRoundTrip : Obligations.FrameRoundTrip := by
  refine fun a d => ⟨encodeFrame_eq_not_append a d, frameValid_encodeFrame a d, fun s hready hrep harg => ?_⟩
  have hfields : decodeFrame s.params s.arg0 = (.ok, frameFields a d 0 false) := by
    rw [decodeFrame_of_absent (harg ▸ frameValid_encodeFrame a d) (hrep _), harg, frameAddress_encodeFrame,
      frameData_encodeFrame]
  exact ⟨_, exec_decode_of_decodeFrame hready hfields, frameFields_absent a d⟩

/-- Settles O42: the valid frames are the range of an injective function of two bytes. -/
theorem frameRejection : Obligations.FrameRejection := by
  refine ⟨fun s hready h => ?_, frameValid_iff_exists_encodeFrame, fun _ _ _ _ h => encodeFrame_injective2 h,
    ncard_frameValid⟩
  refine exec_decode_of_malformed hready (.inl ?_)
  rwa [← Bool.not_eq_true, frameValid_iff, not_and_or]

/-! ## The FRAME step (43_decoder R218) -/

section
variable {s : State} (f : Word)

theorem State.frameStep_of_enabled (hfault : s.fault = false) (hon : s.dec.active = true)
    (hroom : s.dec.rxd.length < s.params.rxdDepth) : s.frameStep f = s.setDec { s.dec with rxd := s.dec.rxd ++ [f] } :=
  if_pos (by simp [hfault, hon, hroom])

theorem State.frameStep_of_not_enabled
    (h : s.fault = true ∨ s.dec.active = false ∨ s.params.rxdDepth ≤ s.dec.rxd.length) : s.frameStep f = s := by
  refine if_neg ?_
  rcases h with h | h | h
  · simp [h]
  · simp [h]
  · simp [h.not_gt]

end

/-- Settles O43: the step is enabled or it is not. -/
theorem frameStep : Obligations.FrameStep := fun _ f =>
  ⟨fun hfault hon hroom => congrArg Host.Outcome.next (State.frameStep_of_enabled f hfault hon hroom),
    fun h => congrArg Host.Outcome.next (State.frameStep_of_not_enabled f h)⟩

end Sys2Proof.Machine

/-! Notification (44_notification R241 to R246): what its commands and its two steps do in each case, and the effects of
an event after which irq_out is low. -/

namespace Sys2Proof.Machine

/-! ## irq_out (44_notification R246) -/

theorem State.irqOut_iff (s : State) : s.irqOut = true ↔ s.nt.en = true ∧ s.nt.rpt ≠ [] := by simp [State.irqOut]

@[simp] theorem State.shiftIn_nt (s : State) (n : Nat) (v : Word) : (s.shiftIn n v).nt = s.nt := by
  obtain ⟨l, e⟩ := s.shiftIn_eq_setLc n v; rw [e, State.setLc_nt]

/-- A legal word written to CMD issues the word of the command it decodes to (30_encoding R105). -/
theorem State.issues_of_decode {s : State} {p : Params} {a : Access} {i : Instr} {w : Word}
    (hev : s.takeEvent.1 = .host a) (hw : a.kind = .write) (hloc : a.location p = some (.register .cmd))
    (hdec : decodeCommand a.data = .ok i) (henc : encode i = .command w) : s.issues w := by
  obtain ⟨hsize, hoff⟩ := Access.location_register hloc
  have hdata := (decodeCommand_eq_ok_iff.mp hdec).2.symm.trans henc
  exact ⟨a, hev, hw, hsize, hoff, InstrWord.command.inj hdata⟩

/-- A completed command leaves irq_out high, unless it pops the last report or turns notification off. -/
theorem State.Completes.irqOut {s t : State} {i : Instr} (h : s.Completes i t) (hhigh : s.irqOut = true) :
    t.irqOut = true ∨ (i = .popReport ∧ s.nt.rpt.length = 1) ∨ i = .setNotify false := by
  rw [State.irqOut_iff] at hhigh ⊢
  cases h with
  | popReport rep rest hrpt =>
    cases rest with
    | nil => exact .inr (.inl ⟨rfl, congrArg List.length hrpt⟩)
    | cons rep' rest => exact .inl ⟨hhigh.1, List.cons_ne_nil _ _⟩
  | notifyOn x => exact .inl ⟨rfl, hhigh.2⟩
  | notifyOff => exact .inr (.inr rfl)
  | _ =>
    exact .inl (by
      simpa [State.configureCapture, State.startCapture, State.startDecoder, State.stopDecoder] using hhigh)

/-- Settles O49: beside the two commands and reset, no effect of an event disables notification or takes a report. -/
theorem irqOutput : Obligations.IrqOutput := by
  refine fun s => ⟨s.irqOut_iff, fun t h hhigh hlow => ?_⟩
  have heff := State.step_effect h
  obtain ⟨hen, hrpt⟩ := s.irqOut_iff.mp hhigh
  rw [← Bool.not_eq_true, State.irqOut_iff] at hlow
  generalize hev : s.takeEvent.1 = e at heff ⊢
  cases heff with
  | command a i t hw hloc hdec hready hdone =>
    rcases hdone.irqOut (by simpa [State.irqOut] using hhigh) with hstill | ⟨rfl, hlast⟩ | rfl
    · exact absurd ((State.irqOut_iff _).mp hstill) hlow
    · exact .inl ⟨State.issues_of_decode hev hw hloc hdec rfl, by simpa using hlast⟩
    · exact .inr (.inl (State.issues_of_decode hev hw hloc hdec rfl))
  | reset draws => exact .inr (.inr ⟨draws, rfl⟩)
  | handleReport => exact absurd ⟨by simpa using hen, by simp⟩ hlow
  | _ => exact absurd (by simpa using ⟨hen, hrpt⟩) hlow

/-! ## SET_NOTIFY (44_notification R241, R242) -/

/-- A command on a ready block whose body raises a fault records it. -/
theorem State.next_gated_of_raise {s : State} (h : s.ready) {f : State → State} {k : FaultKind} (hf : f s = s.raise k) :
    (.next (s.gated f) : Host.Outcome State Fault Refusal) = .next { s with fault := true, faultCode := k.bits } :=
  State.next_gated_of_ready h (hf.trans (s.raise_of_clear k h.1))

section
variable {s : State} (hready : s.ready)
include hready

theorem exec_setNotify_of_off (hoff : s.dec.active = false) (en : Bool) :
    exec (.setNotify en) s = .next { s with fault := true, faultCode := FaultKind.noDecoder.bits } :=
  State.next_gated_of_raise hready (by rw [hoff]; rfl)

variable (hon : s.dec.active = true)
include hon

theorem exec_setNotify_on_of_enabled (hen : s.nt.en = true) :
    exec (.setNotify true) s = .next { s with fault := true, faultCode := FaultKind.doubleEnable.bits } :=
  State.next_gated_of_raise hready (by rw [hon, hen]; rfl)

theorem exec_setNotify_on_of_noLine (hen : s.nt.en = false) (hx : s.freeIndex .irq = none) :
    exec (.setNotify true) s = .next { s with fault := true, faultCode := FaultKind.irqExhausted.bits } :=
  State.next_gated_of_raise hready (by rw [hon, hen, hx]; rfl)

theorem exec_setNotify_on_of_line (hen : s.nt.en = false) {x : Nat} (hx : s.freeIndex .irq = some x) :
    exec (.setNotify true) s = .next (State.plainResult
      { s with
        held := { s.held with irq := insertIndex s.held.irq x }
        nt := { s.nt with line := some x, pending := false, en := true } } opcSetNotify .ok) :=
  State.next_gated_of_ready hready (by rw [hon, hen, hx]; rfl)

theorem exec_setNotify_off_of_disabled (hen : s.nt.en = false) :
    exec (.setNotify false) s = .next (s.plainResult opcSetNotify .ok) :=
  State.next_gated_of_ready hready (by rw [hon, hen]; rfl)

theorem exec_setNotify_off_of_enabled (hen : s.nt.en = true) :
    exec (.setNotify false) s = .next (State.plainResult
      { s with
        held := { s.held with irq := dropHandle s.held.irq s.nt.line }
        nt := { s.nt with en := false, pending := false, line := none } } opcSetNotify .ok) :=
  State.next_gated_of_ready hready (by rw [hon, hen, State.release_eq_setHeld]; rfl)

end

/-- Settles O44, the faults in their order and the claimed line. -/
theorem setNotifyOn : Obligations.SetNotifyOn := by
  refine fun s hready => ⟨fun hoff => exec_setNotify_of_off hready hoff true, exec_setNotify_on_of_enabled hready,
    fun hon hen hnone => ?_, fun hon hen hfree => ?_⟩
  · exact exec_setNotify_on_of_noLine hready hon hen ((s.freeIndex_eq_none_iff .irq).mpr hnone)
  · obtain ⟨x, hx⟩ := s.exists_freeIndex hfree
    exact ⟨x, _, s.isFree_of_freeIndex hx, exec_setNotify_on_of_line hready hon hen hx, fun j => mem_insertIndex _ _ _,
      rfl, rfl, rfl⟩

/-- Settles O45, one clause for each of the command's three outcomes. -/
theorem setNotifyOff : Obligations.SetNotifyOff := fun _ hready =>
  ⟨fun hoff => exec_setNotify_of_off hready hoff false, exec_setNotify_off_of_disabled hready,
    fun hon hen => ⟨_, exec_setNotify_off_of_enabled hready hon hen, mem_dropHandle _ _, rfl, rfl, rfl⟩⟩

/-! ## The LATCH step (44_notification R243) -/

section
variable {s : State}

theorem State.latchStep_of_enabled (hfault : s.fault = false) (hen : s.nt.en = true) (hrxd : s.dec.rxd ≠ [])
    (hpending : s.nt.pending = false) : s.latchStep = s.setNt { s.nt with pending := true } :=
  if_pos (by simp [hfault, hen, hrxd, hpending])

theorem State.latchStep_of_not_enabled
    (h : s.fault = true ∨ s.nt.en = false ∨ s.dec.rxd = [] ∨ s.nt.pending = true) : s.latchStep = s := by
  refine if_neg ?_
  rcases h with h | h | h | h <;> simp [h]

end

/-- Settles O46: the step is enabled or it is not. -/
theorem latchStep : Obligations.LatchStep := fun _ =>
  ⟨fun hfault hen hrxd hpending => congrArg Host.Outcome.next (State.latchStep_of_enabled hfault hen hrxd hpending),
    fun h => congrArg Host.Outcome.next (State.latchStep_of_not_enabled h)⟩

/-! ## The HANDLE step (44_notification R244) -/

section
variable {s : State}

theorem State.handleStep_of_not_enabled (h : s.fault = true ∨ s.nt.en = false ∨ s.nt.pending = false) :
    s.handleStep = s := by
  refine if_neg ?_
  rcases h with h | h | h <;> simp [h]

variable (hfault : s.fault = false) (hen : s.nt.en = true) (hpending : s.nt.pending = true)
include hfault hen hpending

theorem State.handleStep_of_empty (hrxd : s.dec.rxd = []) : s.handleStep = s.setNt { s.nt with pending := false } := by
  simp [State.handleStep, hfault, hen, hpending, hrxd]

variable {r : Word} {rest : List Word} (hrxd : s.dec.rxd = r :: rest)
include hrxd

theorem State.handleStep_of_room (hroom : s.nt.rpt.length < s.params.reportDepth) :
    s.handleStep = (s.setDec { s.dec with rxd := rest }).setNt { s.nt with
      pending := false
      rpt := s.nt.rpt ++ [{ raw := r, code := (decodeFrame s.params r).1, fields := (decodeFrame s.params r).2 }] } := by
  simp only [State.handleStep, hfault, hen, hpending, State.setNt_dec, hrxd]
  exact if_pos hroom

theorem State.handleStep_of_full (hfull : s.params.reportDepth ≤ s.nt.rpt.length) :
    s.handleStep = (s.setDec { s.dec with rxd := rest }).setNt { s.nt with pending := false, ovf := true } := by
  simp only [State.handleStep, hfault, hen, hpending, State.setNt_dec, hrxd]
  exact if_neg hfull.not_gt

end

/-- Settles O47: not enabled, and enabled with no frame, with room for its report, and with none. -/
theorem handleStep : Obligations.HandleStep := by
  refine fun s => ⟨fun h => ?_, fun hfault hen hpending hrxd => ?_,
    fun r rest hfault hen hpending hrxd => ⟨fun hroom => ?_, fun hfull => ?_⟩⟩
  · exact congrArg Host.Outcome.next (State.handleStep_of_not_enabled h)
  · exact congrArg Host.Outcome.next (State.handleStep_of_empty hfault hen hpending hrxd)
  · exact congrArg Host.Outcome.next (State.handleStep_of_room hfault hen hpending hrxd hroom)
  · exact congrArg Host.Outcome.next (State.handleStep_of_full hfault hen hpending hrxd hfull)

/-! ## POP_REPORT (44_notification R245) -/

theorem resultWord_popReport (code : FrameCode) : resultWord opcPopReport code.result { present := true } =
    if code = .ok then 0x00000B20 else 0x00000B23 := by cases code <;> rfl

section
variable {s : State} (hready : s.ready)
include hready

theorem exec_popReport_of_empty (hrpt : s.nt.rpt = []) : exec .popReport s = .next (s.plainResult opcPopReport .ok) :=
  State.next_gated_of_ready hready (by rw [hrpt]; rfl)

theorem exec_popReport_of_cons {rep : Report} {rest : List Report} (hrpt : s.nt.rpt = rep :: rest) :
    exec .popReport s = .next ((s.setNt { s.nt with rpt := rest }).putResult opcPopReport rep.code.result
      { present := true } rep.raw rep.fields) :=
  State.next_gated_of_ready hready (by rw [hrpt])

end

/-- Settles O48, one clause for each of the command's two outcomes. -/
theorem popReport : Obligations.PopReport := by
  refine fun s hready => ⟨exec_popReport_of_empty hready, fun rep rest hrpt => ?_⟩
  rw [exec_popReport_of_cons hready hrpt, ← resultWord_popReport]
  rfl

end Sys2Proof.Machine

/-! The sticky fault (60_exceptions R271 to R273): what an event does while it is set, and which event raises it. -/

namespace Sys2Proof.Machine

/-! ## The block while a fault is set (60_exceptions R273, 20_memory R78) -/

section
variable {s : State} (hfault : s.fault = true)
include hfault

/-- While a fault is set even a read that would fault records nothing. -/
theorem State.hostRead_of_fault (a : Access) : ∃ w, s.hostRead a = s.setReadData w := by
  rcases s.hostRead_cases a with h | ⟨k, e⟩
  · exact h
  · exact ⟨0, by rw [e, State.raise_of_fault _ _ hfault]⟩

/-- All an event can do while a fault is set: leave the state, return a read's word, bring a lane event's pin levels, or
reset. -/
theorem runEvent_of_fault (e : Event) :
    runEvent e s = .next s ∨ (∃ w, runEvent e s = .next (s.setReadData w)) ∨
    (∃ l, runEvent e s = .next (s.setPins l)) ∨ ∃ draws, e = .reset draws ∧ runEvent e s = .next (s.resetStep draws) := by
  cases e with
  | host a =>
    cases hkind : a.kind with
    | read =>
      obtain ⟨w, hread⟩ := State.hostRead_of_fault hfault a
      exact .inr (.inl ⟨w, by rw [runEvent_read s hkind, hread]⟩)
    | write => exact .inl ((runEvent_write s hkind).trans (s.hostWrite_of_fault hfault))
  | lane l => exact .inr (.inr (.inl ⟨l, State.laneStep_of_fault hfault l⟩))
  | xfer => exact .inl (congrArg _ (State.xferStep_of_not_enabled (.inl hfault)))
  | frame f => exact .inl (congrArg _ (State.frameStep_of_not_enabled f (.inl hfault)))
  | latch => exact .inl (congrArg _ (State.latchStep_of_not_enabled (.inl hfault)))
  | handle => exact .inl (congrArg _ (State.handleStep_of_not_enabled (.inl hfault)))
  | reset draws => exact .inr (.inr (.inr ⟨draws, rfl, rfl⟩))

end

/-- Settles O51: of the four things an event can do while a fault is set, reset alone touches the block, and the choice of
the event moves the schedule alone. -/
theorem faultFreezes : Obligations.FaultFreezes := by
  refine fun s hfault => ⟨fun i => exec_of_fault i s hfault,
    fun a hw => (runEvent_write s hw).trans (s.hostWrite_of_fault hfault), fun d => ?_, fun t h => ?_⟩
  · rw [runEvent_read s rfl, s.hostRead_register (Access.location_of_register (r := .status) _ rfl rfl)]
    rfl
  · have htaken : s.takeEvent.2.fault = true := by simpa using hfault
    rw [step] at h
    rcases runEvent_of_fault htaken s.takeEvent.1 with e | ⟨w, e⟩ | ⟨l, e⟩ | ⟨draws, hev, e⟩ <;>
      obtain rfl := Host.Outcome.next.inj (e.symm.trans h)
    · exact .inr (by rw [State.takeEvent_snd])
    · exact .inr (by rw [State.takeEvent_snd]; rfl)
    · exact .inr (by rw [State.takeEvent_snd]; rfl)
    · exact .inl ⟨draws, hev, rfl⟩

/-! ## The step that raises a fault (60_exceptions R271, R272) -/

@[simp] theorem State.shiftIn_fault (s : State) (n : Nat) (v : Word) : (s.shiftIn n v).fault = s.fault := by
  obtain ⟨l, e⟩ := s.shiftIn_eq_setLc n v; rw [e, State.setLc_fault]

section
variable {s t : State} (hclear : s.fault = false) (hraised : t.fault = true)
include hclear hraised

/-- A CMD write after which a fault is set has raised it and done nothing else: a command that completes raises none. -/
theorem State.issueCommand_raises {w : Word} (h : s.issueCommand w = .next t) : ∃ k, t = s.raise k := by
  rcases s.issueCommand_cases w with ⟨hfault, -⟩ | ⟨-, -, e⟩ | ⟨-, k, e⟩ | ⟨-, i, hdec, e⟩
  · exact absurd hfault (by simp [hclear])
  · cases e.symm.trans h
  · exact ⟨k, Host.Outcome.next.inj (h.symm.trans e)⟩
  · have hi : commandOpcode i ≠ none := by rw [decodeCommand_opcode _ _ hdec]; exact Option.some_ne_none _
    rcases exec_command_cases hi (e.symm.trans h) with rfl | ⟨-, hk⟩ | ⟨-, hdone⟩
    · exact absurd hraised (by simp [hclear])
    · exact hk
    · exact absurd hraised (by simp [hdone.fault, hclear])

theorem State.hostWrite_raises {a : Access} (h : s.hostWrite a = .next t) : ∃ k, t = s.raise k := by
  rcases s.hostWrite_cases a with ⟨hfault, -⟩ | ⟨-, k, e⟩ | ⟨-, -, e⟩ | ⟨-, -, e⟩ | ⟨-, -, i, -, e⟩
  · exact absurd hfault (by simp [hclear])
  · exact ⟨k, Host.Outcome.next.inj (h.symm.trans e)⟩
  · exact State.issueCommand_raises hclear hraised (e.symm.trans h)
  · obtain rfl := Host.Outcome.next.inj (e.symm.trans h); exact absurd hraised (by simp [hclear])
  · obtain rfl := Host.Outcome.next.inj (e.symm.trans h); exact absurd hraised (by simp [hclear])

theorem State.hostRead_raises {a : Access} (h : s.hostRead a = t) : ∃ k, t = (s.raise k).setReadData 0 := by
  rcases s.hostRead_cases a with ⟨w, e⟩ | ⟨k, e⟩
  · obtain rfl := e.symm.trans h; exact absurd hraised (by simp [hclear])
  · exact ⟨k, h.symm.trans e⟩

theorem runEvent_host_raises {a : Access} (h : runEvent (.host a) s = .next t) :
    ∃ k, (a.kind = .read → t = (s.raise k).setReadData 0) ∧ (a.kind = .write → t = s.raise k) := by
  cases hkind : a.kind with
  | read =>
    rw [runEvent_read s hkind] at h
    obtain ⟨k, hk⟩ := State.hostRead_raises hclear hraised (Host.Outcome.next.inj h)
    exact ⟨k, fun _ => hk, nofun⟩
  | write =>
    rw [runEvent_write s hkind] at h
    obtain ⟨k, hk⟩ := State.hostWrite_raises hclear hraised h
    exact ⟨k, nofun, fun _ => hk⟩

/-- Only the host port raises a fault. -/
theorem State.EventEffect.host_of_raises {e : Event} (h : s.EventEffect e t) : ∃ a, e = .host a := by
  cases h with
  | readFault a | writeFault a | command a => exact ⟨a, rfl⟩
  | reset draws => cases hraised
  | _ => exact absurd hraised (by simp [hclear])

end

/-- Settles O52: only a host access raises a fault, and what it then does is the raise and, for a read, the word 0. -/
theorem faultIsPrecise : Obligations.FaultIsPrecise := by
  intro s t hclear h hraised
  have hclear : s.takeEvent.2.fault = false := by simpa using hclear
  obtain ⟨a, hev⟩ := (State.step_effect h).host_of_raises hclear hraised
  rw [step, hev] at h
  obtain ⟨k, hread, hwrite⟩ := runEvent_host_raises hclear hraised h
  obtain ⟨hne, hle⟩ := k.bits_range
  have hpos : 1 ≤ k.bits.toNat := Nat.pos_of_ne_zero fun hz => hne (BitVec.eq_of_toNat_eq hz)
  rw [State.raise_of_clear _ _ hclear] at hread hwrite
  exact ⟨a, k.bits, hev, hpos, hle, hread, hwrite⟩

end Sys2Proof.Machine

/-! Reset and the run as a whole (70_reset_and_hazards): the values of a reset step, the agents after it, the invariant
where the model launches, and what every step keeps or answers. -/

namespace Sys2Proof.Machine

/-! ## The outcome of a step (R303; 60_exceptions R271) -/

section
variable (s : State)

/-- Before the clock is fixed a command is refused, whatever its word. -/
theorem State.issueCommand_of_noClock (hfault : s.fault = false) (hclock : s.params.baseClockHz = 0) (w : Word) :
    s.issueCommand w = .refused .clockNotFixed := by
  simp [State.issueCommand, hfault, hclock]

theorem State.issueCommand_next_or_refused (w : Word) :
    (∃ t, s.issueCommand w = .next t) ∨
    (s.issueCommand w = .refused .clockNotFixed ∧ s.params.baseClockHz = 0 ∧ s.fault = false) := by
  rcases s.issueCommand_cases w with ⟨-, e⟩ | ⟨hfault, hclock, e⟩ | ⟨-, k, e⟩ | ⟨-, i, -, e⟩
  · exact .inl ⟨_, e⟩
  · exact .inr ⟨e, hclock, hfault⟩
  · exact .inl ⟨_, e⟩
  · obtain ⟨t, ht, -⟩ := exec_sameOutside i s
    exact .inl ⟨t, e.trans ht⟩

theorem State.hostWrite_next_or_refused (a : Access) :
    (∃ t, s.hostWrite a = .next t) ∨
    (s.hostWrite a = .refused .clockNotFixed ∧ s.params.baseClockHz = 0 ∧ s.fault = false ∧
      a.location s.params = some (.register .cmd)) := by
  rcases s.hostWrite_cases a with ⟨-, e⟩ | ⟨-, k, e⟩ | ⟨-, hloc, e⟩ | ⟨-, -, e⟩ | ⟨-, -, i, -, e⟩
  case inr.inr.inl =>
    rw [e]
    exact (s.issueCommand_next_or_refused a.data).imp_right fun ⟨h, hclock, hfault⟩ => ⟨h, hclock, hfault, hloc⟩
  all_goals exact .inl ⟨_, e⟩

theorem State.laneStep_next (levels : Word) : ∃ t, s.laneStep levels = .next t := by
  rcases s.laneStep_cases levels with e | ⟨-, -, -, e⟩ | ⟨-, -, n, -, e⟩ <;> exact ⟨_, e⟩

/-- Every event answers a next state, but for a command without a clock. -/
theorem runEvent_next_or_refused (e : Event) :
    (∃ t, runEvent e s = .next t) ∨
    (runEvent e s = .refused .clockNotFixed ∧ s.params.baseClockHz = 0 ∧ s.fault = false ∧
      ∃ a, e = .host a ∧ a.kind = .write ∧ a.location s.params = some (.register .cmd)) := by
  cases e with
  | host a =>
    cases hkind : a.kind with
    | read => exact .inl ⟨_, runEvent_read s hkind⟩
    | write =>
      rw [runEvent_write s hkind]
      exact (s.hostWrite_next_or_refused a).imp_right fun ⟨h, hclock, hfault, hloc⟩ =>
        ⟨h, hclock, hfault, a, rfl, hkind, hloc⟩
  | lane levels => exact .inl (s.laneStep_next levels)
  | xfer | frame | latch | handle | reset => exact .inl ⟨_, rfl⟩

end

/-- Settles O9: the choice of the event moves the schedule alone, and the port sends a CMD write to the command's issue. -/
theorem stepStopsOnlyWithoutClock : Obligations.StepStopsOnlyWithoutClock := by
  refine fun s => ⟨?_, ?_⟩
  · refine (runEvent_next_or_refused s.takeEvent.2 s.takeEvent.1).imp_right ?_
    rintro ⟨h, hclock, hfault, a, hev, hw, hloc⟩
    obtain ⟨hsize, hoff⟩ := Access.location_cmd _ a hloc
    exact ⟨h, by simpa using hclock, by simpa using hfault, a.data, a, hev, hw, hsize, hoff, rfl⟩
  · rintro w ⟨a, hev, hw, hsize, hoff, rfl⟩ hfault hclock
    have hfault : s.takeEvent.2.fault = false := by simpa using hfault
    rw [step, hev, runEvent_write _ hw, State.hostWrite_cmd _ hfault (Access.location_of_cmd _ hsize hoff)]
    exact State.issueCommand_of_noClock _ hfault (by simpa using hclock) a.data

/-! ## The parameters (R303; 00_scope R4) -/

theorem State.Completes.params {s t : State} {i : Instr} (h : s.Completes i t) : t.params = s.params := by
  cases h <;> simp [State.configureCapture, State.startCapture, State.startDecoder, State.stopDecoder]

theorem State.EventEffect.params {s t : State} {e : Event} (h : s.EventEffect e t) : t.params = s.params := by
  cases h with
  | command a i t hw hloc hdec hready hdone => exact hdone.params
  | reset draws => rfl
  | _ => simp

/-- Settles O14: neither the choice of the event nor any effect of an event writes the parameters. -/
theorem parametersConstant : Obligations.ParametersConstant := fun s _ h =>
  (State.step_effect h).params.trans s.takeEvent_snd_params

/-! ## The reset step (R300) -/

/-- Draws that all lie in the buffers, read as a memory, read alike in the buffers they fill. -/
theorem Mem.byte_ofDraws {n : Nat} {m : Mem} (h : ∀ c ∈ m, isBufferOffset n c.1 = true) (x : Nat) :
    Mem.byte (Mem.ofDraws n m) x = Mem.byte m x := by
  induction m with
  | nil => rfl
  | cons c m ih =>
    obtain ⟨a, b⟩ := c
    obtain ⟨ha, hm⟩ := List.forall_mem_cons.mp h
    rw [Mem.ofDraws, if_pos ha, Mem.byte_setByte, ih hm, Mem.byte]

/-- Canonical contents are the outcome of their own cells as draws. -/
theorem Mem.ofDraws_of_wf {n : Nat} {m : Mem} (h : Mem.wf n m = true) : Mem.ofDraws n m = m :=
  have hcells := ((Mem.wf_iff n m).mp h).2
  Mem.eq_of_byte_eq n _ _ (Mem.wf_ofDraws n m) h (Mem.byte_ofDraws fun c hc => (hcells c hc).2)

section
variable (s : State) (draws : List Host.Cell)

theorem State.resetStep_pinOwner (q : Fin 32) : (s.resetStep draws).pinOwner[q] = .none := by
  simp [State.resetStep, State.cleanEntry]

theorem State.resetStep_pad (q : Fin 32) : (s.resetStep draws).pad[q] = .default := by
  simp [State.resetStep, State.cleanEntry]

theorem State.resetStep_mem : (s.resetStep draws).mem = Mem.ofDraws s.params.capbufWords draws := rfl

/-- Every view of the registers reads 0 after a reset step. -/
theorem State.resetStep_views :
    (s.resetStep draws).status = 0 ∧ (s.resetStep draws).csCfg = 0 ∧ (s.resetStep draws).csProgress = 0 ∧
    (s.resetStep draws).decCfg = 0 ∧ (s.resetStep draws).bufInfo = 0 ∧ (s.resetStep draws).planeInfo = 0 := by
  simp [State.resetStep, State.cleanEntry, State.status, State.busy, CsState.bits, beq_eq_decide, State.csCfg,
    State.csProgress, State.decCfg, State.bufInfo, State.planeInfo]

end

/-- Settles O10: each value stands in the state that R300 writes out, and contents in canonical form are the outcome of
their own cells. -/
theorem resetStep : Obligations.ResetStep := by
  intro s draws
  obtain ⟨hstatus, hcsCfg, hcsProgress, hdecCfg, hbufInfo, hplaneInfo⟩ := s.resetStep_views draws
  refine ⟨s.resetStep draws, rfl, rfl, rfl, rfl, rfl, rfl, rfl, rfl, rfl, fun q => ?_, rfl, rfl, rfl, rfl, rfl, rfl, rfl,
    hstatus, hcsCfg, hcsProgress, hdecCfg, hbufInfo, hplaneInfo, fun m hm => ?_⟩
  · exact ⟨s.resetStep_pinOwner draws q, s.resetStep_pad draws q⟩
  · exact ⟨m, _, rfl, (s.resetStep_mem m).trans (Mem.ofDraws_of_wf hm)⟩

/-! ## The agents after a reset step (R302) -/

theorem State.laneStep_of_off {s : State} (hphase : s.lc.phase = .off) (levels : Word) :
    s.laneStep levels = .next (s.setPins levels) := by
  simp only [State.laneStep, State.laneInstr, State.setPins_lc, hphase]

/-- Settles O11: the lane is off, no word, session or notification is there for the other agents, and the port answers at
the two registers. -/
theorem afterReset : Obligations.AfterReset := by
  intro s draws
  refine ⟨s.resetStep draws, rfl, State.laneStep_of_off (s := s.resetStep draws) rfl, ?_, fun f => ?_, ?_, ?_,
    fun v => ?_, fun d => ?_⟩
  · exact congrArg _ (State.xferStep_of_not_enabled (.inr (.inr (.inl rfl))))
  · exact congrArg _ (State.frameStep_of_not_enabled f (.inr (.inl rfl)))
  · exact congrArg _ (State.latchStep_of_not_enabled (.inr (.inl rfl)))
  · exact congrArg _ (State.handleStep_of_not_enabled (.inr (.inl rfl)))
  · exact (runEvent_write _ rfl).trans
      (State.hostWrite_arg0 _ rfl (Access.location_of_register (r := .arg0) _ rfl rfl))
  · obtain ⟨hstatus, -⟩ := s.resetStep_views draws
    rw [runEvent_read _ rfl, State.hostRead_register _ (Access.location_of_register (r := .status) _ rfl rfl),
      State.readRegister, hstatus]
    rfl

/-! ## The state the model launches in (R300; 00_scope R4) -/

/-- Whatever the open parameters are, each lies in its range. -/
theorem Config.launch_wf : Config.launch.wf = true := by
  have hpins := Config.nPinsPred.isLt
  have hwords := Config.capbufWordsPred.isLt
  have hrxc := Config.rxcDepthPred.isLt
  have hrxd := Config.rxdDepthPred.isLt
  have hreport := Config.reportDepthPred.isLt
  have hdiv := Config.divMaxAboveOne.isLt
  have hpage : Config.launch.blockBase.toNat % 4096 = 0 := by
    simp only [Config.launch, BitVec.toNat_append, BitVec.toNat_zero, Nat.or_zero, Nat.shiftLeft_eq]
    omega
  have hdivMax : Config.launch.divMax.toNat = 0x3F800000 + Config.divMaxAboveOne.val := by
    simp only [Config.launch, BitVec.toNat_ofNat]
    omega
  simp only [Params.wf, Bool.and_eq_true, decide_eq_true_eq, beq_iff_eq, hpage, hdivMax, true_and]
  simp only [Config.launch]
  omega

/-- Settles O12: the launch state is CLEAN_ENTRY's at parameters in their ranges. -/
theorem invariantAtReset : Obligations.InvariantAtReset := State.cleanEntry_inv Config.launch_wf _

end Sys2Proof.Machine
